-- ==== Sys2Proof/Word.lean ====
section
/-!
DEFINITION. The word types of the block: 32-bit registers, bytes of the ports, 64-bit weights and counters,
16-bit symbols and the 12-bit offsets of the register space (spec/10_state.md, spec/20_memory.md R70).
-/

namespace Sys2Proof

/-- A register, a command word, a FREQ entry: 32 bits (R32, R35, R100). -/
abbrev Word := BitVec 32

/-- One byte of a stream port (R72). -/
abbrev Byte := BitVec 8

/-- A node weight: 64 bits, unsigned (R7 `WEIGHT_W`, R166). -/
abbrev Weight := BitVec 64

/-- A 64-bit counter or SAVINGS (R41 to R46). -/
abbrev Counter := BitVec 64

/-- A leaf's symbol as the node store holds it: 16 bits (R36). -/
abbrev Symbol := BitVec 16

/-- A byte offset into the register space: 12 bits (R70). -/
abbrev Offset := BitVec 12

end Sys2Proof
end

