-- ==== Sys2Proof/Machine/Bits.lean ====
section
/-!
DEFINITION. Bit fields and bit strings (spec/00_scope.md R8, R9; spec/20_memory.md R73; spec/30_encoding.md R100).
-/

namespace Sys2Proof.Machine

/-- `x[31:0]` of a 64-bit value (R51). -/
def lowWord (x : BitVec 64) : Word := x.extractLsb' 0 32

/-- `x[63:32]` of a 64-bit value (R51). -/
def highWord (x : BitVec 64) : Word := x.extractLsb' 32 32

/-- OP, bits 31:24 of a command word (R100). -/
def cmdOp (v : Word) : BitVec 8 := v.extractLsb' 24 8

/-- RSV, bits 23:16 of a command word (R100). -/
def cmdRsv (v : Word) : BitVec 8 := v.extractLsb' 16 8

/-- IMM16, bits 15:0 of a command word (R100). -/
def cmdImm (v : Word) : BitVec 16 := v.extractLsb' 0 16

/-- `bits_n(v)`: the n-bit string of v, most significant bit first (R9). -/
def bitsMsb : Nat → Nat → List Bool
  | 0, _ => []
  | n + 1, v => v.testBit n :: bitsMsb n v

/-- The value of a bit string, its first bit the most significant (R9, R76). -/
def bitsToNat (b : List Bool) : Nat := b.foldl (fun acc x => 2 * acc + x.toNat) 0

/-- The bits of one byte in stream order: bit 7 first (R73). -/
def byteBits (b : Byte) : List Bool := bitsMsb 8 b.toNat

/-- The bit stream `in[0 .. 8m-1]` of an IN supply of m bytes (R73). -/
def supplyBits (bs : List Byte) : List Bool := bs.flatMap byteBits

/-- The byte of eight bits in stream order: the first in bit 7 (R73, R75). -/
def packByte (b : List Bool) : Byte := BitVec.ofNat 8 (bitsToNat b)

/-- The first n bits of a string, zeros where it is shorter (R54: every bit at or beyond LEN reads 0). -/
def padTake (n : Nat) (b : List Bool) : List Bool := b.take n ++ List.replicate (n - b.length) false

end Sys2Proof.Machine
end

