-- ==== Sys2Proof/Syntax.lean ====
section
/-!
DEFINITION. The commands of HTB-CMD revision 1: one constructor for each row of spec/opcode_table.json
(spec/30_encoding.md R102), with the operands of R101.
-/

namespace Sys2Proof

/-- A header format, `IMM16[0]` of MEASURE and STATUS.HDR_FMT: 0 = COUNTS (format A), 1 = TREE (format B) (R101, R40). -/
inductive HdrFmt where
  | counts
  | tree
  deriving DecidableEq, Repr

/-- The 14 commands (R102). The operand types hold exactly the operand values R101 calls well-formed: any 16-bit symbol
for Q_ENQ_LEAF (above EOS it is a value error, R103), one bit for MEASURE and COMPRESS, nothing for the others. -/
inductive Instr where
  /-- NOP 0x00 (R300). -/
  | nop
  /-- SESSION_RESET 0x01 (R301). -/
  | sessionReset
  /-- CLEAR_ERROR 0x02 (R302). -/
  | clearError
  /-- Q_CLEAR 0x10 (R135). -/
  | qClear
  /-- Q_ENQ_LEAF 0x11, symbol in IMM16, weight in ARG0 (R136). -/
  | qEnqLeaf (sym : Symbol)
  /-- Q_PEEK 0x12 (R137). -/
  | qPeek
  /-- Q_DEQUEUE 0x13 (R138). -/
  | qDequeue
  /-- Q_MERGE 0x14 (R161). -/
  | qMerge
  /-- Q_LOAD_FREQ 0x15 (R163). -/
  | qLoadFreq
  /-- TREE_BUILD 0x16 (R165). -/
  | treeBuild
  /-- CT_DERIVE 0x20 (R191). -/
  | ctDerive
  /-- MEASURE 0x30, header format in IMM16[0] (R244). -/
  | measure (fmt : HdrFmt)
  /-- COMPRESS 0x31, force flag in IMM16[0] (R245). -/
  | compress (force : Bool)
  /-- DECOMPRESS 0x32 (R270). -/
  | decompress
  deriving DecidableEq, Repr

end Sys2Proof
end

