-- ==== Sys2Proof/WellFormed.lean ====
section
/-!
DEFINITION. Which command words are well-formed (spec/30_encoding.md R103, R104): three checks, each with a name. The
terms that can be ill-formed on this hardware are command WORDS: every term of `Instr` is well-formed, because its
operands have the widths of R101.
-/

namespace Sys2Proof

/-- Why a command word is ill-formed (R103). The block raises ILLEGAL_COMMAND for each alike. -/
inductive IllFormed where
  /-- Its OP is not in R102 (R103, R104). -/
  | undefinedOpcode
  /-- RSV is not 0 (R103). -/
  | reservedField
  /-- IMM16 has a 1 in a bit that R101 does not give the command (R103). -/
  | strayImmediate
  deriving DecidableEq, Repr

/-- The IMM16 bits R101 gives the command of an opcode; none where the opcode is not in R102. -/
def immMask (op : BitVec 8) : Option (BitVec 16) :=
  match op.toNat with
  | 0x11 => some 0xFFFF#16
  | 0x30 | 0x31 => some 0x0001#16
  | 0x00 | 0x01 | 0x02 | 0x10 | 0x12 | 0x13 | 0x14 | 0x15 | 0x16 | 0x20 | 0x32 => some 0x0000#16
  | _ => none

/-- The first of R103's three checks that a command word fails, none for a well-formed word. -/
def illFormed (v : Word) : Option IllFormed :=
  match immMask (Machine.cmdOp v) with
  | none => some .undefinedOpcode
  | some m =>
    if Machine.cmdRsv v ≠ 0 then some .reservedField
    else if Machine.cmdImm v &&& ~~~m ≠ 0 then some .strayImmediate
    else none

/-- A well-formed command word (R103). -/
def wellFormed (v : Word) : Bool := (illFormed v).isNone

end Sys2Proof
end

