-- ==== Sys2Proof/Decode.lean ====
section
/-!
DEFINITION. Decoding a command word (spec/30_encoding.md R100 to R104), total, refusing by name; the opcode of each
command and the encoder; spec/opcode_table.json's rows as masks and patterns.
-/

namespace Sys2Proof

open Machine

/-- A command of R102 that has no IMM16 operand: RSV and IMM16 must be 0 (R101, R103). -/
def decodePlain (v : Word) (i : Instr) : Except IllFormed Instr :=
  if cmdRsv v ≠ 0 then .error .reservedField
  else if cmdImm v ≠ 0 then .error .strayImmediate
  else .ok i

/-- A command of R102 whose only operand is IMM16[0]: RSV and IMM16[15:1] must be 0 (R101, R103). -/
def decodeBit (v : Word) (mk : Bool → Instr) : Except IllFormed Instr :=
  if cmdRsv v ≠ 0 then .error .reservedField
  else if (cmdImm v).extractLsb' 1 15 ≠ 0 then .error .strayImmediate
  else .ok (mk ((cmdImm v).getLsbD 0))

/-- IMM16[0] of MEASURE: 0 = COUNTS, 1 = TREE (R101). -/
def formatOfBit (b : Bool) : HdrFmt := if b then .tree else .counts

/-- The bit of a header format (R101, R40). -/
def bitOfFormat (f : HdrFmt) : Bool :=
  match f with
  | .counts => false
  | .tree => true

/-- The command of a word (R100 to R104). -/
def decode (v : Word) : Except IllFormed Instr :=
  match (cmdOp v).toNat with
  | 0x00 => decodePlain v .nop
  | 0x01 => decodePlain v .sessionReset
  | 0x02 => decodePlain v .clearError
  | 0x10 => decodePlain v .qClear
  | 0x11 => if cmdRsv v ≠ 0 then .error .reservedField else .ok (.qEnqLeaf (cmdImm v))
  | 0x12 => decodePlain v .qPeek
  | 0x13 => decodePlain v .qDequeue
  | 0x14 => decodePlain v .qMerge
  | 0x15 => decodePlain v .qLoadFreq
  | 0x16 => decodePlain v .treeBuild
  | 0x20 => decodePlain v .ctDerive
  | 0x30 => decodeBit v (fun b => .measure (formatOfBit b))
  | 0x31 => decodeBit v (fun b => .compress b)
  | 0x32 => decodePlain v .decompress
  | _ => .error .undefinedOpcode

/-- The opcode of each command, OP of R102; what ERR_OP records (R321). -/
def Instr.opcode (i : Instr) : BitVec 8 :=
  match i with
  | .nop => 0x00#8
  | .sessionReset => 0x01#8
  | .clearError => 0x02#8
  | .qClear => 0x10#8
  | .qEnqLeaf _ => 0x11#8
  | .qPeek => 0x12#8
  | .qDequeue => 0x13#8
  | .qMerge => 0x14#8
  | .qLoadFreq => 0x15#8
  | .treeBuild => 0x16#8
  | .ctDerive => 0x20#8
  | .measure _ => 0x30#8
  | .compress _ => 0x31#8
  | .decompress => 0x32#8

/-- The IMM16 field of each command (R101). -/
def Instr.imm (i : Instr) : BitVec 16 :=
  match i with
  | .qEnqLeaf sym => sym
  | .measure f => (BitVec.ofBool (bitOfFormat f)).zeroExtend 16
  | .compress force => (BitVec.ofBool force).zeroExtend 16
  | .nop | .sessionReset | .clearError | .qClear | .qPeek | .qDequeue | .qMerge | .qLoadFreq | .treeBuild | .ctDerive
  | .decompress => 0#16

/-- The command word of a command: OP, RSV = 0, IMM16 (R100). -/
def encode (i : Instr) : Word := i.opcode ++ 0#8 ++ i.imm

/-- The three commands that use a port (R72). -/
def Instr.isStream (i : Instr) : Bool :=
  match i with
  | .measure _ | .compress _ | .decompress => true
  | .nop | .sessionReset | .clearError | .qClear | .qEnqLeaf _ | .qPeek | .qDequeue | .qMerge | .qLoadFreq | .treeBuild
  | .ctDerive => false

/-- One row of spec/opcode_table.json. -/
structure OpcodeRow where
  mnemonic : String
  mtch : Word
  mask : Word
  deriving DecidableEq, Repr

/-- spec/opcode_table.json, row for row. -/
def opcodeTable : List OpcodeRow :=
  [ ⟨"NOP", 0x00000000#32, 0xFFFFFFFF#32⟩,
    ⟨"SESSION_RESET", 0x01000000#32, 0xFFFFFFFF#32⟩,
    ⟨"CLEAR_ERROR", 0x02000000#32, 0xFFFFFFFF#32⟩,
    ⟨"Q_CLEAR", 0x10000000#32, 0xFFFFFFFF#32⟩,
    ⟨"Q_ENQ_LEAF", 0x11000000#32, 0xFFFF0000#32⟩,
    ⟨"Q_PEEK", 0x12000000#32, 0xFFFFFFFF#32⟩,
    ⟨"Q_DEQUEUE", 0x13000000#32, 0xFFFFFFFF#32⟩,
    ⟨"Q_MERGE", 0x14000000#32, 0xFFFFFFFF#32⟩,
    ⟨"Q_LOAD_FREQ", 0x15000000#32, 0xFFFFFFFF#32⟩,
    ⟨"TREE_BUILD", 0x16000000#32, 0xFFFFFFFF#32⟩,
    ⟨"CT_DERIVE", 0x20000000#32, 0xFFFFFFFF#32⟩,
    ⟨"MEASURE", 0x30000000#32, 0xFFFFFFFE#32⟩,
    ⟨"COMPRESS", 0x31000000#32, 0xFFFFFFFE#32⟩,
    ⟨"DECOMPRESS", 0x32000000#32, 0xFFFFFFFF#32⟩ ]

/-- A word is one of a row's encodings. -/
def OpcodeRow.covers (r : OpcodeRow) (v : Word) : Bool := v &&& r.mask == r.mtch

/-- The row of each command in spec/opcode_table.json. -/
def Instr.mnemonic (i : Instr) : String :=
  match i with
  | .nop => "NOP"
  | .sessionReset => "SESSION_RESET"
  | .clearError => "CLEAR_ERROR"
  | .qClear => "Q_CLEAR"
  | .qEnqLeaf _ => "Q_ENQ_LEAF"
  | .qPeek => "Q_PEEK"
  | .qDequeue => "Q_DEQUEUE"
  | .qMerge => "Q_MERGE"
  | .qLoadFreq => "Q_LOAD_FREQ"
  | .treeBuild => "TREE_BUILD"
  | .ctDerive => "CT_DERIVE"
  | .measure _ => "MEASURE"
  | .compress _ => "COMPRESS"
  | .decompress => "DECOMPRESS"

/-- The 32-bit word of an instruction whose table bits are w, every bit at or above nbits being 0. A command is one
32-bit word (R100). -/
def tableWord (nbits w : Nat) : Word := BitVec.ofNat 32 (w % 2 ^ nbits)

/-- What the decoder reads from a table word. -/
def decodeTableWord (nbits w : Nat) : Option Instr :=
  match decode (tableWord nbits w) with
  | .ok i => some i
  | .error _ => none

end Sys2Proof
end

