-- ==== Sys2Proof/Config.lean ====
section
/-!
DEFINITION. What an implementation fixes (spec/00_scope.md R7, spec/92_eei_decisions.md "Parameters a model takes as
arguments") and the one free value of the model (spec/20_memory.md R71).
-/

namespace Sys2Proof

/-- The parameters of one machine (R7, R80, R326). They are constant while the machine runs: State carries them in a
field that no step writes. -/
structure Params where
  /-- `W`, the symbol width in bits, legal 1..8 (R7, D2). -/
  w : Nat
  /-- `MAGIC` (R7, D4). -/
  magic : Word
  /-- `TAG_COUNTS` (R7, D5). -/
  tagCounts : Word
  /-- `TAG_TREE` (R7, D5). -/
  tagTree : Word
  /-- `HTB_BASE`, the platform's base address of the register space (R80, OPEN). -/
  htbBase : Nat
  /-- `IRQ_LINE`, the platform's number of the interrupt line (R326, OPEN). -/
  irqLine : Nat
  deriving DecidableEq, Repr

/-- The defaults of R7. `htbBase` and `irqLine` are OPEN in the spec. DESIGN CHOICE: 0, unsafe (notes/assumptions/3.md). -/
def Params.default : Params :=
  { w := 8, magic := 0xFACE8200#32, tagCounts := 0x63742020#32, tagTree := 0x74726565#32, htbBase := 0, irqLine := 0 }

/-- `ALPH_SIZE = 2^W`, the number of normal symbols (R7). -/
def Params.alphSize (p : Params) : Nat := 2 ^ p.w

/-- `EOS = ALPH_SIZE`, the end-of-stream symbol (R7, D3). -/
def Params.eos (p : Params) : Nat := p.alphSize

/-- `VW = W + 1`, the width of a leaf value in format B (R7). -/
def Params.vw (p : Params) : Nat := p.w + 1

/-- `QCAP = ALPH_SIZE + 1`, the capacity of the queue (R7, D14). -/
def Params.qcap (p : Params) : Nat := p.alphSize + 1

/-- `NODE_CAP = 2*QCAP - 1`, the capacity of the node store (R7, D14). -/
def Params.nodeCap (p : Params) : Nat := 2 * p.qcap - 1

/-- `MAXCODE = ALPH_SIZE`, the longest code in bits (R7, R195). -/
def Params.maxCode (p : Params) : Nat := p.alphSize

/-- The legal values (R7; 92_eei_decisions.md, the parameter table): W is 1..8, the three constants are different, the
base is aligned to 4096 bytes. -/
def Params.legal (p : Params) : Bool :=
  decide (1 ≤ p.w) && decide (p.w ≤ 8) && decide (p.magic ≠ p.tagCounts) && decide (p.magic ≠ p.tagTree)
    && decide (p.tagCounts ≠ p.tagTree) && decide (p.htbBase % 4096 = 0)

/-- FREE VALUE: what the n-th drawn host read returns, a read while BUSY = 1 of a register that the running command may
change: "any 32-bit value" (R71, notes/assumptions/6.md). It has no body: nothing can be proved of its values. -/
opaque Config.busyRead : Nat → Word

end Sys2Proof
end

