-- ==== Sys2Proof/Machine/State.lean ====
section
/-!
DEFINITION. The state of the block (spec/10_state.md), of its two ports (spec/20_memory.md R72 to R78), and of the
agents around it as plain data (spec/70_reset_and_hazards.md R359); the state after reset (R57, R350).
-/

namespace Sys2Proof.Machine

/-- The error names of R320; code 0x00 (no error) is the absent value. -/
inductive ErrCode where
  | emptyQueue
  | unsupportedHeaderFormat
  | notRecognizedFormat
  | truncatedStream
  | preconditionViolation
  | malformedTree
  | capacity
  | countOverflow
  | noCode
  | illegalCommand
  | badArgument
  deriving DecidableEq, Repr

/-- A tree node with everything it owns (R10, R36): trees are values, because node indices are not observable. -/
inductive HuffTree where
  | leaf (sym : Symbol) (weight : Weight)
  | node (weight : Weight) (left right : HuffTree)
  deriving DecidableEq, Repr

/-- A table indexed by symbol, in one canonical form: indices strictly rising, absent entries not listed. -/
abbrev Table (α : Type) := List (Nat × α)

/-- FREQ (R35): the one memory-like store of the register space, as (symbol, 32-bit word) pairs with strictly rising
symbols and no pair whose word is 0, which is what an unlisted symbol reads as (R57). -/
abbrev Memory := Table Word

/-- CT (R39): a listed symbol has VALID = 1, LEN its string's length and BITS the string; an unlisted one is (0, 0, []). -/
abbrev CodeTable := Table (List Bool)

/-- The queue Q (R37) and NODES_USED (R36). QSIZE is the queue's length. -/
structure NodeStore where
  queue : List HuffTree
  used : Nat
  deriving DecidableEq, Repr

/-- What the stream collaborator sees on the ports (R74, R78). -/
inductive PortEvent where
  /-- A byte sent on OUT (R75). -/
  | byte (b : Byte)
  /-- CloseOut (R78). -/
  | closeOut
  /-- CloseIn (R78). -/
  | closeIn
  deriving DecidableEq, Repr

/-- The two ports (R55, R72 to R78). -/
structure Ports where
  /-- The unread bits of the IN supply that is open, in stream order (R73). -/
  rest : List Bool
  /-- IN_POS: how many bits of it have been read (R55, R76). -/
  inPos : Nat
  /-- IN_BITS (R46). -/
  inBits : Counter
  /-- OUT_PEND: the partial byte, first bit first (R55, R75). -/
  outPend : List Bool
  /-- BITS_WRITTEN (R45). -/
  bitsWritten : Counter
  /-- Everything the collaborator has seen, oldest first (R74, R358). -/
  log : List PortEvent
  deriving DecidableEq, Repr

/-- The engine's control state (R30, R48): BUSY holds the accepted command that is pending (R359). -/
inductive Engine where
  | idle
  | busy (cmd : Instr)
  deriving DecidableEq, Repr

/-- One move of the agents around the engine, or the engine's turn (R359). -/
inductive Event where
  /-- The host reads the word at a bus address (R71). -/
  | read (addr : Nat)
  /-- The host writes a word at a bus address (R71). -/
  | write (addr : Nat) (v : Word)
  /-- The collaborator presents an IN supply to the next stream command (R72, R106). -/
  | supply (bytes : List Byte)
  /-- The host is in a WAIT: it polls STATUS until BUSY = 0 (R107). -/
  | wait
  /-- The platform asserts and releases RST (R350, R351). `sent` is how many bytes a running COMPRESS or DECOMPRESS had
  already sent on OUT (R351); a command that sends fewer had sent all of its whole bytes. -/
  | rst (sent : Nat)
  /-- The engine's turn (R359). -/
  | engine
  deriving DecidableEq, Repr

/-- Why the machine stops with a fault: never. A raised error is an ordinary next state, and the engine always has a
step (R332), so there is no constructor and nothing raises one: safe. -/
inductive Fault where
  deriving DecidableEq, Repr

/-- Why an instruction has no meaning (R332: "Refusal: none"). -/
inductive Refusal where
  /-- The dispatcher answers so for an instruction of the table that the model gives no meaning yet; safe. No arm does. -/
  | notModelled (mnemonic : String)
  deriving DecidableEq, Repr

/-- The state of the machine: one home for each piece of state of spec/10_state.md, the parameters, and the agents
around the block as data. -/
structure State where
  /-- The parameters of this machine; no step writes them (R7). -/
  par : Params
  /-- IDLE or BUSY with the pending command (R30, R48 BUSY). -/
  engine : Engine
  /-- STATUS.DONE (R48). -/
  done : Bool
  /-- CTRL[0] = IRQ_EN (R47). -/
  irqEn : Bool
  /-- STATUS.ERRCODE; STATUS.ERR is its read view (R48, R320). -/
  err : Option ErrCode
  /-- STATUS.ERR_OP (R48). -/
  errOp : BitVec 8
  /-- STATUS.DROPPED (R48). -/
  dropped : Bool
  /-- STATUS.TLEN_MISMATCH (R48, R215). -/
  tlenMismatch : Bool
  /-- ARG0 (R50). -/
  arg0 : Word
  /-- RESULT0 (R51). -/
  result0 : Word
  /-- RESULT1 (R51). -/
  result1 : Word
  /-- RESULT2 (R51). -/
  result2 : Word
  /-- CT_SEL[8:0] (R54). -/
  ctSel : BitVec 9
  /-- FREQ (R35). -/
  freq : Memory
  /-- The queue and NODES_USED (R36, R37). -/
  nodes : NodeStore
  /-- ROOT and ROOT_VALID (R38): absent when ROOT_VALID = 0, since ROOT is then unspecified and never read (R57). -/
  root : Option HuffTree
  /-- CT (R39). -/
  ct : CodeTable
  /-- STATUS.CT_VALID (R39). -/
  ctValid : Bool
  /-- STATUS.MEASURED (R40). -/
  measured : Bool
  /-- STATUS.HDR_FMT (R40). -/
  hdrFmt : HdrFmt
  /-- ORIG_BITS (R41). -/
  origBits : Counter
  /-- ACCT_BITS (R42). -/
  acctBits : Counter
  /-- SAVINGS, two's complement (R44). -/
  savings : Counter
  /-- TREE_LEN (R43). -/
  treeLen : Word
  /-- The two stream ports (R55, R72). -/
  ports : Ports
  /-- The model's own: the IN supplies presented and not yet taken, oldest first (R72, notes/assumptions/4.md). -/
  supplies : List (List Byte)
  /-- The model's own: the events still to come, oldest first (R359, notes/assumptions/5.md). -/
  script : List Event
  /-- The model's own: the words the host's reads returned, oldest first (R71, notes/assumptions/5.md). -/
  reads : List Word
  /-- The model's own: how many free values host reads have drawn (R71, notes/assumptions/6.md). -/
  draws : Nat
  deriving DecidableEq, Repr

/-- The ports after reset (R57): OUT_PEND empty, IN_POS 0, counters 0; nothing sent. -/
def Ports.reset : Ports :=
  { rest := [], inPos := 0, inBits := 0, outPend := [], bitsWritten := 0, log := [] }

/-- The state after hardware reset of a machine with parameters p (R57, R350). The model's own fields are empty. -/
def State.resetWith (p : Params) : State :=
  { par := p, engine := .idle, done := false, irqEn := false, err := none, errOp := 0, dropped := false,
    tlenMismatch := false, arg0 := 0, result0 := 0, result1 := 0, result2 := 0, ctSel := 0, freq := [],
    nodes := { queue := [], used := 0 }, root := none, ct := [], ctValid := false, measured := false,
    hdrFmt := .counts, origBits := 0, acctBits := 0, savings := 0, treeLen := 0, ports := Ports.reset,
    supplies := [], script := [], reads := [], draws := 0 }

/-- The state after hardware reset of the machine with the default parameters (R7, R57, R350). -/
def State.reset : State := State.resetWith Params.default

end Sys2Proof.Machine
end

