-- ==== Sys2Proof/Machine/Flags.lean ====
section
/-!
DEFINITION. STATUS, the error codes and the interrupt line (spec/10_state.md R47, R48; spec/60_exceptions.md R320, R326).
-/

namespace Sys2Proof.Machine

/-- The 8-bit value of each error (R320). -/
def ErrCode.code (e : ErrCode) : BitVec 8 :=
  match e with
  | .emptyQueue => 0x01#8
  | .unsupportedHeaderFormat => 0x02#8
  | .notRecognizedFormat => 0x03#8
  | .truncatedStream => 0x04#8
  | .preconditionViolation => 0x05#8
  | .malformedTree => 0x10#8
  | .capacity => 0x11#8
  | .countOverflow => 0x12#8
  | .noCode => 0x13#8
  | .illegalCommand => 0x14#8
  | .badArgument => 0x15#8

/-- STATUS.ERRCODE: 0 when no error is pending (R48, R320). -/
def errCodeField (e : Option ErrCode) : BitVec 8 :=
  match e with
  | none => 0x00#8
  | some c => c.code

/-- STATUS.BUSY (R30, R48). -/
def busy (s : State) : Bool :=
  match s.engine with
  | .idle => false
  | .busy _ => true

/-- The interrupt output: `IRQ = STATUS.DONE AND CTRL.IRQ_EN` (R326). -/
def irq (s : State) : Bool := s.done && s.irqEn

/-- Which line of the platform's interrupt controller the block drives: line `IRQ_LINE`, at the level of IRQ (R326). -/
def irqLineLevel (s : State) (line : Nat) : Bool := decide (line = s.par.irqLine) && irq s

/-- STATUS.HDR_FMT: 0 is COUNTS, 1 is TREE (R40). -/
def fmtFlag (f : HdrFmt) : Bool :=
  match f with
  | .counts => false
  | .tree => true

/-- The STATUS word, from bit 31 down to bit 0 (R48). -/
def statusWord (s : State) : Word :=
  s.errOp ++ errCodeField s.err ++ 0#6 ++ BitVec.ofBool (irq s) ++ BitVec.ofBool s.tlenMismatch
    ++ BitVec.ofBool s.dropped ++ BitVec.ofBool s.ctValid ++ BitVec.ofBool s.root.isSome
    ++ BitVec.ofBool (fmtFlag s.hdrFmt) ++ BitVec.ofBool s.measured ++ BitVec.ofBool s.err.isSome
    ++ BitVec.ofBool s.done ++ BitVec.ofBool (busy s)

/-- The CTRL word: bit 0 is IRQ_EN, bits 31:1 read 0 (R47). -/
def ctrlWord (s : State) : Word := (BitVec.ofBool s.irqEn).zeroExtend 32

end Sys2Proof.Machine
end

