-- ==== Sys2Proof/Machine/Tables.lean ====
section
/-!
DEFINITION. Tables indexed by symbol in canonical form: FREQ (spec/10_state.md R35) and the code table CT (R39).
-/

namespace Sys2Proof.Machine

/-- The entry of index k, if it is listed. -/
def tableGet {α : Type} (k : Nat) : Table α → Option α
  | [] => none
  | (j, v) :: t => if j = k then some v else tableGet k t

/-- The table with entry k set to v, indices kept rising. -/
def tablePut {α : Type} (k : Nat) (v : α) : Table α → Table α
  | [] => [(k, v)]
  | (j, u) :: t =>
    if k < j then (k, v) :: (j, u) :: t
    else if k = j then (k, v) :: t
    else (j, u) :: tablePut k v t

/-- The table without entry k. -/
def tableErase {α : Type} (k : Nat) (t : Table α) : Table α := t.filter (fun e => decide (e.1 ≠ k))

/-- The indices are strictly rising. -/
def tableRising {α : Type} (t : Table α) : Bool := decide ((t.map Prod.fst).Pairwise (· < ·))

/-- FREQ[s]; an unlisted entry reads 0 (R35, R57). -/
def freqGet (m : Memory) (s : Nat) : Word := (tableGet s m).getD 0

/-- FREQ[s] <- v, in canonical form: writing 0, what an unlisted entry reads as, removes the entry (R35). -/
def freqSet (m : Memory) (s : Nat) (v : Word) : Memory := if v = 0 then tableErase s m else tablePut s v m

/-- The canonical form of FREQ on a machine with alphabet size n: symbols below n, strictly rising, no entry 0. -/
def Memory.wf (n : Nat) (m : Memory) : Bool :=
  tableRising m && m.all (fun e => decide (e.1 < n) && decide (e.2 ≠ 0))

/-- CT[s].BITS, if CT[s].VALID (R39). -/
def codeGet (ct : CodeTable) (s : Nat) : Option (List Bool) := tableGet s ct

/-- CT[s].BITS; the empty string where CT[s].VALID = 0 (R39). -/
def codeBits (ct : CodeTable) (s : Nat) : List Bool := (codeGet ct s).getD []

/-- CT[s].LEN (R39). -/
def codeLen (ct : CodeTable) (s : Nat) : Nat := (codeBits ct s).length

/-- CT[s] <- (1, |c|, c) (R190). -/
def codeSet (ct : CodeTable) (s : Nat) (c : List Bool) : CodeTable := tablePut s c ct

/-- The canonical form of CT. -/
def codeTableWf (ct : CodeTable) : Bool := tableRising ct

end Sys2Proof.Machine
end

