-- ==== Sys2Proof/Machine/Nodes.lean ====
section
/-!
DEFINITION. Tree nodes, the queue primitives (spec/40_queue.md R130 to R134) and the tree builder's primitives
(spec/41_tree_builder.md R160, R162, R164).
-/

namespace Sys2Proof.Machine

/-- `weight(n)` (R10). -/
def HuffTree.wt (n : HuffTree) : Weight :=
  match n with
  | .leaf _ w => w
  | .node w _ _ => w

/-- `isLeaf(n)` (R10). -/
def HuffTree.isLeaf (n : HuffTree) : Bool :=
  match n with
  | .leaf _ _ => true
  | .node _ _ _ => false

/-- The leaf's symbol is EOS (R215, R273); false for an internal node. -/
def HuffTree.isEosLeaf (par : Params) (n : HuffTree) : Bool :=
  match n with
  | .leaf s _ => decide (s.toNat = par.eos)
  | .node _ _ _ => false

/-- The leaves of a tree, left first (R190). -/
def HuffTree.leaves (t : HuffTree) : List (Symbol × Weight) :=
  match t with
  | .leaf s w => [(s, w)]
  | .node _ l r => l.leaves ++ r.leaves

/-- How many leaves a tree has (R191, R211). -/
def HuffTree.leafCount (t : HuffTree) : Nat :=
  match t with
  | .leaf _ _ => 1
  | .node _ l r => l.leafCount + r.leafCount

/-- How many nodes a tree has, leaves and internal ones (R36). -/
def HuffTree.size (t : HuffTree) : Nat :=
  match t with
  | .leaf _ _ => 1
  | .node _ l r => 1 + l.size + r.size

/-- The longest path from the root to a leaf (R191 RESULT1, R195). -/
def HuffTree.depth (t : HuffTree) : Nat :=
  match t with
  | .leaf _ _ => 0
  | .node _ l r => 1 + max l.depth r.depth

/-- The node descriptor `desc(n)` (R134). -/
def desc (n : HuffTree) : Word :=
  match n with
  | .leaf s _ => 0x80000000#32 ||| s.zeroExtend 32
  | .node _ _ _ => 0#32

/-- The position of `Enqueue(n)` (R131): from QSIZE down while the node before it has a greater weight. -/
def enqueuePos (n : HuffTree) (q : List HuffTree) : Nat :=
  q.length - (q.reverse.takeWhile (fun x => decide (n.wt < x.wt))).length

/-- `Enqueue(n)` (R131): the queue split at that position with n between. -/
def enqueue (n : HuffTree) (q : List HuffTree) : List HuffTree := q.take (enqueuePos n q) ++ n :: q.drop (enqueuePos n q)

/-- An empty queue and a node store freed (R36, R135). -/
def NodeStore.empty : NodeStore := { queue := [], used := 0 }

/-- `Enqueue(AllocNode(x))` (R131, R133). -/
def allocEnqueue (st : NodeStore) (x : HuffTree) : NodeStore :=
  { queue := enqueue x st.queue, used := st.used + 1 }

/-- `Dequeue()` (R132): the head and the store without it; none on an empty queue. -/
def dequeue (st : NodeStore) : Option (HuffTree × NodeStore) :=
  match st.queue with
  | [] => none
  | n :: q => some (n, { st with queue := q })

/-- `Merge()` (R160): the first node dequeued is the left child; none with fewer than two nodes queued. -/
def merge (st : NodeStore) : Option (HuffTree × NodeStore) :=
  match st.queue with
  | a :: b :: q =>
    some (.node (a.wt + b.wt) a b, allocEnqueue { st with queue := q } (.node (a.wt + b.wt) a b))
  | _ => none

/-- The loop of `BuildTree()` (R164), which ends where fewer than two nodes are queued; k bounds its turns. -/
def mergeLoop : Nat → NodeStore → NodeStore
  | 0, st => st
  | k + 1, st =>
    match merge st with
    | some (_, st') => mergeLoop k st'
    | none => st

/-- `BuildTree()` (R164): QSIZE - 1 merges, then the root is dequeued; none on an empty queue. -/
def buildTree (st : NodeStore) : Option (HuffTree × NodeStore) := dequeue (mergeLoop (st.queue.length - 1) st)

/-- The leaf of symbol s that FREQ gives, if its count is not 0 (R162). -/
def freqLeaf (m : Memory) (s : Nat) : Option HuffTree :=
  if freqGet m s = 0 then none else some (.leaf (BitVec.ofNat 16 s) ((freqGet m s).zeroExtend 64))

/-- The leaf set of `LoadFreq()` in its order: ascending symbols, then the EOS leaf of weight 1 (R162). -/
def freqLeaves (par : Params) (m : Memory) : List HuffTree :=
  (List.range par.alphSize).filterMap (freqLeaf m) ++ [.leaf (BitVec.ofNat 16 par.eos) 1]

/-- `LoadFreq()` (R162). -/
def loadFreq (par : Params) (m : Memory) : NodeStore := (freqLeaves par m).foldl allocEnqueue NodeStore.empty

end Sys2Proof.Machine
end

