-- ==== Sys2Proof/Machine/Operands.lean ====
section
/-!
DEFINITION. Where a command takes its operands from (spec/30_encoding.md R101).
-/

namespace Sys2Proof.Machine

/-- The symbol of Q_ENQ_LEAF, `zext_16(IMM16)`, as a number to compare with EOS (R101, R136). -/
def symbolOperand (sym : Symbol) : Nat := sym.toNat

/-- The weight of Q_ENQ_LEAF, `zext_64(ARG0)` (R101, R136). -/
def weightOperand (s : State) : Weight := s.arg0.zeroExtend 64

/-- The header-format tag of a format (R210). -/
def fmtTag (par : Params) (f : HdrFmt) : Word :=
  match f with
  | .counts => par.tagCounts
  | .tree => par.tagTree

end Sys2Proof.Machine
end

