-- ==== Sys2Proof/Machine/Ports.lean ====
section
/-!
DEFINITION. The stream ports: bit packing, bit unpacking, input units, opening and closing (spec/20_memory.md R72 to
R78).
-/

namespace Sys2Proof.Machine

/-- Opening a fresh IN supply at its first bit: IN_POS <- 0 (R72, R73). -/
def openSupply (bs : List Byte) (p : Ports) : Ports := { p with rest := supplyBits bs, inPos := 0 }

/-- `ReadBits(n)` (R76): the n-bit value, or none for EOS_MARK, where the short read consumes what is left. -/
def readBits (n : Nat) (p : Ports) : Option Nat × Ports :=
  if (p.rest.take n).length = n then
    (some (bitsToNat (p.rest.take n)),
      { p with rest := p.rest.drop n, inPos := p.inPos + n, inBits := p.inBits + BitVec.ofNat 64 n })
  else
    (none,
      { p with rest := [], inPos := p.inPos + p.rest.length, inBits := p.inBits + BitVec.ofNat 64 p.rest.length })

/-- `ReadUnit()` (R77): a symbol of W bits, or EOS_MARK. -/
def readUnit (par : Params) (p : Ports) : Option Nat × Ports := readBits par.w p

/-- One bit of the loop of `WriteCode` (R75). -/
def writeBit (p : Ports) (b : Bool) : Ports :=
  if (p.outPend ++ [b]).length = 8 then
    { p with outPend := [], bitsWritten := p.bitsWritten + 1, log := p.log ++ [.byte (packByte (p.outPend ++ [b]))] }
  else
    { p with outPend := p.outPend ++ [b], bitsWritten := p.bitsWritten + 1 }

/-- `WriteCode(c)` (R75). -/
def writeCode (c : List Bool) (p : Ports) : Ports := c.foldl writeBit p

/-- `WriteBits(n, v)` (R75). -/
def writeBits (n v : Nat) (p : Ports) : Ports := writeCode (bitsMsb n v) p

/-- `Flush()` (R75): the partial byte, padded with zeros; BITS_WRITTEN unchanged. -/
def flush (p : Ports) : Ports :=
  if p.outPend = [] then p
  else { p with outPend := [], log := p.log ++ [.byte (packByte (padTake 8 p.outPend))] }

/-- `CloseIn()` (R78): the supply is released. -/
def closeIn (p : Ports) : Ports := { p with rest := [], inPos := 0, log := p.log ++ [.closeIn] }

/-- `CloseOut()` (R78). -/
def closeOut (p : Ports) : Ports := { p with log := p.log ++ [.closeOut] }

/-- The close sequence of each command on every exit path (R78, R321). -/
def closeSequence (i : Instr) (p : Ports) : Ports :=
  match i with
  | .measure _ => closeIn p
  | .compress _ | .decompress => closeIn (closeOut (flush p))
  | .nop | .sessionReset | .clearError | .qClear | .qEnqLeaf _ | .qPeek | .qDequeue | .qMerge | .qLoadFreq | .treeBuild
  | .ctDerive => p

end Sys2Proof.Machine
end

