-- ==== Sys2Proof/Machine/Ops.lean ====
section
/-!
DEFINITION. The operations the commands share: clearing session state, results, completing, raising an error and
acknowledging it, presenting a command word (spec/60_exceptions.md R321 to R323; spec/10_state.md R51).
-/

namespace Sys2Proof.Machine

/-- How an internal operation over a state piece σ ends: with a value, or at a raise point with what it has changed so
far (R321: nothing is rolled back). -/
inductive Run (σ α : Type) where
  | ok (a : α) (st : σ)
  | raise (e : ErrCode) (st : σ)
  deriving DecidableEq, Repr

/-- The state piece a run ends with, either way. -/
def Run.last {σ α : Type} (r : Run σ α) : σ :=
  match r with
  | .ok _ st => st
  | .raise _ st => st

/-- `Q <- []; QSIZE <- 0; free every node; NODES_USED <- 0` (R135). -/
def freeNodes (s : State) : State := { s with nodes := NodeStore.empty }

/-- `for s in 0 .. EOS: CT[s] <- (0, 0, []); CT_VALID <- 0` (R135, R163, R165, R270, R301). -/
def clearCodeTable (s : State) : State := { s with ct := [], ctValid := false }

/-- `ROOT_VALID <- 0` and the code table cleared, `MEASURED <- 0` (R135, R163, R270, R301). -/
def invalidateSession (s : State) : State := clearCodeTable { s with root := none, measured := false }

/-- RESULT0 and RESULT1 hold a 64-bit value, RESULT2 a third word (R51). -/
def setResults (x : BitVec 64) (r2 : Word) (s : State) : State :=
  { s with result0 := lowWord x, result1 := highWord x, result2 := r2 }

/-- The weight and the descriptor of a node (R137, R138, R161, R165). -/
def setNodeResults (n : HuffTree) (s : State) : State := setResults n.wt (desc n) s

/-- Completion without error: `DONE <- 1; BUSY <- 0` (R323). -/
def complete (s : State) : State := { s with engine := .idle, done := true }

/-- TAKING AN ERROR: `raise E` of command i (R321): the close sequence, ERRCODE, ERR_OP, DONE <- 1, BUSY <- 0. Every
effect made before is kept; RESULT0 to RESULT2 are not written. -/
def raiseError (e : ErrCode) (i : Instr) (s : State) : State :=
  { s with ports := closeSequence i s.ports, err := some e, errOp := i.opcode, engine := .idle, done := true }

/-- RETURN FROM AN ERROR: its acknowledgement, `ERRCODE <- 0; ERR_OP <- 0; DROPPED <- 0` (R302, R327). -/
def ackError (s : State) : State := { s with err := none, errOp := 0, dropped := false }

/-- The IN supply of the next stream command, taken off the collaborator's list and opened (R72); with none presented
nothing is open. -/
def takeSupply (s : State) : State :=
  { s with ports := openSupply (s.supplies.headD []) s.ports, supplies := s.supplies.tail }

/-- The three words that are accepted while an error is pending: NOP, SESSION_RESET, CLEAR_ERROR (R322). -/
def controlWord (v : Word) : Bool := v == 0x00000000#32 || v == 0x01000000#32 || v == 0x02000000#32

/-- Acceptance: `DONE <- 0; BUSY <- 1`, the command pending until the engine's step (R323, R359). -/
def accept (i : Instr) (s : State) : State := { s with engine := .busy i, done := false }

/-- `DONE <- 0; raise ILLEGAL_COMMAND` for an ill-formed word: no command runs and no port closes (R323). -/
def raiseIllegal (v : Word) (s : State) : State :=
  { s with err := some .illegalCommand, errOp := cmdOp v, engine := .idle, done := true }

/-- `DROPPED <- 1` (R71, R322). -/
def drop (s : State) : State := { s with dropped := true }

/-- `PresentCommand(v)` (R323), for a CMD write while BUSY = 0. -/
def presentCommand (v : Word) (s : State) : State :=
  if s.err.isSome && !controlWord v then drop s
  else
    match decode v with
    | .error _ => raiseIllegal v s
    | .ok i => accept i s

end Sys2Proof.Machine
end

