-- ==== Sys2Proof/Machine/CodeTable.lean ====
section
/-!
DEFINITION. The code table deriver (spec/42_code_table.md R190, R191).
-/

namespace Sys2Proof.Machine

/-- `Walk(n, p)` (R190): left before right, 0 appended going left and 1 going right; p is the path from the root. -/
def walkCodes (t : HuffTree) (p : List Bool) (ct : CodeTable) : CodeTable :=
  match t with
  | .leaf s _ => codeSet ct s.toNat p
  | .node _ l r => walkCodes r (p ++ [true]) (walkCodes l (p ++ [false]) ct)

/-- `Derive(t)` (R190): every entry cleared, then the walk. -/
def deriveCodes (t : HuffTree) : CodeTable := walkCodes t [] []

/-- CT_DERIVE (R191). -/
def execCtDerive (s : State) : Host.Outcome State Fault Refusal :=
  match s.root with
  | none => .next (raiseError .preconditionViolation .ctDerive s)
  | some t =>
    .next (complete
      { s with
        ct := deriveCodes t, ctValid := true,
        result0 := BitVec.ofNat 32 t.leafCount, result1 := BitVec.ofNat 32 t.depth, result2 := 0 })

end Sys2Proof.Machine
end

