-- ==== Sys2Proof/Machine/Control.lean ====
section
/-!
DEFINITION. The control commands NOP, SESSION_RESET and CLEAR_ERROR (spec/46_control.md R300 to R302).
-/

namespace Sys2Proof.Machine

/-- NOP (R300): no effect beyond completion. -/
def execNop (s : State) : Host.Outcome State Fault Refusal := .next (complete s)

/-- The effect of SESSION_RESET (R301): every piece of state of R57 takes its reset value except CTRL; the parameters
and the agents' own fields are no state of the session. BUSY and DONE are completion's. -/
def sessionReset (s : State) : State :=
  { State.resetWith s.par with
    engine := s.engine, done := s.done, irqEn := s.irqEn,
    ports := { Ports.reset with log := s.ports.log },
    supplies := s.supplies, script := s.script, reads := s.reads, draws := s.draws }

/-- SESSION_RESET (R301). -/
def execSessionReset (s : State) : Host.Outcome State Fault Refusal := .next (complete (sessionReset s))

/-- CLEAR_ERROR (R302). -/
def execClearError (s : State) : Host.Outcome State Fault Refusal := .next (complete (ackError s))

end Sys2Proof.Machine
end

