-- ==== Sys2Proof/Machine/HeaderCodec.lean ====
section
/-!
DEFINITION. The header codec, both formats, writing, parsing and sizing (spec/43_header_codec.md R210 to R216).
-/

namespace Sys2Proof.Machine

/-- `DecodeTag(t)` (R210): none where it raises UNSUPPORTED_HEADER_FORMAT, also for EOS_MARK. -/
def decodeTag (par : Params) (t : Option Nat) : Option HdrFmt :=
  if t = some par.tagCounts.toNat then some .counts
  else if t = some par.tagTree.toNat then some .tree
  else none

/-- `tree_bits(t)` (R211). -/
def treeBits (par : Params) (t : HuffTree) : Nat :=
  match t with
  | .leaf _ _ => 1 + par.vw
  | .node _ l r => 1 + treeBits par l + treeBits par r

/-- `hdr_bits(f, FREQ, t)`, the tag counted (R216). -/
def hdrBits (par : Params) (f : HdrFmt) (t : HuffTree) : Nat :=
  match f with
  | .counts => 32 + 32 * par.alphSize
  | .tree => 32 + 32 + treeBits par t

/-- `WriteCounts()` (R212). -/
def writeCounts (par : Params) (m : Memory) (p : Ports) : Ports :=
  (List.range par.alphSize).foldl (fun q s => writeBits 32 (freqGet m s).toNat q) p

/-- `WriteNode(n)`, preorder (R214). -/
def writeNode (par : Params) (t : HuffTree) (p : Ports) : Ports :=
  match t with
  | .leaf s _ => writeBits par.vw s.toNat (writeBits 1 1 p)
  | .node _ l r => writeNode par r (writeNode par l (writeBits 1 0 p))

/-- `WriteTree(t)` (R214). -/
def writeTree (par : Params) (t : HuffTree) (p : Ports) : Ports := writeNode par t (writeBits 32 (treeBits par t) p)

/-- The reading loop of `ParseCounts()` over the symbols still to read (R213): FREQ keeps the counts read so far. -/
def parseCounts (syms : List Nat) (m : Memory) (p : Ports) : Run (Memory × Ports) Unit :=
  match syms with
  | [] => .ok () (m, p)
  | s :: more =>
    match readBits 32 p with
    | (none, q) => .raise .truncatedStream (m, q)
    | (some c, q) => parseCounts more (freqSet m s (BitVec.ofNat 32 c)) q

/-- `ParseNode()` (R215), with NODES_USED and the ports. The first argument bounds the recursion depth: every level
allocates a node, so NODE_CAP + 1 is enough, and running out of it is the same MALFORMED_TREE as a full store. -/
def parseNode (par : Params) : Nat → Nat → Ports → Run (Nat × Ports) HuffTree
  | 0, used, p => .raise .malformedTree (used, p)
  | k + 1, used, p =>
    match readBits 1 p with
    | (none, q) => .raise .truncatedStream (used, q)
    | (some b, q) =>
      if b = 0 then
        if used = par.nodeCap then .raise .malformedTree (used, q)
        else
          match parseNode par k (used + 1) q with
          | .raise e st => .raise e st
          | .ok l (used', q') =>
            match parseNode par k used' q' with
            | .raise e st => .raise e st
            | .ok r st => .ok (.node 0 l r) st
      else
        match readBits par.vw q with
        | (none, q') => .raise .truncatedStream (used, q')
        | (some v, q') =>
          if v > par.eos then .raise .malformedTree (used, q')
          else if used = par.nodeCap then .raise .malformedTree (used, q')
          else .ok (.leaf (BitVec.ofNat 16 v) 0) (used + 1, q')

/-- `ParseCounts()` (R213): FREQ is cleared and read, then the tree is built from it. -/
def parseCountsHeader (s : State) : Run State HuffTree :=
  match parseCounts (List.range s.par.alphSize) [] s.ports with
  | .raise e (m, q) => .raise e { s with freq := m, ports := q }
  | .ok _ (m, q) =>
    match buildTree (loadFreq s.par m) with
    | none => .raise .emptyQueue { s with freq := m, ports := q }
    | some (r, st) => .ok r { s with freq := m, ports := q, nodes := st }

/-- TLEN_MISMATCH of R215: the length field against the bits parsed, from IN_BITS before and after the tree. -/
def lengthMismatch (field : Nat) (before after : Counter) : Bool := decide (after - before ≠ BitVec.ofNat 64 field)

/-- `ParseTree()` (R215). A tree parse that raises leaves TREE_LEN written and TLEN_MISMATCH as it was. -/
def parseTreeHeader (s : State) : Run State HuffTree :=
  match readBits 32 s.ports with
  | (none, q) => .raise .truncatedStream { s with ports := q }
  | (some field, q) =>
    match parseNode s.par (s.par.nodeCap + 1) s.nodes.used q with
    | .raise e (used, q') =>
      .raise e { s with treeLen := BitVec.ofNat 32 field, ports := q', nodes := { s.nodes with used := used } }
    | .ok r (used, q') =>
      let s' := { s with
        treeLen := BitVec.ofNat 32 field, ports := q', nodes := { s.nodes with used := used },
        tlenMismatch := s.tlenMismatch || lengthMismatch field q.inBits q'.inBits }
      if r.isLeaf && !r.isEosLeaf s.par then .raise .malformedTree s' else .ok r s'

/-- The parser of the selected format (R270, R272). -/
def parseHeader (f : HdrFmt) (s : State) : Run State HuffTree :=
  match f with
  | .counts => parseCountsHeader s
  | .tree => parseTreeHeader s

end Sys2Proof.Machine
end

