-- ==== Sys2Proof/Machine/Decoder.lean ====
section
/-!
DEFINITION. The decoder: DECOMPRESS (spec/45_decoder.md R270 to R275).
-/

namespace Sys2Proof.Machine

/-- The walk of one symbol (R273): test for a leaf before each read; the leaf's symbol. -/
def walkToLeaf (t : HuffTree) (p : Ports) : Run Ports Symbol :=
  match t with
  | .leaf s _ => .ok s p
  | .node _ l r =>
    match readBits 1 p with
    | (none, q) => .raise .truncatedStream q
    | (some b, q) => if b = 0 then walkToLeaf l q else walkToLeaf r q

/-- `DecodeSymbols(root)` (R273, R274). The first argument bounds its turns: below an internal root each turn reads a bit,
and a leaf root is EOS (R215), so the number of unread bits plus one is enough. -/
def decodeSymbols (par : Params) (root : HuffTree) : Nat → Ports → Run Ports Unit
  | 0, p => .raise .truncatedStream p
  | k + 1, p =>
    match walkToLeaf root p with
    | .raise e q => .raise e q
    | .ok s q => if s.toNat = par.eos then .ok () q else decodeSymbols par root k (writeBits par.w s.toNat q)

/-- The fresh session of DECOMPRESS, its supply open (R270, R72). -/
def decompressStart (s : State) : State :=
  { invalidateSession (freeNodes (takeSupply s)) with
    treeLen := 0, tlenMismatch := false,
    ports := { (takeSupply s).ports with inBits := 0, bitsWritten := 0 } }

/-- DECOMPRESS from the parsed header on, up to its close (R270): ROOT is set, the symbols are decoded. -/
def decompressBody (r : HuffTree) (s : State) : Run State Unit :=
  match decodeSymbols s.par r (s.ports.rest.length + 1) s.ports with
  | .raise e q => .raise e { s with root := some r, ports := q }
  | .ok _ q => .ok () { s with root := some r, ports := q }

/-- DECOMPRESS with its supply presented, up to its close (R270): magic (R271), tag (R272), header, symbols. -/
def decompressWork (s : State) : Run State Unit :=
  let s0 := decompressStart s
  match readBits 32 s0.ports with
  | (m, q1) =>
    if m ≠ some s.par.magic.toNat then .raise .notRecognizedFormat { s0 with ports := q1 }
    else
      match readBits 32 q1 with
      | (t, q2) =>
        match decodeTag s.par t with
        | none => .raise .unsupportedHeaderFormat { s0 with ports := q2 }
        | some f =>
          match parseHeader f { s0 with ports := q2 } with
          | .raise e s1 => .raise e s1
          | .ok r s1 => decompressBody r s1

/-- How DECOMPRESS ends: the raise of R321, or the close sequence and the results (R270). -/
def decompressEnd (x : Run State Unit) : State :=
  match x with
  | .raise e t => raiseError e .decompress t
  | .ok _ t => complete (setResults t.ports.bitsWritten 0 { t with ports := closeSequence .decompress t.ports })

/-- DECOMPRESS with its supply presented (R270). -/
def decompressRun (s : State) : State := decompressEnd (decompressWork s)

/-- The ports of a DECOMPRESS once it has written all it writes, before the close sequence: the whole bytes are sent, the
partial byte is pending. While no supply is presented it has written nothing (R271: the magic number is read first). -/
def decompressOut (s : State) : Ports :=
  match s.supplies with
  | [] => s.ports
  | _ :: _ => (decompressWork s).last.ports

/-- DECOMPRESS (R270). While no supply is presented the engine waits (R72). -/
def execDecompress (s : State) : Host.Outcome State Fault Refusal :=
  match s.supplies with
  | [] => .next s
  | _ :: _ => .next (decompressRun s)

end Sys2Proof.Machine
end

