-- ==== Sys2Proof/Machine/Encoder.lean ====
section
/-!
DEFINITION. The encoder: MEASURE and COMPRESS (spec/44_encoder.md R240 to R246).
-/

namespace Sys2Proof.Machine

/-- The loop of `CountInput()` (R241) with n symbols counted so far. The first argument bounds its turns: a unit has at
least one bit, so the number of unread bits plus one is enough. -/
def countInput (par : Params) : Nat → Nat → Memory → Ports → Run (Memory × Ports) Nat
  | 0, n, m, p => .ok n (m, p)
  | k + 1, n, m, p =>
    match readUnit par p with
    | (none, q) => .ok n (m, q)
    | (some u, q) =>
      if freqGet m u = 0xFFFFFFFF#32 then .raise .countOverflow (m, q)
      else countInput par k (n + 1) (freqSet m u (freqGet m u + 1)) q

/-- `acct(f)` (R242). -/
def accountedBits (par : Params) (f : HdrFmt) (m : Memory) (t : HuffTree) (ct : CodeTable) : Nat :=
  32 + hdrBits par f t + ((List.range par.alphSize).map (fun s => (freqGet m s).toNat * codeLen ct s)).sum
    + codeLen ct par.eos

/-- `SAVINGS`: the exact difference in two's complement (R243). -/
def savingsOf (orig acct : Nat) : Counter := BitVec.ofInt 64 ((orig : Int) - (acct : Int))

/-- The state in which MEASURE starts: its supply open, `MEASURED <- 0; IN_BITS <- 0` (R244, R72). -/
def measureStart (s : State) : State :=
  { takeSupply s with measured := false, ports := { (takeSupply s).ports with inBits := 0 } }

/-- MEASURE after CountInput (R244): n symbols counted, root r built, store st; up to MEASURED <- 1 and the results. -/
def measureFinish (f : HdrFmt) (n : Nat) (r : HuffTree) (st : NodeStore) (s : State) : State :=
  let acct := accountedBits s.par f s.freq r (deriveCodes r)
  setResults (savingsOf (n * s.par.w) acct) 0
    { s with
      nodes := st, root := some r, ct := deriveCodes r, ctValid := true, hdrFmt := f,
      origBits := BitVec.ofNat 64 (n * s.par.w), treeLen := BitVec.ofNat 32 (treeBits s.par r),
      acctBits := BitVec.ofNat 64 acct, savings := savingsOf (n * s.par.w) acct, measured := true,
      ports := closeIn s.ports }

/-- MEASURE with its supply presented (R244). -/
def measureRun (f : HdrFmt) (s : State) : State :=
  let s0 := measureStart s
  match countInput s.par (s0.ports.rest.length + 1) 0 [] s0.ports with
  | .raise e (m, q) => raiseError e (.measure f) { s0 with freq := m, ports := q }
  | .ok n (m, q) =>
    match buildTree (loadFreq s.par m) with
    | none => raiseError .emptyQueue (.measure f) { s0 with freq := m, ports := q }
    | some (r, st) => complete (measureFinish f n r st { s0 with freq := m, ports := q })

/-- MEASURE (R244). While the collaborator has presented no supply the engine waits (R72): the state does not change. -/
def execMeasure (f : HdrFmt) (s : State) : Host.Outcome State Fault Refusal :=
  match s.supplies with
  | [] => .next s
  | _ :: _ => .next (measureRun f s)

/-- The symbol loop of `EmitStream()` (R246), its turns bounded as in `countInput`. -/
def emitSymbols (par : Params) (ct : CodeTable) : Nat → Ports → Run Ports Unit
  | 0, p => .ok () p
  | k + 1, p =>
    match readUnit par p with
    | (none, q) => .ok () q
    | (some u, q) =>
      match codeGet ct u with
      | none => .raise .noCode q
      | some c => emitSymbols par ct k (writeCode c q)

/-- The header payload of the latched format (R246). A TREE payload needs ROOT, which MEASURED = 1 guarantees (R56 d);
with no ROOT there is no tree to write. -/
def writePayload (s : State) (p : Ports) : Ports :=
  match s.hdrFmt, s.root with
  | .counts, _ => writeCounts s.par s.freq p
  | .tree, some t => writeTree s.par t p
  | .tree, none => p

/-- The magic number, the tag and the payload (R246). -/
def writeHeader (s : State) (p : Ports) : Ports :=
  writePayload s (writeBits 32 (fmtTag s.par s.hdrFmt).toNat (writeBits 32 s.par.magic.toNat p))

/-- `EmitStream()` (R246). -/
def emitStream (s : State) (p : Ports) : Run Ports Unit :=
  match emitSymbols s.par s.ct (p.rest.length + 1) (writeHeader s p) with
  | .raise e q => .raise e q
  | .ok _ q => .ok () (writeCode (codeBits s.ct s.par.eos) q)

/-- The state in which COMPRESS starts: its supply open, `IN_BITS <- 0; BITS_WRITTEN <- 0` before any check (R245, R72). DEDUCED
against a sentence of R325 (notes/assumptions/16.md). -/
def compressStart (s : State) : State :=
  { takeSupply s with ports := { (takeSupply s).ports with inBits := 0, bitsWritten := 0 } }

/-- The write decision of R245: SAVINGS > 0 as a signed value, or force. -/
def writesStream (force : Bool) (s : State) : Bool := decide (0 < s.savings.toInt) || force

/-- COMPRESS that writes the stream (R245). -/
def compressRun (force : Bool) (s : State) : State :=
  let s0 := compressStart s
  match emitStream s0 s0.ports with
  | .raise e q => raiseError e (.compress force) { s0 with ports := q }
  | .ok _ q =>
    complete (setResults q.bitsWritten 0 { s0 with ports := closeSequence (.compress force) q })

/-- The ports of a COMPRESS once it has written all it writes, before the close sequence: the whole bytes are sent, the
partial byte is pending. One that is not to write its stream writes nothing (R245); while no supply is presented it can
have written its header only (R246). -/
def compressOut (force : Bool) (s : State) : Ports :=
  if s.measured && writesStream force s then
    match s.supplies with
    | [] => writeHeader (compressStart s) (compressStart s).ports
    | _ :: _ => (emitStream (compressStart s) (compressStart s).ports).last
  else s.ports

/-- COMPRESS (R245). Its two paths that read no input need no supply; one that was presented is released. Where the
stream is to be written and no supply is presented the engine waits (R72). -/
def execCompress (force : Bool) (s : State) : Host.Outcome State Fault Refusal :=
  if s.measured = false then
    .next (raiseError .preconditionViolation (.compress force) (compressStart s))
  else if writesStream force s = false then
    .next (complete (setResults 0 0
      { compressStart s with ports := closeSequence (.compress force) (compressStart s).ports }))
  else
    match s.supplies with
    | [] => .next s
    | _ :: _ => .next (compressRun force s)

end Sys2Proof.Machine
end

