-- ==== Sys2Proof/Machine/Queue.lean ====
section
/-!
DEFINITION. The queue commands (spec/40_queue.md R135 to R138).
-/

namespace Sys2Proof.Machine

/-- Q_CLEAR (R135). -/
def execQClear (s : State) : Host.Outcome State Fault Refusal := .next (complete (invalidateSession (freeNodes s)))

/-- Q_ENQ_LEAF (R136): the four checks in order, then the leaf is allocated and enqueued. -/
def execQEnqLeaf (sym : Symbol) (s : State) : Host.Outcome State Fault Refusal :=
  if symbolOperand sym > s.par.eos then .next (raiseError .badArgument (.qEnqLeaf sym) s)
  else if weightOperand s = 0 then .next (raiseError .badArgument (.qEnqLeaf sym) s)
  else if s.nodes.queue.length = s.par.qcap then .next (raiseError .capacity (.qEnqLeaf sym) s)
  else if s.nodes.used = s.par.nodeCap then .next (raiseError .capacity (.qEnqLeaf sym) s)
  else
    .next (complete
      { s with
        nodes := allocEnqueue s.nodes (.leaf sym (weightOperand s)),
        result0 := BitVec.ofNat 32 (allocEnqueue s.nodes (.leaf sym (weightOperand s))).queue.length })

/-- Q_PEEK (R137). -/
def execQPeek (s : State) : Host.Outcome State Fault Refusal :=
  match s.nodes.queue with
  | [] => .next (raiseError .emptyQueue .qPeek s)
  | n :: _ => .next (complete (setNodeResults n s))

/-- Q_DEQUEUE (R138): NODES_USED is unchanged, the node stays allocated. -/
def execQDequeue (s : State) : Host.Outcome State Fault Refusal :=
  match dequeue s.nodes with
  | none => .next (raiseError .emptyQueue .qDequeue s)
  | some (n, st) => .next (complete (setNodeResults n { s with nodes := st }))

end Sys2Proof.Machine
end

