-- ==== Sys2Proof/Machine/TreeBuilder.lean ====
section
/-!
DEFINITION. The tree builder's commands (spec/41_tree_builder.md R161, R163, R165).
-/

namespace Sys2Proof.Machine

/-- Q_MERGE (R161): fewer than two nodes is EMPTY_QUEUE before any change, then the store's capacity. -/
def execQMerge (s : State) : Host.Outcome State Fault Refusal :=
  match merge s.nodes with
  | none => .next (raiseError .emptyQueue .qMerge s)
  | some (n, st) =>
    if s.nodes.used = s.par.nodeCap then .next (raiseError .capacity .qMerge s)
    else .next (complete (setNodeResults n { s with nodes := st }))

/-- Q_LOAD_FREQ (R163): the session is invalidated, then the queue is loaded from FREQ. -/
def execQLoadFreq (s : State) : Host.Outcome State Fault Refusal :=
  .next (complete
    { invalidateSession s with
      nodes := loadFreq s.par s.freq,
      result0 := BitVec.ofNat 32 (loadFreq s.par s.freq).queue.length })

/-- TREE_BUILD (R165): EMPTY_QUEUE, then CAPACITY, both before any change; then the root is built and taken off Q. -/
def execTreeBuild (s : State) : Host.Outcome State Fault Refusal :=
  match buildTree s.nodes with
  | none => .next (raiseError .emptyQueue .treeBuild s)
  | some (r, st) =>
    if s.nodes.used + s.nodes.queue.length - 1 > s.par.nodeCap then .next (raiseError .capacity .treeBuild s)
    else
      .next (complete (setNodeResults r
        { clearCodeTable s with nodes := st, root := some r, measured := false }))

end Sys2Proof.Machine
end

