-- ==== Sys2Proof/Machine/Dispatch.lean ====
section
/-!
DEFINITION. The engine step of each command (spec/70_reset_and_hazards.md R359 b): one arm for each row of
spec/opcode_table.json.
-/

namespace Sys2Proof.Machine

def exec (i : Instr) (s : State) : Host.Outcome State Fault Refusal :=
  match i with
  | .nop => Sys2Proof.Machine.execNop s
  | .sessionReset => Sys2Proof.Machine.execSessionReset s
  | .clearError => Sys2Proof.Machine.execClearError s
  | .qClear => Sys2Proof.Machine.execQClear s
  | .qEnqLeaf sym => Sys2Proof.Machine.execQEnqLeaf sym s
  | .qPeek => Sys2Proof.Machine.execQPeek s
  | .qDequeue => Sys2Proof.Machine.execQDequeue s
  | .qMerge => Sys2Proof.Machine.execQMerge s
  | .qLoadFreq => Sys2Proof.Machine.execQLoadFreq s
  | .treeBuild => Sys2Proof.Machine.execTreeBuild s
  | .ctDerive => Sys2Proof.Machine.execCtDerive s
  | .measure fmt => Sys2Proof.Machine.execMeasure fmt s
  | .compress force => Sys2Proof.Machine.execCompress force s
  | .decompress => Sys2Proof.Machine.execDecompress s

end Sys2Proof.Machine
end

