-- ==== Sys2Proof/Machine/HostAccess.lean ====
section
/-!
DEFINITION. The host's side: the register map (spec/10_state.md R32 to R54), the effect of a host access
(spec/20_memory.md R70, R71, R80), the WAIT loop (spec/30_encoding.md R107), the IN supplies (R72) and hardware reset
(spec/70_reset_and_hazards.md R350, R351).
-/

namespace Sys2Proof.Machine

/-- The registers of R32; `reserved` is every other word of the register space. -/
inductive Reg where
  | id
  | param
  | ctrl
  | status
  | cmd
  | arg0
  | result0
  | result1
  | result2
  | qsize
  | nodesUsed
  | treeLen
  | origBitsLo
  | origBitsHi
  | acctBitsLo
  | acctBitsHi
  | savingsLo
  | savingsHi
  | bitsWrittenLo
  | bitsWrittenHi
  | inBitsLo
  | inBitsHi
  | magic
  | tagCounts
  | tagTree
  | ctSel
  | ctInfo
  | ctBits (k : Nat)
  | freq (s : Nat)
  | reserved
  deriving DecidableEq, Repr

/-- The register of a word index, `offset div 4` (R32): FREQ[s] is there for s < ALPH_SIZE only (R35). -/
def regOfIndex (par : Params) (i : Nat) : Reg :=
  match i with
  | 0 => .id
  | 1 => .param
  | 2 => .ctrl
  | 3 => .status
  | 4 => .cmd
  | 5 => .arg0
  | 6 => .result0
  | 7 => .result1
  | 8 => .result2
  | 9 => .qsize
  | 10 => .nodesUsed
  | 11 => .treeLen
  | 12 => .origBitsLo
  | 13 => .origBitsHi
  | 14 => .acctBitsLo
  | 15 => .acctBitsHi
  | 16 => .savingsLo
  | 17 => .savingsHi
  | 18 => .bitsWrittenLo
  | 19 => .bitsWrittenHi
  | 20 => .inBitsLo
  | 21 => .inBitsHi
  | 22 => .magic
  | 23 => .tagCounts
  | 24 => .tagTree
  | 25 => .ctSel
  | 26 => .ctInfo
  | j =>
    if 32 ≤ j ∧ j < 40 then .ctBits (j - 32)
    else if 256 ≤ j ∧ j < 512 ∧ j - 256 < par.alphSize then .freq (j - 256)
    else .reserved

/-- The register at a byte offset: offset bits [1:0] are not decoded (R70). -/
def regAt (par : Params) (a : Offset) : Reg := regOfIndex par (a.toNat / 4)

/-- The code the window shows: CT[SEL].BITS where `SEL <= EOS` and CT[SEL].VALID (R54). -/
def windowCode (s : State) : Option (List Bool) :=
  if s.ctSel.toNat ≤ s.par.eos then codeGet s.ct s.ctSel.toNat else none

/-- CT_INFO: VALID in bit 31, LEN in bits 15:0 (R54). -/
def ctInfoWord (s : State) : Word :=
  match windowCode s with
  | none => 0#32
  | some c => 0x80000000#32 ||| (BitVec.ofNat 16 c.length).zeroExtend 32

/-- CT_BITS[k]: code bits 32k to 32k+31, the first in bit 31, zeros beyond LEN (R54). -/
def ctBitsWord (s : State) (k : Nat) : Word :=
  match windowCode s with
  | none => 0#32
  | some c => BitVec.ofNat 32 (bitsToNat (padTake 32 (c.drop (32 * k))))

/-- What each register reads as, the engine idle (R33, R34, R41 to R54). -/
def regValue (s : State) (r : Reg) : Word :=
  match r with
  | .id => 0x48544231#32
  | .param => BitVec.ofNat 32 s.par.w
  | .ctrl => ctrlWord s
  | .status => statusWord s
  | .cmd => 0#32
  | .arg0 => s.arg0
  | .result0 => s.result0
  | .result1 => s.result1
  | .result2 => s.result2
  | .qsize => BitVec.ofNat 32 s.nodes.queue.length
  | .nodesUsed => BitVec.ofNat 32 s.nodes.used
  | .treeLen => s.treeLen
  | .origBitsLo => lowWord s.origBits
  | .origBitsHi => highWord s.origBits
  | .acctBitsLo => lowWord s.acctBits
  | .acctBitsHi => highWord s.acctBits
  | .savingsLo => lowWord s.savings
  | .savingsHi => highWord s.savings
  | .bitsWrittenLo => lowWord s.ports.bitsWritten
  | .bitsWrittenHi => highWord s.ports.bitsWritten
  | .inBitsLo => lowWord s.ports.inBits
  | .inBitsHi => highWord s.ports.inBits
  | .magic => s.par.magic
  | .tagCounts => s.par.tagCounts
  | .tagTree => s.par.tagTree
  | .ctSel => s.ctSel.zeroExtend 32
  | .ctInfo => ctInfoWord s
  | .ctBits k => ctBitsWord s k
  | .freq x => freqGet s.freq x
  | .reserved => 0#32

/-- The registers whose read has a fixed value even while BUSY = 1: those R71 lists, and the words it returns 0 for
before it looks at BUSY. -/
def stableReg (r : Reg) : Bool :=
  match r with
  | .id | .param | .ctrl | .status | .magic | .tagCounts | .tagTree | .cmd | .reserved => true
  | .arg0 | .result0 | .result1 | .result2 | .qsize | .nodesUsed | .treeLen | .origBitsLo | .origBitsHi | .acctBitsLo
  | .acctBitsHi | .savingsLo | .savingsHi | .bitsWrittenLo | .bitsWrittenHi | .inBitsLo | .inBitsHi | .ctSel | .ctInfo
  | .ctBits _ | .freq _ => false

/-- `MemRead(a, 4)` (R71): the word goes to the host; while BUSY = 1 a register that may change reads as a draw, a
free value (notes/assumptions/6.md). -/
def memRead (a : Offset) (s : State) : State :=
  if busy s && !stableReg (regAt s.par a) then
    { s with reads := s.reads ++ [Config.busyRead s.draws], draws := s.draws + 1 }
  else { s with reads := s.reads ++ [regValue s (regAt s.par a)] }

/-- The write of a register while BUSY = 0 (R71): read-only and reserved words ignore it. -/
def writeReg (r : Reg) (v : Word) (s : State) : State :=
  match r with
  | .cmd => presentCommand v s
  | .ctrl => { s with irqEn := v.getLsbD 0 }
  | .arg0 => { s with arg0 := v }
  | .ctSel => { s with ctSel := v.extractLsb' 0 9 }
  | .freq x => { s with freq := freqSet s.freq x v, measured := false }
  | .id | .param | .status | .result0 | .result1 | .result2 | .qsize | .nodesUsed | .treeLen | .origBitsLo | .origBitsHi
  | .acctBitsLo | .acctBitsHi | .savingsLo | .savingsHi | .bitsWrittenLo | .bitsWrittenHi | .inBitsLo | .inBitsHi
  | .magic | .tagCounts | .tagTree | .ctInfo | .ctBits _ | .reserved => s

/-- `MemWrite(a, 4, v)` (R71): while BUSY = 1 it is dropped. -/
def memWrite (a : Offset) (v : Word) (s : State) : State :=
  if busy s then drop s else writeReg (regAt s.par a) v s

/-- The offset of a bus address inside the block's 4096 bytes at HTB_BASE (R80); none where another device answers. -/
def busOffset (par : Params) (addr : Nat) : Option Offset :=
  if par.htbBase ≤ addr ∧ addr < par.htbBase + 4096 then some (BitVec.ofNat 12 (addr - par.htbBase)) else none

/-- A host read at a bus address. -/
def hostRead (addr : Nat) (s : State) : State :=
  match busOffset s.par addr with
  | some a => memRead a s
  | none => s

/-- A host write at a bus address. -/
def hostWrite (addr : Nat) (v : Word) (s : State) : State :=
  match busOffset s.par addr with
  | some a => memWrite a v s
  | none => s

/-- The collaborator presents an IN supply to the next stream command (R72, R106). -/
def presentSupply (bs : List Byte) (s : State) : State := { s with supplies := s.supplies ++ [bs] }

/-- The pending command uses the IN port, so that RST ends the supply in progress (R351). -/
def streamPending (s : State) : Bool :=
  match s.engine with
  | .idle => false
  | .busy i => i.isStream

/-- The ports once the pending command has written all it writes, before its close: what RST may find sent (R351). -/
def outBeforeClose (s : State) : Ports :=
  match s.engine with
  | .busy (.compress force) => compressOut force s
  | .busy .decompress => decompressOut s
  | .idle | .busy .nop | .busy .sessionReset | .busy .clearError | .busy .qClear | .busy (.qEnqLeaf _) | .busy .qPeek
  | .busy .qDequeue | .busy .qMerge | .busy .qLoadFreq | .busy .treeBuild | .busy .ctDerive | .busy (.measure _) => s.ports

/-- The whole bytes the pending command sends on OUT, as the collaborator sees them (R351). -/
def pendingOut (s : State) : List PortEvent := (outBeforeClose s).log.drop s.ports.log.length

/-- HARDWARE RESET (R350, R351): every piece of state of R57 takes its reset value, a pending command is abandoned with
no error and no close, its partial byte is discarded, the bytes it has sent (the first `sent` of its own) stay sent, its
supply has ended. -/
def hardReset (sent : Nat) (s : State) : State :=
  { State.resetWith s.par with
    ports := { Ports.reset with log := s.ports.log ++ (pendingOut s).take sent },
    supplies := if streamPending s then s.supplies.tail else s.supplies,
    script := s.script, reads := s.reads, draws := s.draws }

/-- One turn of the loop of WAIT, `RD STATUS until STATUS.BUSY = 0` (R107): a poll; while it shows BUSY = 1 the engine
has a turn and the host polls again. -/
def waitPoll (s : State) : State :=
  if busy s then { memRead 0x00C#12 s with script := .engine :: .wait :: s.script } else memRead 0x00C#12 s

/-- The block's CMD register as a bus address (R32, R80). -/
def cmdAddr (par : Params) : Nat := par.htbBase + 0x010

end Sys2Proof.Machine
end

