-- ==== Sys2Proof/Machine/Step.lean ====
section
/-!
DEFINITION. One step of the machine (spec/70_reset_and_hazards.md R359): the next event of the script, or, when the
script is empty, the engine's turn. The block fetches nothing (R31, R84): the engine's step takes the pending command
that a CMD write left (R323).
-/

namespace Sys2Proof.Machine

/-- The engine's turn (R359 b): the whole pseudocode of the pending command; nothing while IDLE (R352). -/
def engineStep (s : State) : Host.Outcome State Fault Refusal :=
  match s.engine with
  | .idle => .next s
  | .busy i => exec i s

/-- One event (R359). -/
def eventStep (e : Event) (s : State) : Host.Outcome State Fault Refusal :=
  match e with
  | .read addr => .next (hostRead addr s)
  | .write addr v => .next (hostWrite addr v s)
  | .supply bs => .next (presentSupply bs s)
  | .wait => .next (waitPoll s)
  | .rst sent => .next (hardReset sent s)
  | .engine => engineStep s

/-- One step of the machine. -/
def step (s : State) : Host.Outcome State Fault Refusal :=
  match s.script with
  | [] => engineStep s
  | e :: es => eventStep e { s with script := es }

/-- The state in which the very next step runs the command of a table word: the command is accepted and pending, the
engine has the next turn, and a stream command has an (empty) supply if none is presented. An ill-formed word is the
host's next write to CMD instead, so that the very next step raises its ILLEGAL_COMMAND (R323). -/
def State.withFetchWord (s : State) (nbits w : Nat) : State :=
  match decodeTableWord nbits w with
  | some i =>
    { s with
      engine := .busy i, done := false,
      script := match s.script with
        | [] => []
        | e :: es => .engine :: e :: es,
      supplies := match s.supplies with
        | [] => if i.isStream then [[]] else []
        | b :: bs => b :: bs }
  | none =>
    { s with
      engine := .idle,
      script := .write (cmdAddr s.par) (tableWord nbits w) :: s.script }

end Sys2Proof.Machine
end

