-- ==== Sys2Proof/Machine/HostProgram.lean ====
section
/-!
DEFINITION. The host program notation (spec/30_encoding.md R106, R107): each line as the events it stands for. A
WAIT is the event that polls STATUS until BUSY = 0; host steps that stand before an engine turn in another schedule of
spec/70_reset_and_hazards.md R359 make another script.
-/

namespace Sys2Proof.Machine

/-- One line of a host program (R106) or a pseudo-instruction (R107). -/
inductive HostLine where
  /-- `WR <reg>, <value>`, the register by its offset. -/
  | wr (offset : Nat) (v : Word)
  /-- `RD <reg>`. -/
  | rd (offset : Nat)
  /-- `<MNEMONIC> [operand]`. -/
  | cmd (i : Instr)
  /-- `IN <hex bytes>`. -/
  | inp (bytes : List Byte)
  /-- `WAIT`. -/
  | wait
  /-- `ENQ <s>, <w>`. -/
  | enq (sym : Symbol) (weight : Word)
  /-- `RUN <MNEMONIC> [op]`. -/
  | run (i : Instr)
  /-- `RD64 <NAME>`, the counter by the offset of its _LO word. -/
  | rd64 (offset : Nat)
  deriving DecidableEq, Repr

/-- A register write of the host's syntax. -/
def wrEvent (par : Params) (offset : Nat) (v : Word) : Event := .write (par.htbBase + offset) v

/-- A register read of the host's syntax. -/
def rdEvent (par : Params) (offset : Nat) : Event := .read (par.htbBase + offset)

/-- `<MNEMONIC> [op]` is `WR CMD, <command word>` (R106). -/
def cmdEvent (par : Params) (i : Instr) : Event := wrEvent par 0x010 (encode i)

/-- The events of one line (R106, R107). -/
def lineEvents (par : Params) (l : HostLine) : List Event :=
  match l with
  | .wr o v => [wrEvent par o v]
  | .rd o => [rdEvent par o]
  | .cmd i => [cmdEvent par i]
  | .inp bs => [.supply bs]
  | .wait => [.wait]
  | .enq sym w => [wrEvent par 0x014 w, cmdEvent par (.qEnqLeaf sym), .wait]
  | .run i => [cmdEvent par i, .wait]
  | .rd64 o => [rdEvent par o, rdEvent par (o + 4)]

/-- The script of a host program (R358). -/
def programEvents (par : Params) (ls : List HostLine) : List Event := ls.flatMap (lineEvents par)

end Sys2Proof.Machine
end

