-- ==== Sys2Proof/Safety.lean ====
section
/-!
DEFINITION. The terms claims are stated in: a run with no errors (spec/60_exceptions.md R332), the invariants of
spec/10_state.md R56, and what the streams hold, written as bit strings beside the port-by-port definitions of Machine/.
-/

namespace Sys2Proof.Machine

/-! ### Runs without errors (R332) -/

/-- "ERRCODE = 0 and DROPPED = 0", the premise of a claim about a run with no errors (R332). -/
def State.clean (s : State) : Bool := s.err.isNone && !s.dropped

/-! ### Errors -/

/-- The errors each command can raise (R324). -/
def errorsOf (i : Instr) : List ErrCode :=
  match i with
  | .nop | .sessionReset | .clearError | .qClear | .qLoadFreq => []
  | .qEnqLeaf _ => [.badArgument, .capacity]
  | .qPeek | .qDequeue => [.emptyQueue]
  | .qMerge | .treeBuild => [.emptyQueue, .capacity]
  | .ctDerive => [.preconditionViolation]
  | .measure _ => [.countOverflow]
  | .compress _ => [.preconditionViolation, .noCode]
  | .decompress => [.notRecognizedFormat, .unsupportedHeaderFormat, .truncatedStream, .malformedTree]

/-! ### Input symbols, bit strings of headers and streams -/

/-- The complete W-bit units of a bit string, in order (R77). -/
def unitsOf (w : Nat) (bits : List Bool) : List Nat :=
  (List.range (bits.length / w)).map (fun j => bitsToNat ((bits.drop (j * w)).take w))

/-- The input symbols of a supply (R77). -/
def inputSymbols (par : Params) (bs : List Byte) : List Nat := unitsOf par.w (supplyBits bs)

/-- The bytes of a bit string sent on OUT and flushed: eight bits each, the last padded with zeros (R73, R75). -/
def packBytes (bits : List Bool) : List Byte :=
  (List.range ((bits.length + 7) / 8)).map (fun j => packByte (padTake 8 (bits.drop (8 * j))))

/-- The format A payload (R212). -/
def countsString (par : Params) (m : Memory) : List Bool :=
  (List.range par.alphSize).flatMap (fun s => bitsMsb 32 (freqGet m s).toNat)

/-- The preorder bit string of a tree (R214). -/
def treeString (par : Params) (t : HuffTree) : List Bool :=
  match t with
  | .leaf s _ => true :: bitsMsb par.vw s.toNat
  | .node _ l r => false :: (treeString par l ++ treeString par r)

/-- Magic number, tag and payload (R210, R212, R214). -/
def headerString (par : Params) (f : HdrFmt) (m : Memory) (t : HuffTree) : List Bool :=
  bitsMsb 32 par.magic.toNat ++ bitsMsb 32 (fmtTag par f).toNat ++
    match f with
    | .counts => countsString par m
    | .tree => bitsMsb 32 (treeBits par t) ++ treeString par t

/-- The codes of a list of symbols, in order (R246). -/
def codesString (ct : CodeTable) (syms : List Nat) : List Bool := syms.flatMap (codeBits ct)

/-- A whole compressed stream: header, the symbols' codes, the EOS code (R246). -/
def streamString (par : Params) (f : HdrFmt) (m : Memory) (t : HuffTree) (ct : CodeTable) (syms : List Nat) : List Bool :=
  headerString par f m t ++ codesString ct syms ++ codeBits ct par.eos

/-- The output units of decoded symbols (R274). -/
def unitsString (par : Params) (syms : List Nat) : List Bool := syms.flatMap (bitsMsb par.w)

/-! ### Trees -/

/-- The leaves with their paths from the root, in the order of the left-first walk (R190). -/
def HuffTree.pathsFrom (t : HuffTree) (p : List Bool) : List (Nat × List Bool) :=
  match t with
  | .leaf s _ => [(s.toNat, p)]
  | .node _ l r => l.pathsFrom (p ++ [false]) ++ r.pathsFrom (p ++ [true])

/-- The leaf symbol a path leads to exactly, if it leads to a leaf. -/
def HuffTree.follow (t : HuffTree) (p : List Bool) : Option Nat :=
  match t, p with
  | .leaf s _, [] => some s.toNat
  | .leaf _ _, _ :: _ => none
  | .node _ _ _, [] => none
  | .node _ l r, b :: q => if b then r.follow q else l.follow q

/-- The path ends inside the tree, at an internal node: a walk that has taken it still needs a bit (R273). -/
def HuffTree.leadsInside (t : HuffTree) (p : List Bool) : Bool :=
  match t, p with
  | .leaf _ _, _ => false
  | .node _ _ _, [] => true
  | .node _ l r, b :: q => if b then r.leadsInside q else l.leadsInside q

/-- The tree with every weight 0: what a TREE header carries (R215, R217). -/
def HuffTree.strip (t : HuffTree) : HuffTree :=
  match t with
  | .leaf s _ => .leaf s 0
  | .node _ l r => .node 0 l.strip r.strip

/-- Every leaf symbol is at most EOS (R36). -/
def HuffTree.symbolsLegal (par : Params) (t : HuffTree) : Bool := t.leaves.all (fun e => decide (e.1.toNat ≤ par.eos))

/-- Every internal weight is exactly the sum of its children's weights, with no wrap, and every leaf weight fits 32
bits (R10, R166). -/
def HuffTree.weightsExact (t : HuffTree) : Bool :=
  match t with
  | .leaf _ w => decide (w.toNat < 2 ^ 32)
  | .node w l r => decide (w.toNat = l.wt.toNat + r.wt.toNat) && l.weightsExact && r.weightsExact

/-! ### Where a TREE parse stands (R215) -/

/-- The place ParseNode has reached, from the root down: at each internal node, `none` where it is in the left child,
`some l` where it is in the right child and has parsed the left child l. -/
abbrev ParsePlace := List (Option HuffTree)

/-- The bits ParseNode has read on the way to a place (R214, R215). -/
def ParsePlace.bits (par : Params) (c : ParsePlace) : List Bool :=
  c.flatMap (fun x => match x with
    | none => [false]
    | some l => false :: treeString par l)

/-- The nodes it has allocated on the way (R215: an internal node before its children). -/
def ParsePlace.nodes (c : ParsePlace) : Nat :=
  (c.map (fun x => match x with
    | none => 1
    | some l => 1 + l.size)).sum

/-- Every finished left child has symbols at most EOS. -/
def ParsePlace.legal (par : Params) (c : ParsePlace) : Bool :=
  c.all (fun x => match x with
    | none => true
    | some l => l.symbolsLegal par)

/-- The sum of all FREQ entries (R168). -/
def freqTotal (par : Params) (m : Memory) : Nat := ((List.range par.alphSize).map (fun s => (freqGet m s).toNat)).sum

/-! ### What an erroring DECOMPRESS leaves (R325) -/

/-- The state in which DECOMPRESS ends with error e (R321, R325): the supply taken and released, the session cleared at
its start, `used` nodes parsed, TREE_LEN as `len`, `read` bits read, the bits `sent` written and flushed, both ports
closed. FREQ, ROOT and TLEN_MISMATCH are not touched beyond the fresh session. -/
def decompressFailed (e : ErrCode) (used : Nat) (len : Word) (read : Nat) (sent : List Bool) (s : State) : State :=
  { s with
    supplies := s.supplies.tail, measured := false, root := none, ct := [], ctValid := false,
    nodes := { queue := [], used := used }, treeLen := len, tlenMismatch := false,
    ports := {
      rest := [], inPos := 0, inBits := BitVec.ofNat 64 read, outPend := [],
      bitsWritten := BitVec.ofNat 64 sent.length,
      log := s.ports.log ++ (packBytes sent).map .byte ++ [.closeOut, .closeIn] },
    err := some e, errOp := 0x32#8, engine := .idle, done := true }

/-! ### Invariants (R56) -/

/-- The queue is ordered by weight, ascending (R130, R56 a). -/
def queueSorted (q : List HuffTree) : Prop := q.Pairwise (fun a b => a.wt ≤ b.wt)

/-- The trees the store holds: those queued and the one at ROOT (R36). -/
def State.heldTrees (s : State) : List HuffTree := s.nodes.queue ++ s.root.toList

/-- The queue and the node store: order (R56 a), capacities (R56 b), every held node counted (R36), symbols legal (R36),
weights exact (R166). -/
structure StoreSound (s : State) : Prop where
  legal : s.par.legal = true
  sorted : queueSorted s.nodes.queue
  queueFits : s.nodes.queue.length ≤ s.par.qcap
  storeFits : s.nodes.used ≤ s.par.nodeCap
  counted : (s.heldTrees.map HuffTree.size).sum ≤ s.nodes.used
  symbols : ∀ t ∈ s.heldTrees, t.symbolsLegal s.par = true
  weights : ∀ t ∈ s.heldTrees, t.weightsExact = true

/-- The control state, FREQ and the ports: ERR_OP is 0 without an error (R48), BUSY and DONE are never both 1 (R323),
FREQ and CT canonical, no partial byte and no open supply between commands (R56 f, R78). -/
structure ControlSound (s : State) : Prop where
  legal : s.par.legal = true
  errOp : s.err = none → s.errOp = 0
  notBoth : busy s = true → s.done = false
  freqWf : Memory.wf s.par.alphSize s.freq = true
  ctWf : codeTableWf s.ct = true
  noPartial : s.ports.outPend = []
  noSupply : s.ports.rest = [] ∧ s.ports.inPos = 0

/-- The session: CT is the table of the tree at ROOT when CT_VALID and empty otherwise (R56 c, R39), and MEASURED means
that ROOT, CT and the accounting are those of FREQ and HDR_FMT (R56 d). -/
structure SessionSound (s : State) : Prop where
  legal : s.par.legal = true
  freqWf : Memory.wf s.par.alphSize s.freq = true
  table : s.ctValid = true → ∃ t, s.root = some t ∧ s.ct = deriveCodes t
  noTable : s.ctValid = false → s.ct = []
  measured : s.measured = true → s.ctValid = true ∧ ∃ r st,
    buildTree (loadFreq s.par s.freq) = some (r, st) ∧ s.root = some r
      ∧ s.origBits = BitVec.ofNat 64 (freqTotal s.par s.freq * s.par.w)
      ∧ s.treeLen = BitVec.ofNat 32 (treeBits s.par r)
      ∧ s.acctBits = BitVec.ofNat 64 (accountedBits s.par s.hdrFmt s.freq r (deriveCodes r))
      ∧ s.savings = s.origBits - s.acctBits

end Sys2Proof.Machine
end

