-- ==== Sys2Proof/Certificates/Slice0/Obligations.lean ====
section
/-!
DEFINITION. The statements about the machine that are handed to the provers, from the numbered rules of spec/. Names and
terms are those of Safety.lean and of the model; each docstring names the rule.
-/

open Sys2Proof Sys2Proof.Machine

/-! ### Command words (spec/30_encoding.md) -/

/-- R102: the word patterns of the 14 commands, and every other OP undefined. -/
def Obligations.CommandWordsDecode : Prop :=
  decode 0x00000000#32 = .ok .nop ∧ decode 0x01000000#32 = .ok .sessionReset ∧ decode 0x02000000#32 = .ok .clearError
    ∧ decode 0x10000000#32 = .ok .qClear ∧ (∀ sym : Symbol, decode (0x1100#16 ++ sym) = .ok (.qEnqLeaf sym))
    ∧ decode 0x12000000#32 = .ok .qPeek ∧ decode 0x13000000#32 = .ok .qDequeue ∧ decode 0x14000000#32 = .ok .qMerge
    ∧ decode 0x15000000#32 = .ok .qLoadFreq ∧ decode 0x16000000#32 = .ok .treeBuild
    ∧ decode 0x20000000#32 = .ok .ctDerive ∧ decode 0x30000000#32 = .ok (.measure .counts)
    ∧ decode 0x30000001#32 = .ok (.measure .tree) ∧ decode 0x31000000#32 = .ok (.compress false)
    ∧ decode 0x31000001#32 = .ok (.compress true) ∧ decode 0x32000000#32 = .ok .decompress
    ∧ ∀ v : Word, v.extractLsb' 24 8 ∉ [0x00#8, 0x01#8, 0x02#8, 0x10#8, 0x11#8, 0x12#8, 0x13#8, 0x14#8, 0x15#8, 0x16#8,
        0x20#8, 0x30#8, 0x31#8, 0x32#8] → decode v = .error .undefinedOpcode

/-- R100 to R102: decoding an encoded command gives the command back, for every command and every operand value. -/
def Obligations.DecodeOfEncode : Prop := ∀ i : Instr, decode (encode i) = .ok i

/-- R100 to R103: a word that decodes is the one word of its command. -/
def Obligations.EncodeOfDecode : Prop := ∀ (v : Word) (i : Instr), decode v = .ok i → encode i = v

/-- R103: which words are ill-formed, and what presenting one does; a symbol above EOS is well-formed and BAD_ARGUMENT. -/
def Obligations.IllFormedWords : Prop :=
  (∀ v : Word, (∃ e, decode v = .error e) ↔
    (v.extractLsb' 24 8 ∉ [0x00#8, 0x01#8, 0x02#8, 0x10#8, 0x11#8, 0x12#8, 0x13#8, 0x14#8, 0x15#8, 0x16#8, 0x20#8, 0x30#8,
        0x31#8, 0x32#8]
      ∨ v.extractLsb' 16 8 ≠ 0
      ∨ (v.extractLsb' 24 8 ∉ [0x11#8, 0x30#8, 0x31#8] ∧ v.extractLsb' 0 16 ≠ 0)
      ∨ (v.extractLsb' 24 8 ∈ [0x30#8, 0x31#8] ∧ v.extractLsb' 1 15 ≠ 0)))
  ∧ (∀ (v : Word) (s : State) (e : IllFormed), decode v = .error e → busy s = false → s.err = none →
      memWrite 0x010#12 v s = { s with err := some .illegalCommand, errOp := v.extractLsb' 24 8, done := true })
  ∧ (∀ (v : Word) (s : State) (e : IllFormed) (c : ErrCode), decode v = .error e → busy s = false → s.err = some c →
      memWrite 0x010#12 v s = { s with dropped := true })
  ∧ (∀ sym : Symbol, decode (0x1100#16 ++ sym) = .ok (.qEnqLeaf sym))
  ∧ ∀ (sym : Symbol) (s : State), sym.toNat > s.par.eos →
      exec (.qEnqLeaf sym) s =
        .next { s with err := some .badArgument, errOp := 0x11#8, engine := .idle, done := true }

/-- spec/opcode_table.json: a word that decodes is covered by exactly its command's row, a word that does not by none. -/
def Obligations.OpcodeTableAgrees : Prop :=
  (∀ (v : Word) (i : Instr), decode v = .ok i →
    (opcodeTable.filter (fun r => r.covers v)).map OpcodeRow.mnemonic = [i.mnemonic])
  ∧ ∀ (v : Word) (e : IllFormed), decode v = .error e → opcodeTable.filter (fun r => r.covers v) = []

/-! ### Steps, acceptance, the error latch (spec/60_exceptions.md, spec/70_reset_and_hazards.md) -/

/-- R323: a CMD write while BUSY = 0 in its four cases, and the engine's step, which completes the command (BUSY = 0,
DONE = 1) or, for a stream command with no supply presented, leaves the state as it is. Waiting as an unchanged state is
the model's choice (notes/assumptions/4.md), and so is that the engine has its turn where the script is empty
(notes/assumptions/5.md). -/
def Obligations.PresentedCommand : Prop :=
  (∀ (s : State) (v : Word), busy s = false →
    memWrite 0x010#12 v s =
      if s.err ≠ none ∧ v ≠ 0x00000000#32 ∧ v ≠ 0x01000000#32 ∧ v ≠ 0x02000000#32 then { s with dropped := true }
      else
        match decode v with
        | .error _ => { s with err := some .illegalCommand, errOp := v.extractLsb' 24 8, done := true }
        | .ok i => { s with engine := .busy i, done := false })
  ∧ (∀ (s : State) (i : Instr), s.engine = .busy i → s.script = [] → step s = exec i s)
  ∧ ∀ (i : Instr) (s : State), (exec i s = .next s ∧ i.isStream = true ∧ s.supplies = []) ∨
      ∃ t, exec i s = .next t ∧ t.engine = .idle ∧ t.done = true

/-- R359: a well-formed word written to CMD, with no error pending or a control word, is pending after that host step
and is run, as the command it decodes to, by the engine step that follows. The events are the model's form of R359's steps
(notes/assumptions/5.md). -/
def Obligations.PendingCommandRuns : Prop :=
  ∀ (s : State) (v : Word) (i : Instr) (es : List Event), busy s = false → decode v = .ok i →
    (s.err = none ∨ v ∈ [0x00000000#32, 0x01000000#32, 0x02000000#32]) →
    s.script = .write (s.par.htbBase + 0x010) v :: .engine :: es →
    step s = .next { s with script := .engine :: es, engine := .busy i, done := false }
      ∧ step { s with script := .engine :: es, engine := .busy i, done := false }
          = exec i { s with script := es, engine := .busy i, done := false }

/-- R322: while an error is pending the three control words are accepted, every other word only sets DROPPED, and
writes to other registers are performed as without the error. -/
def Obligations.ErrorLatch : Prop :=
  ∀ (s : State) (e : ErrCode) (v : Word), busy s = false → s.err = some e →
    (v = 0x00000000#32 → memWrite 0x010#12 v s = { s with engine := .busy .nop, done := false })
    ∧ (v = 0x01000000#32 → memWrite 0x010#12 v s = { s with engine := .busy .sessionReset, done := false })
    ∧ (v = 0x02000000#32 → memWrite 0x010#12 v s = { s with engine := .busy .clearError, done := false })
    ∧ (v ∉ [0x00000000#32, 0x01000000#32, 0x02000000#32] → memWrite 0x010#12 v s = { s with dropped := true })
    ∧ ∀ a : Offset, a.toNat / 4 ≠ 4 →
        memWrite a v s = { memWrite a v { s with err := none } with err := some e }

/-- R359: while a command is pending, host reads and writes and new supplies change nothing of the block but DROPPED.
R107: a WAIT polls STATUS until BUSY = 0 and changes nothing of the block. That the engine has a turn between two polls
is the model's choice (notes/assumptions/14.md). -/
def Obligations.BusyHostStepsTouchNothing : Prop :=
  (∀ (s t : State) (e : Event) (es : List Event), busy s = true → s.script = e :: es →
    ((∃ a, e = .read a) ∨ (∃ a v, e = .write a v) ∨ ∃ bs, e = .supply bs) → step s = .next t →
    t = { s with
      script := es, dropped := t.dropped, reads := t.reads, draws := t.draws, supplies := t.supplies }
    ∧ (s.dropped = true → t.dropped = true) ∧ s.reads <+: t.reads ∧ s.supplies <+: t.supplies)
  ∧ ∀ (s : State) (es : List Event), s.script = .wait :: es →
      step s = .next { s with
        script := if busy s = true then .engine :: .wait :: es else es, reads := s.reads ++ [statusWord s] }

/-! ### The register space (spec/10_state.md, spec/20_memory.md) -/

/-- R71: what a host read returns and what a host write changes, with the word each register holds (R32 to R53; CT_INFO
and CT_BITS are CodeTableWindow's) and FREQ's entries. The draw of a read while BUSY = 1 is the model's free value
(notes/assumptions/6.md); the word read goes to the host's list. R80, R72: the script's reads and writes (the model's form
of R359's host steps, notes/assumptions/5.md) at HTB_BASE plus an offset are these accesses, those outside the block's 4096
bytes are another device's (notes/assumptions/3.md), and a supply is presented behind those not yet taken, whatever BUSY is
(notes/assumptions/4.md). -/
def Obligations.HostAccessEffects : Prop :=
  (∀ (a : Offset) (s : State),
    memRead a s =
      if regAt s.par a = .reserved ∨ regAt s.par a = .cmd then { s with reads := s.reads ++ [0#32] }
      else if busy s = true ∧ regAt s.par a ∉ [.id, .param, .ctrl, .status, .magic, .tagCounts, .tagTree] then
        { s with reads := s.reads ++ [Config.busyRead s.draws], draws := s.draws + 1 }
      else { s with reads := s.reads ++ [regValue s (regAt s.par a)] })
  ∧ (∀ (a : Offset) (v : Word) (s : State), busy s = true → memWrite a v s = { s with dropped := true })
  ∧ (∀ (a : Offset) (v : Word) (s : State), busy s = false →
      memWrite a v s =
        match regAt s.par a with
        | .cmd => presentCommand v s
        | .ctrl => { s with irqEn := v.getLsbD 0 }
        | .arg0 => { s with arg0 := v }
        | .ctSel => { s with ctSel := v.extractLsb' 0 9 }
        | .freq x => { s with freq := freqSet s.freq x v, measured := false }
        | _ => s)
  ∧ (∀ s : State,
    regValue s (regAt s.par 0x000#12) = 0x48544231#32 ∧ regValue s (regAt s.par 0x004#12) = BitVec.ofNat 32 s.par.w
    ∧ regValue s (regAt s.par 0x008#12) = (if s.irqEn then 1#32 else 0#32)
    ∧ regValue s (regAt s.par 0x00C#12) = statusWord s ∧ regValue s (regAt s.par 0x010#12) = 0#32
    ∧ regValue s (regAt s.par 0x014#12) = s.arg0 ∧ regValue s (regAt s.par 0x018#12) = s.result0
    ∧ regValue s (regAt s.par 0x01C#12) = s.result1 ∧ regValue s (regAt s.par 0x020#12) = s.result2
    ∧ regValue s (regAt s.par 0x024#12) = BitVec.ofNat 32 s.nodes.queue.length
    ∧ regValue s (regAt s.par 0x028#12) = BitVec.ofNat 32 s.nodes.used ∧ regValue s (regAt s.par 0x02C#12) = s.treeLen
    ∧ regValue s (regAt s.par 0x030#12) = s.origBits.extractLsb' 0 32
    ∧ regValue s (regAt s.par 0x034#12) = s.origBits.extractLsb' 32 32
    ∧ regValue s (regAt s.par 0x038#12) = s.acctBits.extractLsb' 0 32
    ∧ regValue s (regAt s.par 0x03C#12) = s.acctBits.extractLsb' 32 32
    ∧ regValue s (regAt s.par 0x040#12) = s.savings.extractLsb' 0 32
    ∧ regValue s (regAt s.par 0x044#12) = s.savings.extractLsb' 32 32
    ∧ regValue s (regAt s.par 0x048#12) = s.ports.bitsWritten.extractLsb' 0 32
    ∧ regValue s (regAt s.par 0x04C#12) = s.ports.bitsWritten.extractLsb' 32 32
    ∧ regValue s (regAt s.par 0x050#12) = s.ports.inBits.extractLsb' 0 32
    ∧ regValue s (regAt s.par 0x054#12) = s.ports.inBits.extractLsb' 32 32
    ∧ regValue s (regAt s.par 0x058#12) = s.par.magic ∧ regValue s (regAt s.par 0x05C#12) = s.par.tagCounts
    ∧ regValue s (regAt s.par 0x060#12) = s.par.tagTree ∧ regValue s (regAt s.par 0x064#12) = s.ctSel.zeroExtend 32)
  ∧ (∀ (s : State) (x : Nat), x < 256 → x < s.par.alphSize →
      regValue s (regAt s.par (BitVec.ofNat 12 (0x400 + 4 * x))) = freqGet s.freq x)
  ∧ (∀ (m : Memory) (x y : Nat) (v : Word), freqGet (freqSet m x v) y = if y = x then v else freqGet m y)
  ∧ (∀ (s : State) (a : Offset), regAt s.par a = .reserved → regValue s (regAt s.par a) = 0#32)
  ∧ (∀ (s : State) (a : Offset) (es : List Event), s.script = .read (s.par.htbBase + a.toNat) :: es →
      step s = .next (memRead a { s with script := es }))
  ∧ (∀ (s : State) (a : Offset) (v : Word) (es : List Event), s.script = .write (s.par.htbBase + a.toNat) v :: es →
      step s = .next (memWrite a v { s with script := es }))
  ∧ (∀ (s : State) (addr : Nat) (es : List Event), addr < s.par.htbBase ∨ s.par.htbBase + 4096 ≤ addr →
      (s.script = .read addr :: es ∨ ∃ v, s.script = .write addr v :: es) → step s = .next { s with script := es })
  ∧ ∀ (s : State) (bs : List Byte) (es : List Event), s.script = .supply bs :: es →
      step s = .next { s with script := es, supplies := s.supplies ++ [bs] }

/-- R32, R35, R70, R57: the register at each offset of the map, the two low offset bits not decoded, and every read at
reset. -/
def Obligations.RegisterMapAtReset : Prop :=
  (∀ (par : Params) (a : Offset), regAt par a = regAt par (a &&& 0xFFC#12))
  ∧ (∀ par : Params,
    regAt par 0x000#12 = .id ∧ regAt par 0x004#12 = .param ∧ regAt par 0x008#12 = .ctrl ∧ regAt par 0x00C#12 = .status
    ∧ regAt par 0x010#12 = .cmd ∧ regAt par 0x014#12 = .arg0 ∧ regAt par 0x018#12 = .result0
    ∧ regAt par 0x01C#12 = .result1 ∧ regAt par 0x020#12 = .result2 ∧ regAt par 0x024#12 = .qsize
    ∧ regAt par 0x028#12 = .nodesUsed ∧ regAt par 0x02C#12 = .treeLen ∧ regAt par 0x030#12 = .origBitsLo
    ∧ regAt par 0x034#12 = .origBitsHi ∧ regAt par 0x038#12 = .acctBitsLo ∧ regAt par 0x03C#12 = .acctBitsHi
    ∧ regAt par 0x040#12 = .savingsLo ∧ regAt par 0x044#12 = .savingsHi ∧ regAt par 0x048#12 = .bitsWrittenLo
    ∧ regAt par 0x04C#12 = .bitsWrittenHi ∧ regAt par 0x050#12 = .inBitsLo ∧ regAt par 0x054#12 = .inBitsHi
    ∧ regAt par 0x058#12 = .magic ∧ regAt par 0x05C#12 = .tagCounts ∧ regAt par 0x060#12 = .tagTree
    ∧ regAt par 0x064#12 = .ctSel ∧ regAt par 0x068#12 = .ctInfo)
  ∧ (∀ (par : Params) (a : Offset), (0x06C ≤ a.toNat ∧ a.toNat < 0x080) ∨ (0x0A0 ≤ a.toNat ∧ a.toNat < 0x400)
      ∨ 0x800 ≤ a.toNat → regAt par a = .reserved)
  ∧ (∀ (par : Params) (k : Nat), k < 8 → regAt par (BitVec.ofNat 12 (0x080 + 4 * k)) = .ctBits k)
  ∧ (∀ (par : Params) (x : Nat), x < 256 →
      regAt par (BitVec.ofNat 12 (0x400 + 4 * x)) = if x < par.alphSize then .freq x else .reserved)
  ∧ ∀ (par : Params) (a : Offset),
      regValue (State.resetWith par) (regAt par a) =
        if a.toNat / 4 = 0 then 0x48544231#32
        else if a.toNat / 4 = 1 then BitVec.ofNat 32 par.w
        else if a.toNat / 4 = 22 then par.magic
        else if a.toNat / 4 = 23 then par.tagCounts
        else if a.toNat / 4 = 24 then par.tagTree
        else 0#32

/-- R48, R320: every field of STATUS, with the code of each error. -/
def Obligations.StatusWordFields : Prop :=
  ∀ s : State,
    (statusWord s).getLsbD 0 = busy s ∧ (statusWord s).getLsbD 1 = s.done
    ∧ ((statusWord s).getLsbD 2 = true ↔ (statusWord s).extractLsb' 16 8 ≠ 0)
    ∧ (statusWord s).getLsbD 3 = s.measured ∧ ((statusWord s).getLsbD 4 = true ↔ s.hdrFmt = .tree)
    ∧ ((statusWord s).getLsbD 5 = true ↔ ∃ t, s.root = some t) ∧ (statusWord s).getLsbD 6 = s.ctValid
    ∧ (statusWord s).getLsbD 7 = s.dropped ∧ (statusWord s).getLsbD 8 = s.tlenMismatch
    ∧ (statusWord s).getLsbD 9 = (s.done && s.irqEn) ∧ (statusWord s).extractLsb' 10 6 = 0
    ∧ ((statusWord s).extractLsb' 16 8 = 0 ↔ s.err = none) ∧ (statusWord s).extractLsb' 24 8 = s.errOp
    ∧ (∀ e c, (e, c) ∈ [(ErrCode.emptyQueue, 0x01#8), (.unsupportedHeaderFormat, 0x02#8), (.notRecognizedFormat, 0x03#8),
          (.truncatedStream, 0x04#8), (.preconditionViolation, 0x05#8), (.malformedTree, 0x10#8), (.capacity, 0x11#8),
          (.countOverflow, 0x12#8), (.noCode, 0x13#8), (.illegalCommand, 0x14#8), (.badArgument, 0x15#8)] →
        s.err = some e → (statusWord s).extractLsb' 16 8 = c)
    ∧ regAt s.par 0x00C#12 = .status

/-- R54: the code table window. Code bit i of the selected entry is bit 31 - (i mod 32) of CT_BITS[i div 32]; beyond LEN
and for SEL > EOS every bit is 0. Reading changes nothing of the block; CT_SEL is 0 at reset. -/
def Obligations.CodeTableWindow : Prop :=
  (∀ (s : State) (v : Word), busy s = false → memWrite 0x064#12 v s = { s with ctSel := v.extractLsb' 0 9 })
  ∧ (∀ (s : State) (a : Offset), busy s = false →
      memRead a s = { s with reads := s.reads ++ [regValue s (regAt s.par a)] })
  ∧ (∀ p : Params, (State.resetWith p).ctSel = 0)
  ∧ ∀ s : State,
    regValue s (regAt s.par 0x064#12) = s.ctSel.zeroExtend 32
    ∧ (s.ctSel.toNat > s.par.eos ∨ codeGet s.ct s.ctSel.toNat = none →
        regValue s (regAt s.par 0x068#12) = 0
        ∧ ∀ k, k < 8 → regValue s (regAt s.par (BitVec.ofNat 12 (0x080 + 4 * k))) = 0)
    ∧ ∀ c, s.ctSel.toNat ≤ s.par.eos → codeGet s.ct s.ctSel.toNat = some c →
        (regValue s (regAt s.par 0x068#12)).getLsbD 31 = true
        ∧ (regValue s (regAt s.par 0x068#12)).extractLsb' 16 15 = 0
        ∧ (regValue s (regAt s.par 0x068#12)).extractLsb' 0 16 = BitVec.ofNat 16 c.length
        ∧ ∀ k i, k < 8 → i < 32 →
            (regValue s (regAt s.par (BitVec.ofNat 12 (0x080 + 4 * k)))).getLsbD (31 - i) = c.getD (32 * k + i) false

/-- R326: the level of IRQ, and what asserts and drops it. -/
def Obligations.InterruptLine : Prop :=
  (∀ s : State, irq s = (s.done && s.irqEn)) ∧ (∀ (s : State) (n : Nat), irqLineLevel s n = true ↔ n = s.par.irqLine ∧ irq s = true)
  ∧ (∀ (s : State) (v : Word), busy s = false → irq (memWrite 0x008#12 v s) = (s.done && v.getLsbD 0))
  ∧ (∀ (s : State) (v : Word) (i : Instr), busy s = false → s.err = none → decode v = .ok i →
      irq (memWrite 0x010#12 v s) = false)
  ∧ (∀ (s : State) (v : Word) (e : IllFormed), busy s = false → s.err = none → decode v = .error e →
      irq (memWrite 0x010#12 v s) = s.irqEn)
  ∧ ∀ (s : State) (v : Word) (c : ErrCode), busy s = false → s.err = some c →
      v ∉ [0x00000000#32, 0x01000000#32, 0x02000000#32] → irq (memWrite 0x010#12 v s) = irq s

/-! ### Reset (spec/10_state.md R57, spec/70_reset_and_hazards.md) -/

/-- R57: every piece of state after hardware reset. -/
def Obligations.ResetState : Prop :=
  State.reset = State.resetWith State.reset.par
  ∧ State.reset.par =
    { w := 8, magic := 0xFACE8200#32, tagCounts := 0x63742020#32, tagTree := 0x74726565#32,
      htbBase := State.reset.par.htbBase, irqLine := State.reset.par.irqLine }
  ∧ ∀ p : Params,
    (State.resetWith p).par = p ∧ busy (State.resetWith p) = false ∧ ctrlWord (State.resetWith p) = 0
    ∧ statusWord (State.resetWith p) = 0 ∧ (State.resetWith p).arg0 = 0 ∧ (State.resetWith p).result0 = 0
    ∧ (State.resetWith p).result1 = 0 ∧ (State.resetWith p).result2 = 0
    ∧ (∀ x, freqGet (State.resetWith p).freq x = 0) ∧ (State.resetWith p).nodes = { queue := [], used := 0 }
    ∧ (State.resetWith p).root = none ∧ (∀ x, codeGet (State.resetWith p).ct x = none)
    ∧ (State.resetWith p).ctValid = false ∧ (State.resetWith p).measured = false ∧ (State.resetWith p).hdrFmt = .counts
    ∧ (State.resetWith p).origBits = 0 ∧ (State.resetWith p).acctBits = 0 ∧ (State.resetWith p).savings = 0
    ∧ (State.resetWith p).ports.bitsWritten = 0 ∧ (State.resetWith p).ports.inBits = 0
    ∧ (State.resetWith p).treeLen = 0 ∧ (State.resetWith p).ctSel = 0 ∧ (State.resetWith p).ports.outPend = []
    ∧ (State.resetWith p).ports.inPos = 0 ∧ irq (State.resetWith p) = false
    ∧ regValue (State.resetWith p) (regAt p 0x000#12) = 0x48544231#32
    ∧ regValue (State.resetWith p) (regAt p 0x004#12) = BitVec.ofNat 32 p.w
    ∧ regValue (State.resetWith p) (regAt p 0x058#12) = p.magic
    ∧ regValue (State.resetWith p) (regAt p 0x05C#12) = p.tagCounts
    ∧ regValue (State.resetWith p) (regAt p 0x060#12) = p.tagTree

/-- R350, R351: RST at any time gives the reset state; a pending command is abandoned without an error and without a
close. `bytes` is what it has sent and stays sent: the first `sent` of the whole bytes the model's `pendingOut` gives. These
are nothing unless the command is a DECOMPRESS or a COMPRESS that writes its stream; with a supply presented they are the
bytes the command would have sent, less the padded last one (`bits`, which BITS_WRITTEN counts); where COMPRESS still waits
for its supply they are its header's. What becomes of supplies, and that an RST event says how many bytes had been sent, is
the model's choice (notes/assumptions/8.md). -/
def Obligations.HardwareReset : Prop :=
  ∀ (s : State) (sent : Nat) (es : List Event), s.script = .rst sent :: es →
    ∃ (bytes : List Byte) (sup : List (List Byte)), step s = .next { State.resetWith s.par with
        ports := { Ports.reset with log := s.ports.log ++ bytes.map .byte },
        supplies := sup, script := es, reads := s.reads, draws := s.draws }
      ∧ sup = (match s.engine with
          | .idle => s.supplies
          | .busy i => if i.isStream then s.supplies.tail else s.supplies)
      ∧ bytes.map .byte = (pendingOut { s with script := es }).take sent
      ∧ (bytes ≠ [] → s.engine = .busy .decompress
          ∨ ∃ force, s.engine = .busy (.compress force) ∧ s.measured = true ∧ (0 < s.savings.toInt ∨ force = true))
      ∧ (s.ports.outPend = [] → ∀ (i : Instr) (t : State), s.engine = .busy i → i.isStream = true → s.supplies ≠ [] →
          exec i { s with script := es } = .next t → ∃ bits,
            t.ports.log = s.ports.log ++ (packBytes bits).map .byte ++
              (match i with
                | .measure _ => [.closeIn]
                | _ => [.closeOut, .closeIn])
            ∧ (match i with
                | .measure _ => bits = []
                | _ => t.ports.bitsWritten = BitVec.ofNat 64 bits.length)
            ∧ bytes = (packBytes bits).take (min sent (bits.length / 8)))
      ∧ (s.supplies = [] → s.engine = .busy .decompress → bytes = [])
      ∧ (s.ports.outPend = [] → s.supplies = [] → ∀ (force : Bool) (r : HuffTree), s.engine = .busy (.compress force) →
          s.measured = true → (0 < s.savings.toInt ∨ force = true) → s.root = some r →
          bytes = (packBytes (headerString s.par s.hdrFmt s.freq r)).take
            (min sent ((headerString s.par s.hdrFmt s.freq r).length / 8)))

/-! ### The control commands (spec/46_control.md) -/

/-- R300: NOP. -/
def Obligations.NopCommand : Prop :=
  encode .nop = 0x00000000#32 ∧ (∀ s : State, exec .nop s = .next { s with engine := .idle, done := true })
  ∧ (∀ s : State, busy s = false → memWrite 0x010#12 0x00000000#32 s = { s with engine := .busy .nop, done := false })
  ∧ ∀ v : Word, v.extractLsb' 24 8 = 0x00#8 → v ≠ 0x00000000#32 → ∃ e, decode v = .error e

/-- R301: SESSION_RESET. -/
def Obligations.SessionResetCommand : Prop :=
  encode .sessionReset = 0x01000000#32
  ∧ (∀ s : State, exec .sessionReset s = .next { State.resetWith s.par with
      irqEn := s.irqEn, engine := .idle, done := true, ports := { Ports.reset with log := s.ports.log },
      supplies := s.supplies, script := s.script, reads := s.reads, draws := s.draws })
  ∧ ∀ s : State, busy s = false →
      memWrite 0x010#12 0x01000000#32 s = { s with engine := .busy .sessionReset, done := false }

/-- R302: CLEAR_ERROR. -/
def Obligations.ClearErrorCommand : Prop :=
  encode .clearError = 0x02000000#32
  ∧ (∀ s : State, exec .clearError s =
      .next { s with err := none, errOp := 0, dropped := false, engine := .idle, done := true })
  ∧ ∀ s : State, busy s = false →
      memWrite 0x010#12 0x02000000#32 s = { s with engine := .busy .clearError, done := false }

/-! ### The queue (spec/40_queue.md) -/

/-- R135: Q_CLEAR. -/
def Obligations.QClearCommand : Prop :=
  encode .qClear = 0x10000000#32
  ∧ ∀ s : State, exec .qClear s = .next { s with
      nodes := { queue := [], used := 0 }, root := none, ct := [], ctValid := false, measured := false,
      engine := .idle, done := true }

/-- R136: Q_ENQ_LEAF, its four checks in order and its effect. -/
def Obligations.QEnqLeafCommand : Prop :=
  (∀ sym : Symbol, encode (.qEnqLeaf sym) = 0x1100#16 ++ sym)
  ∧ ∀ (s : State) (sym : Symbol), exec (.qEnqLeaf sym) s =
      if sym.toNat > s.par.eos ∨ s.arg0 = 0 then
        .next { s with err := some .badArgument, errOp := 0x11#8, engine := .idle, done := true }
      else if s.nodes.queue.length = s.par.qcap ∨ s.nodes.used = s.par.nodeCap then
        .next { s with err := some .capacity, errOp := 0x11#8, engine := .idle, done := true }
      else
        .next { s with
          nodes := { queue := enqueue (.leaf sym (s.arg0.zeroExtend 64)) s.nodes.queue, used := s.nodes.used + 1 },
          result0 := BitVec.ofNat 32 (s.nodes.queue.length + 1), engine := .idle, done := true }

/-- R137, R134: Q_PEEK, and the descriptor of a leaf and of an internal node. -/
def Obligations.QPeekCommand : Prop :=
  encode .qPeek = 0x12000000#32
  ∧ (∀ s : State, s.nodes.queue = [] →
      exec .qPeek s = .next { s with err := some .emptyQueue, errOp := 0x12#8, engine := .idle, done := true })
  ∧ (∀ (s : State) (n : HuffTree) (q : List HuffTree), s.nodes.queue = n :: q →
      exec .qPeek s = .next { s with
        result0 := n.wt.extractLsb' 0 32, result1 := n.wt.extractLsb' 32 32, result2 := desc n,
        engine := .idle, done := true })
  ∧ (∀ (sym : Symbol) (w : Weight), (HuffTree.leaf sym w).wt = w
      ∧ desc (.leaf sym w) = 0x80000000#32 ||| sym.zeroExtend 32)
  ∧ ∀ (w : Weight) (l r : HuffTree), (HuffTree.node w l r).wt = w ∧ desc (.node w l r) = 0x00000000#32

/-- R138: Q_DEQUEUE. NODES_USED does not change. -/
def Obligations.QDequeueCommand : Prop :=
  encode .qDequeue = 0x13000000#32
  ∧ (∀ s : State, s.nodes.queue = [] →
      exec .qDequeue s = .next { s with err := some .emptyQueue, errOp := 0x13#8, engine := .idle, done := true })
  ∧ ∀ (s : State) (n : HuffTree) (q : List HuffTree), s.nodes.queue = n :: q →
      exec .qDequeue s = .next { s with
        nodes := { queue := q, used := s.nodes.used },
        result0 := n.wt.extractLsb' 0 32, result1 := n.wt.extractLsb' 32 32, result2 := desc n,
        engine := .idle, done := true }

/-- R131: Enqueue puts the new node after every node of a weight at most its own and before every heavier one. -/
def Obligations.EnqueuePosition : Prop :=
  ∀ (n : HuffTree) (q : List HuffTree), queueSorted q →
    enqueue n q = q.filter (fun x => decide (x.wt ≤ n.wt)) ++ n :: q.filter (fun x => decide (n.wt < x.wt))

/-- R139, for one operation each: an Enqueue adds a node behind those of its weight and moves no other, a Dequeue removes
the first node only; so nodes of equal weight leave in the order they came. -/
def Obligations.FifoAmongTies : Prop :=
  (∀ (n : HuffTree) (q : List HuffTree) (w : Weight), queueSorted q →
    (enqueue n q).filter (fun x => decide (x.wt = w)) =
      q.filter (fun x => decide (x.wt = w)) ++ (if n.wt = w then [n] else []))
  ∧ ∀ (st st' : NodeStore) (n : HuffTree) (w : Weight), dequeue st = some (n, st') →
      st.queue.filter (fun x => decide (x.wt = w)) =
        (if n.wt = w then [n] else []) ++ st'.queue.filter (fun x => decide (x.wt = w))

/-! ### The tree builder (spec/41_tree_builder.md) -/

/-- R161: Q_MERGE. -/
def Obligations.QMergeCommand : Prop :=
  encode .qMerge = 0x14000000#32
  ∧ (∀ s : State, s.nodes.queue.length < 2 →
      exec .qMerge s = .next { s with err := some .emptyQueue, errOp := 0x14#8, engine := .idle, done := true })
  ∧ ∀ (s : State) (a b : HuffTree) (q : List HuffTree), s.nodes.queue = a :: b :: q →
      exec .qMerge s =
        if s.nodes.used = s.par.nodeCap then
          .next { s with err := some .capacity, errOp := 0x14#8, engine := .idle, done := true }
        else
          .next { s with
            nodes := { queue := enqueue (.node (a.wt + b.wt) a b) q, used := s.nodes.used + 1 },
            result0 := (a.wt + b.wt).extractLsb' 0 32, result1 := (a.wt + b.wt).extractLsb' 32 32, result2 := 0,
            engine := .idle, done := true }

/-- R163: Q_LOAD_FREQ, with the queue of an all-zero FREQ and the queue's length for a FREQ with no zero. The queue of
every other FREQ is LoadFreqLeafSet's. -/
def Obligations.QLoadFreqCommand : Prop :=
  encode .qLoadFreq = 0x15000000#32
  ∧ (∀ s : State, exec .qLoadFreq s = .next { s with
      root := none, ct := [], ctValid := false, measured := false, nodes := loadFreq s.par s.freq,
      result0 := BitVec.ofNat 32 (loadFreq s.par s.freq).queue.length, engine := .idle, done := true })
  ∧ (∀ (par : Params) (m : Memory), (∀ x, x < par.alphSize → freqGet m x = 0) →
      loadFreq par m = { queue := [.leaf (BitVec.ofNat 16 par.eos) 1], used := 1 })
  ∧ ∀ (par : Params) (m : Memory), (∀ x, x < par.alphSize → freqGet m x ≠ 0) →
      (loadFreq par m).queue.length = par.qcap

/-- R162: LoadFreq's leaf set: one leaf for each nonzero entry in ascending symbol order, then the EOS leaf of weight 1,
enqueued one after another: sorted by weight, equal weights in that order, NODES_USED their number, never over QCAP. -/
def Obligations.LoadFreqLeafSet : Prop :=
  ∀ (par : Params) (m : Memory),
    queueSorted (loadFreq par m).queue
    ∧ (∀ w : Weight, (loadFreq par m).queue.filter (fun x => decide (x.wt = w)) =
        (((List.range par.alphSize).filter (fun s => decide (freqGet m s ≠ 0))).map
            (fun s => HuffTree.leaf (BitVec.ofNat 16 s) ((freqGet m s).zeroExtend 64))
          ++ [HuffTree.leaf (BitVec.ofNat 16 par.eos) 1]).filter (fun x => decide (x.wt = w)))
    ∧ (loadFreq par m).used = (loadFreq par m).queue.length ∧ (loadFreq par m).queue.length ≤ par.qcap

/-- R165: TREE_BUILD. -/
def Obligations.TreeBuildCommand : Prop :=
  encode .treeBuild = 0x16000000#32
  ∧ (∀ s : State, s.nodes.queue = [] →
      exec .treeBuild s = .next { s with err := some .emptyQueue, errOp := 0x16#8, engine := .idle, done := true })
  ∧ (∀ s : State, s.nodes.queue ≠ [] → s.nodes.used + s.nodes.queue.length - 1 > s.par.nodeCap →
      exec .treeBuild s = .next { s with err := some .capacity, errOp := 0x16#8, engine := .idle, done := true })
  ∧ (∀ (s : State) (n : HuffTree), s.nodes.queue = [n] → s.nodes.used ≤ s.par.nodeCap →
      exec .treeBuild s = .next { s with
        nodes := { queue := [], used := s.nodes.used }, root := some n, ct := [], ctValid := false, measured := false,
        result0 := n.wt.extractLsb' 0 32, result1 := n.wt.extractLsb' 32 32, result2 := desc n,
        engine := .idle, done := true })
  ∧ ∀ s : State, s.nodes.queue ≠ [] → s.nodes.used + s.nodes.queue.length - 1 ≤ s.par.nodeCap →
      ∃ r, buildTree s.nodes = some (r, { queue := [], used := s.nodes.used + s.nodes.queue.length - 1 })
        ∧ exec .treeBuild s = .next { s with
            nodes := { queue := [], used := s.nodes.used + s.nodes.queue.length - 1 }, root := some r,
            ct := [], ctValid := false, measured := false, result0 := r.wt.extractLsb' 0 32,
            result1 := r.wt.extractLsb' 32 32, result2 := desc r, engine := .idle, done := true }

/-- R164: BuildTree makes exactly QSIZE - 1 merges and answers the node left; a single node is the root itself; the root
holds exactly the queue's leaves. -/
def Obligations.BuildTreeFromQueue : Prop :=
  (∀ (n : HuffTree) (u : Nat), buildTree { queue := [n], used := u } = some (n, { queue := [], used := u }))
  ∧ (∀ (a b : HuffTree) (q : List HuffTree) (u : Nat), buildTree { queue := a :: b :: q, used := u } =
      buildTree { queue := enqueue (.node (a.wt + b.wt) a b) q, used := u + 1 })
  ∧ ∀ st : NodeStore, st.queue ≠ [] →
      ∃ r, buildTree st = some (r, { queue := [], used := st.used + (st.queue.length - 1) })
        ∧ r.leaves.Perm (st.queue.flatMap HuffTree.leaves)

/-- R168: the tree LoadFreq and BuildTree make of FREQ: its leaves, its node count, its weights, its depth. -/
def Obligations.TreeFromFrequencies : Prop :=
  ∀ (par : Params) (m : Memory), par.legal = true →
    ∃ r st, buildTree (loadFreq par m) = some (r, st) ∧ st.queue = [] ∧ st.used = 2 * r.leafCount - 1
      ∧ r.leafCount = ((List.range par.alphSize).filter (fun s => decide (freqGet m s ≠ 0))).length + 1
      ∧ r.leaves.Perm (((List.range par.alphSize).filter (fun s => decide (freqGet m s ≠ 0))).map
            (fun s => (BitVec.ofNat 16 s, (freqGet m s).zeroExtend 64)) ++ [(BitVec.ofNat 16 par.eos, 1)])
      ∧ r.weightsExact = true ∧ r.wt.toNat = freqTotal par m + 1 ∧ r.depth ≤ r.leafCount - 1
      ∧ r.depth ≤ par.alphSize

/-! ### The code table (spec/42_code_table.md) -/

/-- R191: CT_DERIVE. -/
def Obligations.CtDeriveCommand : Prop :=
  encode .ctDerive = 0x20000000#32
  ∧ (∀ s : State, s.root = none →
      exec .ctDerive s =
        .next { s with err := some .preconditionViolation, errOp := 0x20#8, engine := .idle, done := true })
  ∧ ∀ (s : State) (t : HuffTree), s.root = some t →
      exec .ctDerive s = .next { s with
        ct := deriveCodes t, ctValid := true, result0 := BitVec.ofNat 32 t.leaves.length,
        result1 := BitVec.ofNat 32 (((t.pathsFrom []).map (fun e => e.2.length)).foldl max 0), result2 := 0,
        engine := .idle, done := true }

/-- R190, R194: a symbol's code is the path to its last leaf in the left-first walk; a symbol with no leaf has no code;
the table is in the model's canonical form (notes/assumptions/2.md). -/
def Obligations.CodesAreLeafPaths : Prop :=
  ∀ t : HuffTree, codeTableWf (deriveCodes t) = true
    ∧ ∀ x : Nat, codeGet (deriveCodes t) x =
        (((t.pathsFrom []).filter (fun e => decide (e.1 = x))).getLast?).map Prod.snd

/-- R193, R194: no valid code is a prefix of another, for every tree; with two or more leaves no code is empty; and where
the leaves' symbols are distinct the codes fill the code space exactly (the sum of 2^-LEN is 1). -/
def Obligations.CodesPrefixFree : Prop :=
  (∀ (t : HuffTree) (x y : Nat) (c d : List Bool), codeGet (deriveCodes t) x = some c → codeGet (deriveCodes t) y = some d →
    x ≠ y → ¬ c <+: d)
  ∧ (∀ (t : HuffTree) (x : Nat) (c : List Bool), 2 ≤ t.leafCount → codeGet (deriveCodes t) x = some c → c ≠ [])
  ∧ ∀ t : HuffTree, (t.leaves.map (fun e => e.1.toNat)).Nodup →
      ((deriveCodes t).map (fun e => 2 ^ (t.depth - e.2.length))).sum = 2 ^ t.depth

/-- R195: in every sound state the tree at ROOT gives codes of at most MAXCODE bits, at most 256, so LEN fits 16 bits and
the eight CT_BITS words hold every code. -/
def Obligations.CodeLengthBound : Prop :=
  ∀ (s : State) (t : HuffTree), StoreSound s → s.root = some t →
    t.depth ≤ s.par.maxCode ∧ s.par.maxCode ≤ 256
      ∧ ∀ (x : Nat) (c : List Bool), codeGet (deriveCodes t) x = some c → c.length ≤ s.par.maxCode

/-! ### The header codec (spec/43_header_codec.md) -/

/-- R211: the length of the serialized tree, by the source's formula, and of the bit string written. -/
def Obligations.TreeBitsFormula : Prop :=
  ∀ (par : Params) (t : HuffTree),
    treeBits par t = t.leafCount * (1 + par.vw) + (t.leafCount - 1) ∧ (treeString par t).length = treeBits par t

/-- R214, R215, R217: a TREE payload that is written parses to the same shape and the same symbols, with weights 0, and
takes exactly its own bits off the supply; NODES_USED counts the tree's nodes. -/
def Obligations.TreePayloadRoundTrip : Prop :=
  ∀ (par : Params) (t : HuffTree) (used k : Nat) (p : Ports) (more : List Bool), par.legal = true →
    t.symbolsLegal par = true → used + t.size ≤ par.nodeCap → t.depth < k → p.rest = treeString par t ++ more →
    parseNode par k used p = .ok t.strip (used + t.size,
      { p with rest := more, inPos := p.inPos + treeBits par t, inBits := p.inBits + BitVec.ofNat 64 (treeBits par t) })

/-- R212, R213, R217: a COUNTS payload that is written parses to the same FREQ. -/
def Obligations.CountsPayloadRoundTrip : Prop :=
  ∀ (par : Params) (m : Memory) (p : Ports) (more : List Bool), Memory.wf par.alphSize m = true →
    p.rest = countsString par m ++ more →
    (countsString par m).length = 32 * par.alphSize
    ∧ parseCounts (List.range par.alphSize) [] p = .ok () (m,
        { p with
          rest := more, inPos := p.inPos + 32 * par.alphSize,
          inBits := p.inBits + BitVec.ofNat 64 (32 * par.alphSize) })

/-! ### The ports (spec/20_memory.md) -/

/-- R75: a bit string written from an empty packer and flushed is sent as its bytes, most significant bit first, the
last padded with zeros; BITS_WRITTEN counts its bits without the padding; ceil(k/8) bytes are sent. -/
def Obligations.BitPacking : Prop :=
  ∀ (c : List Bool) (p : Ports), p.outPend = [] →
    flush (writeCode c p) = { p with
      bitsWritten := p.bitsWritten + BitVec.ofNat 64 c.length, log := p.log ++ (packBytes c).map .byte }
    ∧ (packBytes c).length = (c.length + 7) / 8
    ∧ supplyBits (packBytes c) = c ++ List.replicate (8 * ((c.length + 7) / 8) - c.length) false

/-- R78: a stream command that completes, with or without an error, has released both ports: no pending bit, no open
supply, and the collaborator has seen the close events last. -/
def Obligations.StreamCommandsClosePorts : Prop :=
  ∀ (i : Instr) (s t : State), i.isStream = true → exec i s = .next t → t ≠ s → s.ports.outPend = [] →
    t.ports.rest = [] ∧ t.ports.inPos = 0 ∧ t.ports.outPend = []
    ∧ ∃ bytes : List Byte, t.ports.log = s.ports.log ++ bytes.map .byte ++
        match i with
        | .measure _ => [.closeIn]
        | _ => [.closeOut, .closeIn]

/-- R72: a stream command that needs its supply waits while none is presented. That waiting is an unchanged state is the
model's choice (notes/assumptions/4.md). -/
def Obligations.StreamCommandsWaitForSupply : Prop :=
  ∀ s : State, s.supplies = [] →
    (∀ f, exec (.measure f) s = .next s) ∧ exec .decompress s = .next s
    ∧ ∀ force, s.measured = true → (0 < s.savings.toInt ∨ force = true) → exec (.compress force) s = .next s

/-! ### The encoder (spec/44_encoder.md) -/

/-- R244: MEASURE: its results on a supply in which no symbol occurs 2^32 times, and COUNT_OVERFLOW at the 2^32-th copy
of a symbol. -/
def Obligations.MeasureCommand : Prop :=
  encode (.measure .counts) = 0x30000000#32 ∧ encode (.measure .tree) = 0x30000001#32
  ∧ (∀ (f : HdrFmt) (s : State) (b : List Byte) (bs : List (List Byte)), s.par.legal = true → s.supplies = b :: bs →
      (∀ u, (inputSymbols s.par b).count u < 2 ^ 32) →
      ∃ m r, Memory.wf s.par.alphSize m = true
        ∧ (∀ u, u < s.par.alphSize → (freqGet m u).toNat = (inputSymbols s.par b).count u)
        ∧ buildTree (loadFreq s.par m) = some (r, { queue := [], used := 2 * r.leafCount - 1 })
        ∧ exec (.measure f) s = .next { s with
            supplies := bs,
            ports := { s.ports with
              rest := [], inPos := 0, inBits := BitVec.ofNat 64 (8 * b.length), log := s.ports.log ++ [.closeIn] },
            freq := m, nodes := { queue := [], used := 2 * r.leafCount - 1 }, root := some r, ct := deriveCodes r,
            ctValid := true, hdrFmt := f, measured := true,
            origBits := BitVec.ofNat 64 ((inputSymbols s.par b).length * s.par.w),
            treeLen := BitVec.ofNat 32 (treeBits s.par r),
            acctBits := BitVec.ofNat 64 (accountedBits s.par f m r (deriveCodes r)),
            savings := BitVec.ofInt 64 (((inputSymbols s.par b).length * s.par.w : Nat)
              - (accountedBits s.par f m r (deriveCodes r) : Nat)),
            result0 := (BitVec.ofInt 64 (((inputSymbols s.par b).length * s.par.w : Nat)
              - (accountedBits s.par f m r (deriveCodes r) : Nat))).extractLsb' 0 32,
            result1 := (BitVec.ofInt 64 (((inputSymbols s.par b).length * s.par.w : Nat)
              - (accountedBits s.par f m r (deriveCodes r) : Nat))).extractLsb' 32 32,
            result2 := 0, engine := .idle, done := true })
  ∧ ∀ (f : HdrFmt) (s : State) (b : List Byte) (bs : List (List Byte)) (pre post : List Nat) (u : Nat),
      s.par.legal = true → s.supplies = b :: bs → inputSymbols s.par b = pre ++ u :: post →
      (∀ v, pre.count v < 2 ^ 32) → pre.count u = 2 ^ 32 - 1 →
      ∃ m, Memory.wf s.par.alphSize m = true ∧ (∀ v, v < s.par.alphSize → (freqGet m v).toNat = pre.count v)
        ∧ exec (.measure f) s = .next { s with
            supplies := bs,
            ports := { s.ports with
              rest := [], inPos := 0, inBits := BitVec.ofNat 64 ((pre.length + 1) * s.par.w),
              log := s.ports.log ++ [.closeIn] },
            freq := m, measured := false, err := some .countOverflow, errOp := 0x30#8, engine := .idle, done := true }

/-- R245: COMPRESS in its four cases. That a supply presented for a COMPRESS that reads nothing is released with it is the
model's choice (notes/assumptions/4.md), and that the counters are cleared before the check of MEASURED, as R245's
pseudocode has it, is read against R325's sentence (notes/assumptions/16.md). -/
def Obligations.CompressCommand : Prop :=
  encode (.compress false) = 0x31000000#32 ∧ encode (.compress true) = 0x31000001#32
  ∧ (∀ (force : Bool) (s : State), s.ports.outPend = [] → s.measured = false →
      exec (.compress force) s = .next { s with
        supplies := s.supplies.tail,
        ports := {
          rest := [], inPos := 0, inBits := 0, outPend := [], bitsWritten := 0,
          log := s.ports.log ++ [.closeOut, .closeIn] },
        err := some .preconditionViolation, errOp := 0x31#8, engine := .idle, done := true })
  ∧ (∀ (s : State), s.ports.outPend = [] → s.measured = true → ¬ 0 < s.savings.toInt →
      exec (.compress false) s = .next { s with
        supplies := s.supplies.tail,
        ports := {
          rest := [], inPos := 0, inBits := 0, outPend := [], bitsWritten := 0,
          log := s.ports.log ++ [.closeOut, .closeIn] },
        result0 := 0, result1 := 0, result2 := 0, engine := .idle, done := true })
  ∧ (∀ (force : Bool) (s : State) (b : List Byte) (bs : List (List Byte)) (t : HuffTree), s.par.legal = true →
      s.ports.outPend = [] → s.measured = true → (0 < s.savings.toInt ∨ force = true) → s.root = some t →
      s.supplies = b :: bs → (∀ u ∈ inputSymbols s.par b, codeGet s.ct u ≠ none) →
      exec (.compress force) s = .next { s with
        supplies := bs,
        ports := {
          rest := [], inPos := 0, inBits := BitVec.ofNat 64 (8 * b.length), outPend := [],
          bitsWritten := BitVec.ofNat 64
            (streamString s.par s.hdrFmt s.freq t s.ct (inputSymbols s.par b)).length,
          log := s.ports.log
            ++ (packBytes (streamString s.par s.hdrFmt s.freq t s.ct (inputSymbols s.par b))).map .byte
            ++ [.closeOut, .closeIn] },
        result0 := (BitVec.ofNat 64
            (streamString s.par s.hdrFmt s.freq t s.ct (inputSymbols s.par b)).length).extractLsb' 0 32,
        result1 := (BitVec.ofNat 64
            (streamString s.par s.hdrFmt s.freq t s.ct (inputSymbols s.par b)).length).extractLsb' 32 32,
        result2 := 0, engine := .idle, done := true })
  ∧ ∀ (force : Bool) (s : State) (b : List Byte) (bs : List (List Byte)) (t : HuffTree) (pre post : List Nat) (u : Nat),
      s.par.legal = true → s.ports.outPend = [] → s.measured = true → (0 < s.savings.toInt ∨ force = true) →
      s.root = some t → s.supplies = b :: bs → inputSymbols s.par b = pre ++ u :: post →
      (∀ v ∈ pre, codeGet s.ct v ≠ none) → codeGet s.ct u = none →
      exec (.compress force) s = .next { s with
        supplies := bs,
        ports := {
          rest := [], inPos := 0, inBits := BitVec.ofNat 64 ((pre.length + 1) * s.par.w), outPend := [],
          bitsWritten := BitVec.ofNat 64 (headerString s.par s.hdrFmt s.freq t ++ codesString s.ct pre).length,
          log := s.ports.log
            ++ (packBytes (headerString s.par s.hdrFmt s.freq t ++ codesString s.ct pre)).map .byte
            ++ [.closeOut, .closeIn] },
        err := some .noCode, errOp := 0x31#8, engine := .idle, done := true }

/-- R248, first part: COMPRESS of the supply that MEASURE counted writes exactly the accounted bits: BITS_WRITTEN = ACCT_BITS, which
it returns, and ceil(ACCT_BITS / 8) bytes are sent. -/
def Obligations.WrittenEqualsAccounted : Prop :=
  ∀ (f : HdrFmt) (s : State) (b : List Byte) (bs : List (List Byte)), s.par.legal = true → s.ports.outPend = [] →
    s.supplies = b :: b :: bs → (∀ u, (inputSymbols s.par b).count u < 2 ^ 32) →
    ∃ (s1 s2 : State) (out : List Byte), exec (.measure f) s = .next s1 ∧ exec (.compress true) s1 = .next s2
      ∧ s2.ports.bitsWritten = s1.acctBits ∧ s2.result0 = s1.acctBits.extractLsb' 0 32
      ∧ s2.result1 = s1.acctBits.extractLsb' 32 32 ∧ s2.err = s.err
      ∧ s2.ports.log = s1.ports.log ++ out.map .byte ++ [.closeOut, .closeIn]
      ∧ out.length = (s1.acctBits.toNat + 7) / 8

/-- R249: N copies of one symbol, N >= 2, format TREE at W = 8: a one-bit code, ACCT_BITS = N + 118, ORIG_BITS = 8N; plain
COMPRESS then writes the stream exactly when N >= 17. -/
def Obligations.SkewedInput : Prop :=
  ∀ (s : State) (a : Byte) (n : Nat) (bs : List (List Byte)), s.par.legal = true → s.par.w = 8 → s.ports.outPend = [] →
    2 ≤ n → n < 2 ^ 32 → s.supplies = List.replicate n a :: List.replicate n a :: bs →
    ∃ (s1 s2 : State) (out : List Byte), exec (.measure .tree) s = .next s1
      ∧ s1.root = some (.node (BitVec.ofNat 64 (n + 1)) (.leaf 256 1) (.leaf (a.zeroExtend 16) (BitVec.ofNat 64 n)))
      ∧ codeGet s1.ct a.toNat = some [true] ∧ codeGet s1.ct 256 = some [false]
      ∧ s1.origBits.toNat = 8 * n ∧ s1.acctBits.toNat = n + 118 ∧ s1.savings.toInt = 7 * (n : Int) - 118
      ∧ exec (.compress false) s1 = .next s2
      ∧ s2.ports.log = s1.ports.log ++ out.map .byte ++ [.closeOut, .closeIn]
      ∧ (out ≠ [] ↔ 17 ≤ n) ∧ (17 ≤ n → out.length = (n + 118 + 7) / 8)

/-! ### The decoder (spec/45_decoder.md) -/

/-- R270, R215, R273 to R275, R325: DECOMPRESS of a stream with a TREE header. It completes where the header is whole and
the paths end at EOS: it sends the symbols the paths lead to, W bits each, and reads no bit behind the EOS code, whatever
follows it. TRUNCATED_STREAM: a supply that ends inside the length field, inside the tree (before a node's first bit, or
inside a leaf's value), or inside a walk. MALFORMED_TREE: a leaf value above EOS, a node with the store full, a root that
is a leaf other than EOS. -/
def Obligations.DecompressTreeStream : Prop :=
  (∀ (s : State) (b : List Byte) (bs : List (List Byte)) (t : HuffTree) (field : Nat) (paths : List (List Bool))
    (syms : List Nat) (last more : List Bool), s.par.legal = true → s.ports.outPend = [] → s.supplies = b :: bs →
    t.symbolsLegal s.par = true → t.size ≤ s.par.nodeCap → field < 2 ^ 32 →
    (∀ x ∈ syms, x ≠ s.par.eos) → paths.map t.follow = syms.map some → t.follow last = some s.par.eos →
    supplyBits b = bitsMsb 32 s.par.magic.toNat ++ bitsMsb 32 s.par.tagTree.toNat ++ bitsMsb 32 field
      ++ treeString s.par t ++ paths.flatten ++ last ++ more →
    exec .decompress s = .next { s with
      supplies := bs, measured := false, root := some t.strip, ct := [], ctValid := false,
      nodes := { queue := [], used := t.size }, treeLen := BitVec.ofNat 32 field,
      tlenMismatch := decide (field ≠ treeBits s.par t),
      ports := {
        rest := [], inPos := 0,
        inBits := BitVec.ofNat 64 (96 + treeBits s.par t + paths.flatten.length + last.length), outPend := [],
        bitsWritten := BitVec.ofNat 64 (syms.length * s.par.w),
        log := s.ports.log ++ (packBytes (unitsString s.par syms)).map .byte ++ [.closeOut, .closeIn] },
      result0 := (BitVec.ofNat 64 (syms.length * s.par.w)).extractLsb' 0 32,
      result1 := (BitVec.ofNat 64 (syms.length * s.par.w)).extractLsb' 32 32,
      result2 := 0, engine := .idle, done := true })
  ∧ (∀ (s : State) (b : List Byte) (bs : List (List Byte)) (short : List Bool), s.par.legal = true →
      s.ports.outPend = [] → s.supplies = b :: bs → short.length < 32 →
      supplyBits b = bitsMsb 32 s.par.magic.toNat ++ bitsMsb 32 s.par.tagTree.toNat ++ short →
      exec .decompress s = .next (decompressFailed .truncatedStream 0 0 (8 * b.length) [] s))
  ∧ (∀ (s : State) (b : List Byte) (bs : List (List Byte)) (field : Nat) (place : ParsePlace) (tail : List Bool),
      s.par.legal = true → s.ports.outPend = [] → s.supplies = b :: bs → field < 2 ^ 32 → place.legal s.par = true →
      place.nodes ≤ s.par.nodeCap →
      supplyBits b = bitsMsb 32 s.par.magic.toNat ++ bitsMsb 32 s.par.tagTree.toNat ++ bitsMsb 32 field
        ++ place.bits s.par ++ tail →
      (tail = [] ∨ (∃ short, tail = true :: short ∧ short.length < s.par.vw) →
        exec .decompress s = .next (decompressFailed .truncatedStream place.nodes (BitVec.ofNat 32 field)
          (8 * b.length) [] s))
      ∧ (∀ v more, tail = true :: bitsMsb s.par.vw v ++ more → s.par.eos < v → v < 2 ^ s.par.vw →
        exec .decompress s = .next (decompressFailed .malformedTree place.nodes (BitVec.ofNat 32 field)
          (96 + (place.bits s.par).length + 1 + s.par.vw) [] s))
      ∧ (∀ v more, tail = true :: bitsMsb s.par.vw v ++ more → v ≤ s.par.eos → place.nodes = s.par.nodeCap →
        exec .decompress s = .next (decompressFailed .malformedTree place.nodes (BitVec.ofNat 32 field)
          (96 + (place.bits s.par).length + 1 + s.par.vw) [] s))
      ∧ ∀ more, tail = false :: more → place.nodes = s.par.nodeCap →
        exec .decompress s = .next (decompressFailed .malformedTree place.nodes (BitVec.ofNat 32 field)
          (96 + (place.bits s.par).length + 1) [] s))
  ∧ (∀ (s : State) (b : List Byte) (bs : List (List Byte)) (field v : Nat) (more : List Bool), s.par.legal = true →
      s.ports.outPend = [] → s.supplies = b :: bs → field < 2 ^ 32 → v < s.par.eos →
      supplyBits b = bitsMsb 32 s.par.magic.toNat ++ bitsMsb 32 s.par.tagTree.toNat ++ bitsMsb 32 field
        ++ true :: bitsMsb s.par.vw v ++ more →
      exec .decompress s = .next { decompressFailed .malformedTree 1 (BitVec.ofNat 32 field) (97 + s.par.vw) [] s with
        tlenMismatch := decide (field ≠ 1 + s.par.vw) })
  ∧ ∀ (s : State) (b : List Byte) (bs : List (List Byte)) (t : HuffTree) (field : Nat) (paths : List (List Bool))
      (syms : List Nat) (part : List Bool), s.par.legal = true → s.ports.outPend = [] → s.supplies = b :: bs →
      t.symbolsLegal s.par = true → t.size ≤ s.par.nodeCap → field < 2 ^ 32 →
      (∀ x ∈ syms, x ≠ s.par.eos) → paths.map t.follow = syms.map some → t.leadsInside part = true →
      supplyBits b = bitsMsb 32 s.par.magic.toNat ++ bitsMsb 32 s.par.tagTree.toNat ++ bitsMsb 32 field
        ++ treeString s.par t ++ paths.flatten ++ part →
      exec .decompress s = .next {
        decompressFailed .truncatedStream t.size (BitVec.ofNat 32 field) (8 * b.length) (unitsString s.par syms) s with
        root := some t.strip, tlenMismatch := decide (field ≠ treeBits s.par t) }

/-- R270, R213, R273 to R275, R325: DECOMPRESS of a stream with a COUNTS header. It completes where the header is whole
and the paths end at EOS: FREQ is the counts, the tree is built from them, and the symbols are sent. TRUNCATED_STREAM: a
supply that ends inside the counts, with FREQ the k counts read and 0 for the other symbols, or inside a walk. -/
def Obligations.DecompressCountsStream : Prop :=
  (∀ (s : State) (b : List Byte) (bs : List (List Byte)) (m : Memory) (t : HuffTree) (st : NodeStore)
    (paths : List (List Bool)) (syms : List Nat) (last more : List Bool), s.par.legal = true → s.ports.outPend = [] →
    s.supplies = b :: bs → Memory.wf s.par.alphSize m = true → buildTree (loadFreq s.par m) = some (t, st) →
    (∀ x ∈ syms, x ≠ s.par.eos) → paths.map t.follow = syms.map some → t.follow last = some s.par.eos →
    supplyBits b = bitsMsb 32 s.par.magic.toNat ++ bitsMsb 32 s.par.tagCounts.toNat ++ countsString s.par m
      ++ paths.flatten ++ last ++ more →
    exec .decompress s = .next { s with
      supplies := bs, measured := false, freq := m, root := some t, ct := [], ctValid := false, nodes := st,
      treeLen := 0, tlenMismatch := false,
      ports := {
        rest := [], inPos := 0,
        inBits := BitVec.ofNat 64 (64 + 32 * s.par.alphSize + paths.flatten.length + last.length), outPend := [],
        bitsWritten := BitVec.ofNat 64 (syms.length * s.par.w),
        log := s.ports.log ++ (packBytes (unitsString s.par syms)).map .byte ++ [.closeOut, .closeIn] },
      result0 := (BitVec.ofNat 64 (syms.length * s.par.w)).extractLsb' 0 32,
      result1 := (BitVec.ofNat 64 (syms.length * s.par.w)).extractLsb' 32 32,
      result2 := 0, engine := .idle, done := true })
  ∧ (∀ (s : State) (b : List Byte) (bs : List (List Byte)) (m : Memory) (k : Nat) (short : List Bool),
      s.par.legal = true → s.ports.outPend = [] → s.supplies = b :: bs → Memory.wf k m = true → k < s.par.alphSize →
      short.length < 32 →
      supplyBits b = bitsMsb 32 s.par.magic.toNat ++ bitsMsb 32 s.par.tagCounts.toNat
        ++ (List.range k).flatMap (fun x => bitsMsb 32 (freqGet m x).toNat) ++ short →
      exec .decompress s =
        .next { decompressFailed .truncatedStream 0 0 (8 * b.length) [] s with freq := m })
  ∧ ∀ (s : State) (b : List Byte) (bs : List (List Byte)) (m : Memory) (t : HuffTree) (st : NodeStore)
      (paths : List (List Bool)) (syms : List Nat) (part : List Bool), s.par.legal = true → s.ports.outPend = [] →
      s.supplies = b :: bs → Memory.wf s.par.alphSize m = true → buildTree (loadFreq s.par m) = some (t, st) →
      (∀ x ∈ syms, x ≠ s.par.eos) → paths.map t.follow = syms.map some → t.leadsInside part = true →
      supplyBits b = bitsMsb 32 s.par.magic.toNat ++ bitsMsb 32 s.par.tagCounts.toNat ++ countsString s.par m
        ++ paths.flatten ++ part →
      exec .decompress s = .next {
        decompressFailed .truncatedStream st.used 0 (8 * b.length) (unitsString s.par syms) s with
        freq := m, root := some t }

/-- R271, R272: a stream whose first 32 bits are not MAGIC, or that has fewer, is NOT_RECOGNIZED_FORMAT with no further
bit read; an unknown or short tag is UNSUPPORTED_HEADER_FORMAT. Nothing is sent, the fresh session stays. -/
def Obligations.DecompressHeaderErrors : Prop :=
  ∀ (s : State) (b : List Byte) (bs : List (List Byte)), s.ports.outPend = [] → s.supplies = b :: bs →
    ((supplyBits b).take 32 ≠ bitsMsb 32 s.par.magic.toNat →
      exec .decompress s = .next { s with
        supplies := bs, measured := false, root := none, ct := [], ctValid := false,
        nodes := { queue := [], used := 0 }, treeLen := 0, tlenMismatch := false,
        ports := {
          rest := [], inPos := 0, inBits := BitVec.ofNat 64 (min 32 (8 * b.length)), outPend := [],
          bitsWritten := 0, log := s.ports.log ++ [.closeOut, .closeIn] },
        err := some .notRecognizedFormat, errOp := 0x32#8, engine := .idle, done := true })
    ∧ ((supplyBits b).take 32 = bitsMsb 32 s.par.magic.toNat →
      ((supplyBits b).drop 32).take 32 ∉ [bitsMsb 32 s.par.tagCounts.toNat, bitsMsb 32 s.par.tagTree.toNat] →
      exec .decompress s = .next { s with
        supplies := bs, measured := false, root := none, ct := [], ctValid := false,
        nodes := { queue := [], used := 0 }, treeLen := 0, tlenMismatch := false,
        ports := {
          rest := [], inPos := 0, inBits := BitVec.ofNat 64 (min 64 (8 * b.length)), outPend := [],
          bitsWritten := 0, log := s.ports.log ++ [.closeOut, .closeIn] },
        err := some .unsupportedHeaderFormat, errOp := 0x32#8, engine := .idle, done := true })

/-- R270: what DECOMPRESS leaves alone on every path, with or without an error; FREQ too, unless the stream begins with
MAGIC and TAG_COUNTS. -/
def Obligations.DecompressFrame : Prop :=
  ∀ (s t : State) (b : List Byte) (bs : List (List Byte)), s.supplies = b :: bs → exec .decompress s = .next t →
    t.par = s.par ∧ t.irqEn = s.irqEn ∧ t.dropped = s.dropped ∧ t.arg0 = s.arg0 ∧ t.ctSel = s.ctSel
    ∧ t.hdrFmt = s.hdrFmt ∧ t.origBits = s.origBits ∧ t.acctBits = s.acctBits ∧ t.savings = s.savings
    ∧ t.measured = false ∧ t.ct = [] ∧ t.ctValid = false ∧ t.supplies = bs ∧ t.script = s.script
    ∧ t.reads = s.reads ∧ t.draws = s.draws
    ∧ ((supplyBits b).take 64 ≠ bitsMsb 32 s.par.magic.toNat ++ bitsMsb 32 s.par.tagCounts.toNat → t.freq = s.freq)

/-- R277: COMPRESS FORCE after MEASURE of a supply produces a stream that DECOMPRESS turns back into the input symbols
with no error, in either format; at W = 8 the bytes sent are the supply's bytes. -/
def Obligations.RoundTrip : Prop :=
  ∀ (f : HdrFmt) (s : State) (b : List Byte) (bs : List (List Byte)), s.par.legal = true → s.ports.outPend = [] →
    s.err = none → s.supplies = b :: b :: bs → (∀ u, (inputSymbols s.par b).count u < 2 ^ 32) →
    ∃ (s1 s2 s3 : State) (out back : List Byte), exec (.measure f) s = .next s1 ∧ exec (.compress true) s1 = .next s2
      ∧ s2.ports.log = s1.ports.log ++ out.map .byte ++ [.closeOut, .closeIn]
      ∧ exec .decompress { s2 with supplies := out :: bs } = .next s3
      ∧ s3.err = none ∧ s3.ports.log = s2.ports.log ++ back.map .byte ++ [.closeOut, .closeIn]
      ∧ back = packBytes (unitsString s.par (inputSymbols s.par b)) ∧ (s.par.w = 8 → back = b)
      ∧ s3.ports.bitsWritten = s1.origBits ∧ s3.ports.inBits = s1.acctBits

/-! ### Errors over all commands (spec/60_exceptions.md) -/

/-- R324: a command raises no error but those of its row, and ERR_OP is its opcode (R321). -/
def Obligations.CommandsRaiseOnlyTheirErrors : Prop :=
  ∀ (i : Instr) (s t : State) (e : ErrCode), s.err = none → exec i s = .next t → t.err = some e →
    e ∈ errorsOf i ∧ t.errOp = i.opcode ∧ t.engine = .idle ∧ t.done = true

/-- R51, R321: a command that ends in an error leaves RESULT0, RESULT1 and RESULT2 as they were. -/
def Obligations.ErrorsKeepResults : Prop :=
  ∀ (i : Instr) (s t : State) (e : ErrCode), s.err = none → exec i s = .next t → t.err = some e →
    t.result0 = s.result0 ∧ t.result1 = s.result1 ∧ t.result2 = s.result2

/-- R325: an error of a command that is no stream command changes nothing but the error fields, BUSY and DONE. -/
def Obligations.PlainErrorsArePrecise : Prop :=
  ∀ (i : Instr) (s t : State) (e : ErrCode), i.isStream = false → s.err = none → exec i s = .next t → t.err = some e →
    t = { s with err := some e, errOp := i.opcode, engine := .idle, done := true }

/-! ### Whole-machine rules and invariants -/

/-- R40: MEASURED becomes 1 only by MEASURE, and stays 1 under COMPRESS, CT_DERIVE, Q_ENQ_LEAF, Q_PEEK, Q_DEQUEUE, Q_MERGE,
NOP and CLEAR_ERROR; the commands R40 lists clear it. -/
def Obligations.MeasuredOnlyByMeasure : Prop :=
  ∀ (i : Instr) (s t : State), exec i s = .next t →
    (t.measured = true → s.measured = true ∨ ∃ f, i = .measure f)
    ∧ (i ∈ [.qClear, .qLoadFreq, .sessionReset] → t.measured = false)
    ∧ (i = .treeBuild → s.err = none → t.err = none → t.measured = false) ∧ (i = .decompress → t ≠ s → t.measured = false)
    ∧ ((i ∈ [.ctDerive, .qPeek, .qDequeue, .qMerge, .nop, .clearError] ∨ (∃ f, i = .compress f) ∨ ∃ y, i = .qEnqLeaf y) →
        t.measured = s.measured)

/-- R47, R50, R54: no command writes CTRL, and none but SESSION_RESET writes ARG0 or CT_SEL. -/
def Obligations.HostRegistersKept : Prop :=
  ∀ (i : Instr) (s t : State), exec i s = .next t →
    t.irqEn = s.irqEn ∧ (i ≠ .sessionReset → t.arg0 = s.arg0 ∧ t.ctSel = s.ctSel)

/-- R7, R53: the parameters never change. -/
def Obligations.ParametersNeverChange : Prop := ∀ s t : State, step s = .next t → t.par = s.par

/-- R56 a, b, R36, R166: every step keeps the queue sorted, the capacities, the count of nodes, the symbols legal and the
weights exact. -/
def Obligations.StepKeepsStoreSound : Prop := ∀ s t : State, StoreSound s → step s = .next t → StoreSound t

/-- R56 e, f, R323, R35: every step keeps the control state, FREQ's and CT's canonical form and the ports sound. -/
def Obligations.StepKeepsControlSound : Prop := ∀ s t : State, ControlSound s → step s = .next t → ControlSound t

/-- R56 c, d: every step keeps the session sound: CT is the table of ROOT, and a measured session's tree and accounting
are those of FREQ. -/
def Obligations.StepKeepsSessionSound : Prop := ∀ s t : State, SessionSound s → step s = .next t → SessionSound t

/-- R57, R350: the reset state is sound, for every legal choice of the parameters. -/
def Obligations.ResetIsSound : Prop :=
  ∀ p : Params, p.legal = true →
    StoreSound (State.resetWith p) ∧ ControlSound (State.resetWith p) ∧ SessionSound (State.resetWith p)
end

