-- ==== Sys2Proof/Laws/Bits.lean ====
section
/-!
SUPPORT. Bit strings: lengths, and that a field written most significant bit first reads back as its value (R9, R73).
-/

namespace Sys2Proof.Machine

@[simp] theorem bitsMsb_length (n v : Nat) : (bitsMsb n v).length = n := by
  induction n with
  | zero => rfl
  | succ n ih => simp [bitsMsb, ih]

/-- Folding a bit string on top of a value shifts the value up. -/
theorem foldl_bits (b : List Bool) (a : Nat) :
    b.foldl (fun acc x => 2 * acc + x.toNat) a = a * 2 ^ b.length + bitsToNat b := by
  induction b generalizing a with
  | nil => simp [bitsToNat]
  | cons x b ih =>
    unfold bitsToNat
    rw [List.foldl_cons, List.foldl_cons, ih, ih (2 * 0 + x.toNat)]
    simp only [List.length_cons, pow_succ]
    ring

@[simp] theorem bitsToNat_nil : bitsToNat [] = 0 := rfl

theorem bitsToNat_cons (x : Bool) (b : List Bool) : bitsToNat (x :: b) = x.toNat * 2 ^ b.length + bitsToNat b := by
  conv_lhs => unfold bitsToNat
  rw [List.foldl_cons, foldl_bits]
  simp

theorem bitsToNat_append (a b : List Bool) : bitsToNat (a ++ b) = bitsToNat a * 2 ^ b.length + bitsToNat b := by
  unfold bitsToNat
  rw [List.foldl_append, foldl_bits]
  rfl

/-- A bit string's value fits its length. -/
theorem bitsToNat_lt (b : List Bool) : bitsToNat b < 2 ^ b.length := by
  induction b with
  | nil => simp
  | cons x b ih =>
    rw [bitsToNat_cons, List.length_cons, pow_succ]
    cases x <;> simp <;> omega

/-- A field of n bits reads back as its value modulo 2^n. -/
theorem bitsToNat_bitsMsb (n v : Nat) : bitsToNat (bitsMsb n v) = v % 2 ^ n := by
  induction n with
  | zero => simp [bitsMsb, Nat.mod_one]
  | succ n ih =>
    rw [bitsMsb, bitsToNat_cons, ih, bitsMsb_length, Nat.mod_pow_succ, Nat.toNat_testBit]
    ring

/-- A field whose value fits reads back as that value. -/
theorem bitsToNat_bitsMsb_of_lt {n v : Nat} (h : v < 2 ^ n) : bitsToNat (bitsMsb n v) = v := by
  rw [bitsToNat_bitsMsb, Nat.mod_eq_of_lt h]

/-- The field of a bit string's value is the bit string. -/
theorem bitsMsb_bitsToNat (b : List Bool) : bitsMsb b.length (bitsToNat b) = b := by
  have key : ∀ (b : List Bool) (a : Nat), bitsMsb b.length (a * 2 ^ b.length + bitsToNat b) = b := by
    intro b
    induction b with
    | nil => intro a; rfl
    | cons x b ih =>
      intro a
      rw [List.length_cons, bitsMsb, bitsToNat_cons]
      have hlt := bitsToNat_lt b
      have e : a * 2 ^ (b.length + 1) + (x.toNat * 2 ^ b.length + bitsToNat b)
          = (2 * a + x.toNat) * 2 ^ b.length + bitsToNat b := by rw [pow_succ]; ring
      rw [e, ih (2 * a + x.toNat)]
      congr 1
      rw [Nat.testBit, Nat.shiftRight_eq_div_pow, Nat.add_comm, Nat.add_mul_div_right _ _ (by positivity),
        Nat.div_eq_of_lt hlt]
      cases x <;> simp
  simpa using key b 0

@[simp] theorem byteBits_length (b : Byte) : (byteBits b).length = 8 := by simp [byteBits]

@[simp] theorem supplyBits_nil : supplyBits [] = [] := rfl

@[simp] theorem supplyBits_cons (b : Byte) (bs : List Byte) : supplyBits (b :: bs) = byteBits b ++ supplyBits bs := rfl

@[simp] theorem supplyBits_append (a b : List Byte) : supplyBits (a ++ b) = supplyBits a ++ supplyBits b := by
  simp [supplyBits]

/-- A supply of m bytes holds 8m bits (R76). -/
@[simp] theorem supplyBits_length (bs : List Byte) : (supplyBits bs).length = 8 * bs.length := by
  induction bs with
  | nil => rfl
  | cons b bs ih => simp [ih]; omega

/-- A byte's bits pack into the byte again (R73). -/
@[simp] theorem packByte_byteBits (b : Byte) : packByte (byteBits b) = b := by
  unfold packByte byteBits
  rw [bitsToNat_bitsMsb_of_lt b.isLt]
  simp

/-- Eight bits are the bits of the byte they pack into (R73). -/
theorem byteBits_packByte {b : List Bool} (h : b.length = 8) : byteBits (packByte b) = b := by
  unfold packByte byteBits
  have hlt := bitsToNat_lt b
  rw [h] at hlt
  rw [BitVec.toNat_ofNat, Nat.mod_eq_of_lt hlt, ← h, bitsMsb_bitsToNat]

@[simp] theorem padTake_length {n : Nat} {b : List Bool} : (padTake n b).length = n := by
  simp [padTake]; omega

theorem padTake_of_le {n : Nat} {b : List Bool} (h : n ≤ b.length) : padTake n b = b.take n := by
  simp [padTake, Nat.sub_eq_zero_of_le h]

end Sys2Proof.Machine
end

