-- ==== Sys2Proof/Laws/Nodes.lean ====
section
/-!
SUPPORT. The queue and the tree builder: what each primitive does to the queue, to NODES_USED and to the trees held
(R130 to R133, R160 to R164).
-/

namespace Sys2Proof.Machine

/-! ### Enqueue (R131) -/

/-- The queue before the insertion point and after it make up the queue. -/
theorem enqueue_perm (n : HuffTree) (q : List HuffTree) : (enqueue n q).Perm (n :: q) := by
  unfold enqueue
  exact List.perm_middle.trans (by rw [List.take_append_drop])

@[simp] theorem enqueue_length (n : HuffTree) (q : List HuffTree) : (enqueue n q).length = q.length + 1 := by
  simpa using (enqueue_perm n q).length_eq

@[simp] theorem mem_enqueue {n t : HuffTree} {q : List HuffTree} : t ∈ enqueue n q ↔ t = n ∨ t ∈ q := by
  rw [(enqueue_perm n q).mem_iff, List.mem_cons]

/-- Where the loop of R131 stops: the nodes behind the position are heavier, the one before it is not. -/
theorem enqueue_split (n : HuffTree) (q : List HuffTree) :
    ∃ a b, q = a ++ b ∧ enqueue n q = a ++ n :: b ∧ (∀ x ∈ b, n.wt < x.wt)
      ∧ (∀ x, a.getLast? = some x → ¬ n.wt < x.wt) := by
  have hsplit := List.takeWhile_append_dropWhile (p := fun x => decide (n.wt < x.wt)) (l := q.reverse)
  refine ⟨q.take (enqueuePos n q), q.drop (enqueuePos n q), (List.take_append_drop _ _).symm, rfl, ?_, ?_⟩
  all_goals
    have hq : q = (q.reverse.dropWhile (fun x => decide (n.wt < x.wt))).reverse
        ++ (q.reverse.takeWhile (fun x => decide (n.wt < x.wt))).reverse := by
      rw [← List.reverse_append, hsplit, List.reverse_reverse]
    have hpos : enqueuePos n q = (q.reverse.dropWhile (fun x => decide (n.wt < x.wt))).reverse.length := by
      have := congrArg List.length hq
      simp only [List.length_append, List.length_reverse] at this
      unfold enqueuePos
      rw [List.length_reverse]
      omega
  · have hdrop : q.drop (enqueuePos n q) = (q.reverse.takeWhile (fun x => decide (n.wt < x.wt))).reverse := by
      conv_lhs => rw [hpos]; arg 2; rw [hq]
      rw [List.drop_left]
    intro x hx
    rw [hdrop, List.mem_reverse] at hx
    simpa using List.mem_takeWhile_imp hx
  · have htake : q.take (enqueuePos n q) = (q.reverse.dropWhile (fun x => decide (n.wt < x.wt))).reverse := by
      conv_lhs => rw [hpos]; arg 2; rw [hq]
      rw [List.take_left]
    intro x hx
    rw [htake, List.getLast?_reverse] at hx
    have := List.head?_dropWhile_not (fun x => decide (n.wt < x.wt)) q.reverse
    rw [hx] at this
    simpa using this

/-- In a sorted queue every node before the insertion point is at most as heavy (R131). -/
theorem enqueue_split_sorted {n : HuffTree} {q : List HuffTree} (h : queueSorted q) :
    ∃ a b, q = a ++ b ∧ enqueue n q = a ++ n :: b ∧ (∀ x ∈ a, x.wt ≤ n.wt) ∧ (∀ x ∈ b, n.wt < x.wt) := by
  obtain ⟨a, b, hq, he, hb, ha⟩ := enqueue_split n q
  refine ⟨a, b, hq, he, ?_, hb⟩
  intro x hx
  obtain ⟨l, hl⟩ : ∃ l, a.getLast? = some l := by
    cases a with
    | nil => cases hx
    | cons y ys => exact ⟨_, List.getLast?_cons⟩
  have hsa : a.Pairwise (fun a b => a.wt ≤ b.wt) := by
    subst hq
    exact (List.pairwise_append.1 h).1
  have hle : x.wt ≤ l.wt := by
    obtain ⟨ys, rfl⟩ := List.getLast?_eq_some_iff.1 hl
    rcases List.mem_append.1 hx with hx | hx
    · exact (List.pairwise_append.1 hsa).2.2 x hx l (by simp)
    · simp at hx; subst hx; exact BitVec.le_refl _
  exact BitVec.le_trans hle (BitVec.not_lt.1 (ha l hl))

/-- Enqueue keeps the queue sorted (R130). -/
theorem queueSorted_enqueue {n : HuffTree} {q : List HuffTree} (h : queueSorted q) : queueSorted (enqueue n q) := by
  obtain ⟨a, b, hq, he, ha, hb⟩ := enqueue_split_sorted (n := n) h
  rw [he]
  subst hq
  obtain ⟨h1, h2, h3⟩ := List.pairwise_append.1 h
  refine List.pairwise_append.2 ⟨h1, List.pairwise_cons.2 ⟨fun x hx => BitVec.le_of_lt (hb x hx), h2⟩, ?_⟩
  intro x hx y hy
  rcases List.mem_cons.1 hy with rfl | hy
  · exact ha x hx
  · exact h3 x hx y hy

/-! ### The store's operations (R132, R133, R160) -/

@[simp] theorem allocEnqueue_queue (st : NodeStore) (x : HuffTree) : (allocEnqueue st x).queue = enqueue x st.queue := rfl

@[simp] theorem allocEnqueue_used (st : NodeStore) (x : HuffTree) : (allocEnqueue st x).used = st.used + 1 := rfl

/-- Everything Dequeue can do. -/
theorem dequeue_eq_some {st st' : NodeStore} {n : HuffTree} :
    dequeue st = some (n, st') ↔ ∃ q, st.queue = n :: q ∧ st' = { st with queue := q } := by
  unfold dequeue
  cases h : st.queue with
  | nil => simp
  | cons a q =>
    simp only [Option.some.injEq, Prod.mk.injEq, List.cons.injEq]
    constructor
    · rintro ⟨rfl, rfl⟩; exact ⟨q, ⟨rfl, rfl⟩, rfl⟩
    · rintro ⟨q', ⟨rfl, rfl⟩, rfl⟩; exact ⟨rfl, rfl⟩

theorem dequeue_eq_none {st : NodeStore} : dequeue st = none ↔ st.queue = [] := by
  unfold dequeue
  cases st.queue <;> simp

/-- Everything Merge can do: the two lightest nodes become the children of a new node, enqueued (R160). -/
theorem merge_eq_some {st st' : NodeStore} {n : HuffTree} :
    merge st = some (n, st') ↔ ∃ a b q, st.queue = a :: b :: q ∧ n = .node (a.wt + b.wt) a b
      ∧ st' = { queue := enqueue n q, used := st.used + 1 } := by
  unfold merge
  rcases h : st.queue with _ | ⟨a, _ | ⟨b, q⟩⟩
  · simp
  · simp
  · simp only [Option.some.injEq, Prod.mk.injEq, List.cons.injEq]
    constructor
    · rintro ⟨rfl, rfl⟩; exact ⟨a, b, q, ⟨rfl, rfl, rfl⟩, rfl, rfl⟩
    · rintro ⟨a', b', q', ⟨rfl, rfl, rfl⟩, rfl, rfl⟩; exact ⟨rfl, rfl⟩

theorem merge_eq_none {st : NodeStore} : merge st = none ↔ st.queue.length < 2 := by
  unfold merge
  rcases h : st.queue with _ | ⟨a, _ | ⟨b, q⟩⟩ <;> simp

/-- A merge takes one node off the queue's length and adds one to NODES_USED (R160). -/
theorem merge_counts {st st' : NodeStore} {n : HuffTree} (h : merge st = some (n, st')) :
    st'.queue.length + 1 = st.queue.length ∧ st'.used = st.used + 1 := by
  obtain ⟨a, b, q, hq, rfl, rfl⟩ := merge_eq_some.1 h
  simp [hq]

/-- A merge keeps the queue sorted (R130). -/
theorem merge_sorted {st st' : NodeStore} {n : HuffTree} (h : merge st = some (n, st')) (hs : queueSorted st.queue) :
    queueSorted st'.queue := by
  obtain ⟨a, b, q, hq, rfl, rfl⟩ := merge_eq_some.1 h
  rw [hq] at hs
  exact queueSorted_enqueue (List.pairwise_cons.1 (List.pairwise_cons.1 hs).2).2

/-- A merge keeps the leaves held by the queue (R168 a). -/
theorem merge_leaves {st st' : NodeStore} {n : HuffTree} (h : merge st = some (n, st')) :
    (st'.queue.flatMap HuffTree.leaves).Perm (st.queue.flatMap HuffTree.leaves) := by
  obtain ⟨a, b, q, hq, rfl, rfl⟩ := merge_eq_some.1 h
  rw [hq]
  refine ((enqueue_perm _ _).flatMap_right _).trans ?_
  simp [HuffTree.leaves]

/-- A property of trees that a merged node inherits from its children holds of the whole queue after a merge. -/
theorem merge_forall {st st' : NodeStore} {n : HuffTree} {P : HuffTree → Prop}
    (hP : ∀ a b, P a → P b → P (.node (a.wt + b.wt) a b)) (h : merge st = some (n, st')) (hq : ∀ t ∈ st.queue, P t) :
    ∀ t ∈ st'.queue, P t := by
  obtain ⟨a, b, q, hq', rfl, rfl⟩ := merge_eq_some.1 h
  rw [hq'] at hq
  intro t ht
  rcases mem_enqueue.1 ht with rfl | ht
  · exact hP a b (hq a (by simp)) (hq b (by simp))
  · exact hq t (by simp [ht])

/-! ### BuildTree (R164) -/

/-- An invariant of merging holds after the loop. -/
theorem mergeLoop_induct {P : NodeStore → Prop} (hP : ∀ st n st', merge st = some (n, st') → P st → P st')
    (k : Nat) (st : NodeStore) (h : P st) : P (mergeLoop k st) := by
  induction k generalizing st with
  | zero => exact h
  | succ k ih =>
    unfold mergeLoop
    cases hm : merge st with
    | none => exact h
    | some p => exact ih _ (hP _ p.1 p.2 hm h)

/-- The loop's turns on a queue of k + 1 nodes or more: k merges. -/
theorem mergeLoop_counts (k : Nat) (st : NodeStore) (h : k < st.queue.length) :
    (mergeLoop k st).queue.length + k = st.queue.length ∧ (mergeLoop k st).used = st.used + k := by
  induction k generalizing st with
  | zero => simp [mergeLoop]
  | succ k ih =>
    unfold mergeLoop
    cases hm : merge st with
    | none =>
      have := merge_eq_none.1 hm
      omega
    | some p =>
      obtain ⟨h1, h2⟩ := merge_counts hm
      obtain ⟨h3, h4⟩ := ih p.2 (by omega)
      simp only
      omega

/-- Everything BuildTree can do on a queue that is not empty: QSIZE - 1 merges, the root, an empty queue (R164). -/
theorem buildTree_of_ne_nil {st : NodeStore} (h : st.queue ≠ []) :
    ∃ r, buildTree st = some (r, { queue := [], used := st.used + (st.queue.length - 1) })
      ∧ (mergeLoop (st.queue.length - 1) st).queue = [r] := by
  have hl : 0 < st.queue.length := List.length_pos_iff.2 h
  obtain ⟨h1, h2⟩ := mergeLoop_counts (st.queue.length - 1) st (by omega)
  have h3 : (mergeLoop (st.queue.length - 1) st).queue.length = 1 := by omega
  obtain ⟨r, hr⟩ := List.length_eq_one_iff.1 h3
  refine ⟨r, ?_, hr⟩
  unfold buildTree dequeue
  rw [hr]
  simp [h2]

theorem buildTree_eq_none {st : NodeStore} : buildTree st = none ↔ st.queue = [] := by
  constructor
  · intro h
    by_contra hne
    obtain ⟨r, hr, _⟩ := buildTree_of_ne_nil hne
    rw [hr] at h; cases h
  · intro h
    simp [buildTree, mergeLoop, dequeue, h]

/-- What BuildTree answers: the store and the one node the merges left. -/
theorem buildTree_eq_some {st st' : NodeStore} {r : HuffTree} (h : buildTree st = some (r, st')) :
    st.queue ≠ [] ∧ st' = { queue := [], used := st.used + (st.queue.length - 1) }
      ∧ (mergeLoop (st.queue.length - 1) st).queue = [r] := by
  have hne : st.queue ≠ [] := fun h0 => by rw [buildTree_eq_none.2 h0] at h; cases h
  obtain ⟨r', hr', hl⟩ := buildTree_of_ne_nil hne
  rw [hr'] at h
  obtain ⟨rfl, rfl⟩ : r' = r ∧ _ = st' := by simpa using h
  exact ⟨hne, rfl, hl⟩

/-- A property of trees that merging keeps holds of the root built. -/
theorem buildTree_root {st st' : NodeStore} {r : HuffTree} {P : HuffTree → Prop}
    (hP : ∀ a b, P a → P b → P (.node (a.wt + b.wt) a b)) (h : buildTree st = some (r, st'))
    (hq : ∀ t ∈ st.queue, P t) : P r := by
  obtain ⟨_, _, hl⟩ := buildTree_eq_some h
  have := mergeLoop_induct (P := fun st => ∀ t ∈ st.queue, P t) (fun _ _ _ hm => merge_forall hP hm)
    (st.queue.length - 1) st hq
  rw [hl] at this
  exact this r (by simp)

/-! ### LoadFreq (R162) -/

/-- Loading leaves one after another adds them to the queue and to NODES_USED, in a sorted queue. -/
theorem foldl_allocEnqueue (ls : List HuffTree) (st : NodeStore) (hs : queueSorted st.queue) :
    ((ls.foldl allocEnqueue st).queue).Perm (ls ++ st.queue) ∧ (ls.foldl allocEnqueue st).used = st.used + ls.length
      ∧ queueSorted (ls.foldl allocEnqueue st).queue := by
  induction ls generalizing st with
  | nil => exact ⟨List.Perm.refl _, rfl, hs⟩
  | cons x ls ih =>
    obtain ⟨h1, h2, h3⟩ := ih (allocEnqueue st x) (queueSorted_enqueue hs)
    refine ⟨h1.trans ?_, ?_, h3⟩
    · exact ((enqueue_perm x st.queue).append_left ls).trans List.perm_middle
    · rw [List.foldl_cons, h2]; simp; omega

/-- Everything LoadFreq does: the leaf set of FREQ, counted, in a sorted queue (R162). -/
theorem loadFreq_spec (par : Params) (m : Memory) :
    (loadFreq par m).queue.Perm (freqLeaves par m) ∧ (loadFreq par m).used = (freqLeaves par m).length
      ∧ queueSorted (loadFreq par m).queue := by
  obtain ⟨h1, h2, h3⟩ := foldl_allocEnqueue (freqLeaves par m) NodeStore.empty List.Pairwise.nil
  have he : NodeStore.empty.queue = [] := rfl
  have hu : NodeStore.empty.used = 0 := rfl
  rw [he, List.append_nil] at h1
  rw [hu, Nat.zero_add] at h2
  exact ⟨h1, h2, h3⟩

/-- The leaf set fits the queue: at most QCAP leaves (R162). -/
theorem freqLeaves_length_le (par : Params) (m : Memory) : (freqLeaves par m).length ≤ par.qcap := by
  have := List.length_filterMap_le (freqLeaf m) (List.range par.alphSize)
  simp only [freqLeaves, List.length_append, List.length_singleton, List.length_range, Params.qcap] at *
  omega

/-- The queue is never empty after LoadFreq: the EOS leaf is always there (R162). -/
theorem loadFreq_ne_nil (par : Params) (m : Memory) : (loadFreq par m).queue ≠ [] := by
  intro h
  have := (loadFreq_spec par m).1.length_eq
  rw [h] at this
  simp [freqLeaves] at this

/-- LoadFreq then BuildTree always answers a root (R164). -/
theorem buildTree_loadFreq (par : Params) (m : Memory) :
    ∃ r, buildTree (loadFreq par m) = some (r,
      { queue := [], used := (freqLeaves par m).length + ((freqLeaves par m).length - 1) }) := by
  obtain ⟨r, hr, _⟩ := buildTree_of_ne_nil (loadFreq_ne_nil par m)
  obtain ⟨h1, h2, _⟩ := loadFreq_spec par m
  exact ⟨r, by rw [hr, h2, h1.length_eq]⟩

/-! ### Trees (R10, R36) -/

theorem HuffTree.leaves_length (t : HuffTree) : t.leaves.length = t.leafCount := by
  induction t with
  | leaf => rfl
  | node w l r hl hr => simp [HuffTree.leaves, HuffTree.leafCount, hl, hr]

/-- A tree with L leaves has 2L - 1 nodes (R166). -/
theorem HuffTree.size_add_one (t : HuffTree) : t.size + 1 = 2 * t.leafCount := by
  induction t with
  | leaf => rfl
  | node w l r hl hr => simp only [HuffTree.size, HuffTree.leafCount]; omega

theorem HuffTree.leafCount_pos (t : HuffTree) : 0 < t.leafCount := by
  have := t.size_add_one
  omega

/-- A tree with L leaves is at most L - 1 deep (R168 d). -/
theorem HuffTree.depth_lt_leafCount (t : HuffTree) : t.depth < t.leafCount := by
  induction t with
  | leaf => simp [HuffTree.depth, HuffTree.leafCount]
  | node w l r hl hr =>
    have := l.leafCount_pos
    have := r.leafCount_pos
    simp only [HuffTree.depth, HuffTree.leafCount]
    omega

/-- A tree of exact weights weighs at most its leaves' largest weight each (R166). -/
theorem HuffTree.wt_le_of_weightsExact (t : HuffTree) (h : t.weightsExact = true) :
    t.wt.toNat ≤ t.leafCount * (2 ^ 32 - 1) := by
  induction t with
  | leaf s w =>
    simp [HuffTree.weightsExact] at h
    simp only [HuffTree.wt, HuffTree.leafCount]
    omega
  | node w l r hl hr =>
    simp only [HuffTree.weightsExact, Bool.and_eq_true, decide_eq_true_eq] at h
    obtain ⟨⟨h1, h2⟩, h3⟩ := h
    have := hl h2
    have := hr h3
    simp only [HuffTree.wt, HuffTree.leafCount] at *
    omega

/-! ### Parameters (R7) -/

/-- What legal parameters are. -/
theorem Params.legal_spec {p : Params} (h : p.legal = true) : 1 ≤ p.w ∧ p.w ≤ 8 ∧ p.magic ≠ p.tagCounts ∧ p.magic ≠
    p.tagTree ∧ p.tagCounts ≠ p.tagTree := by
  simp [Params.legal] at h; tauto

/-- The alphabet sizes of R7. -/
theorem Params.alphSize_bounds {p : Params} (h : p.legal = true) : 2 ≤ p.alphSize ∧ p.alphSize ≤ 256 := by
  obtain ⟨h1, h2, _⟩ := Params.legal_spec h
  unfold Params.alphSize
  exact ⟨by simpa using Nat.pow_le_pow_right (n := 2) (by omega) h1, by simpa using Nat.pow_le_pow_right (n := 2) (by omega) h2⟩

/-- The largest node store of R7. -/
theorem Params.nodeCap_le {p : Params} (h : p.legal = true) : p.nodeCap ≤ 513 := by
  have := Params.alphSize_bounds h
  unfold Params.nodeCap Params.qcap; omega

/-! ### The leaf set of LoadFreq (R162) -/

/-- The leaf set as a filter and a map: the nonzero entries in ascending order, then EOS. -/
theorem freqLeaves_eq (par : Params) (m : Memory) : freqLeaves par m = ((List.range par.alphSize).filter (fun s
    => decide (freqGet m s ≠ 0))).map (fun s => HuffTree.leaf (BitVec.ofNat 16 s) ((freqGet m s).zeroExtend 64))
    ++ [HuffTree.leaf (BitVec.ofNat 16 par.eos) 1] := by
  unfold freqLeaves
  congr 1
  induction List.range par.alphSize with
  | nil => rfl
  | cons x l ih =>
    rw [List.filterMap_cons, List.filter_cons, ih]
    unfold freqLeaf
    by_cases h : freqGet m x = 0
    · rw [if_pos h, if_neg (by simpa using h)]
    · rw [if_neg h, if_pos (by simpa using h)]; rfl

/-- Every leaf of the leaf set has a weight of 32 bits. -/
theorem freqLeaves_exact {par : Params} {m : Memory} {t : HuffTree} (h : t ∈ freqLeaves par m) : t.weightsExact
    = true := by
  rw [freqLeaves_eq] at h
  simp only [List.mem_append, List.mem_map, List.mem_singleton] at h
  rcases h with ⟨x, _, rfl⟩ | rfl
  · have := (freqGet m x).isLt
    simp only [HuffTree.weightsExact, decide_eq_true_eq, BitVec.truncate_eq_setWidth, BitVec.toNat_setWidth]
    exact lt_of_le_of_lt (Nat.mod_le _ _) this
  · rfl

/-- The leaf set holds leaves only. -/
theorem freqLeaves_leafcounts (par : Params) (m : Memory) : ((freqLeaves par m).map HuffTree.leafCount).sum =
    (freqLeaves par m).length := by
  rw [freqLeaves_eq]
  simp [HuffTree.leafCount, Function.comp_def]

/-- The symbols and weights of the leaf set. -/
theorem freqLeaves_flat (par : Params) (m : Memory) : (freqLeaves par m).flatMap HuffTree.leaves =
    (((List.range par.alphSize).filter (fun s => decide (freqGet m s ≠ 0))).map (fun s => (BitVec.ofNat 16 s,
    (freqGet m s).zeroExtend 64)) ++ [(BitVec.ofNat 16 par.eos, 1)]) := by
  rw [freqLeaves_eq]
  simp [List.flatMap_map, HuffTree.leaves, ← List.map_eq_flatMap]

/-! ### Weights, sizes, symbols of trees (R36, R166) -/

/-- Where weights are exact, a tree weighs what its leaves weigh together (R160). -/
theorem HuffTree.wt_eq_sum (t : HuffTree) (h : t.weightsExact = true) : t.wt.toNat = (t.leaves.map (fun e =>
    e.2.toNat)).sum := by
  induction t with
  | leaf s w => simp [HuffTree.wt, HuffTree.leaves]
  | node w l r hl hr =>
    simp [HuffTree.weightsExact] at h
    simp [HuffTree.wt, HuffTree.leaves, ← hl h.1.2, ← hr h.2, h.1.1]

/-- Counting leaves tree by tree. -/
theorem leafCount_sum (q : List HuffTree) : (q.map HuffTree.leafCount).sum = (q.flatMap HuffTree.leaves).length := by
  induction q with
  | nil => rfl
  | cons a q ih => rw [List.map_cons, List.sum_cons, ih, List.flatMap_cons, List.length_append, HuffTree.leaves_length]

/-- A tree has no more leaves than nodes. -/
theorem HuffTree.leafCount_le_size (t : HuffTree) : t.leafCount ≤ t.size :=
  by have := t.size_add_one; have := t.leafCount_pos; omega

/-- A merge of trees within the capacity wraps no weight (R166). -/
theorem HuffTree.weightsExact_node {a b : HuffTree} {cap : Nat} (hc : cap ≤ 513) (ha : a.weightsExact = true) (hb :
    b.weightsExact = true) (h : a.size + b.size ≤ cap) : (HuffTree.node (a.wt + b.wt) a b).weightsExact = true := by
  have wa := HuffTree.wt_le_of_weightsExact a ha
  have wb := HuffTree.wt_le_of_weightsExact b hb
  have la := HuffTree.leafCount_le_size a
  have lb := HuffTree.leafCount_le_size b
  simp only [HuffTree.weightsExact, ha, hb, Bool.and_true, decide_eq_true_eq]
  rw [BitVec.toNat_add, Nat.mod_eq_of_lt]
  have : (a.leafCount + b.leafCount) * (2^32-1) ≤ 513 * (2^32-1) := Nat.mul_le_mul_right _ (by omega)
  rw [Nat.add_mul] at this
  omega

/-- A merge keeps symbols legal. -/
theorem HuffTree.symbolsLegal_node {par : Params} {w : Weight} {a b : HuffTree} (ha : a.symbolsLegal par = true) (hb :
    b.symbolsLegal par = true) : (HuffTree.node w a b).symbolsLegal par = true := by
  simp only [HuffTree.symbolsLegal, HuffTree.leaves, List.all_append, Bool.and_eq_true] at *; exact ⟨ha, hb⟩

/-! ### Merging until one node is left (R164) -/

/-- Merging loses no leaf and makes none. -/
theorem mergeLoop_leaves (k : Nat) (st : NodeStore) : ((mergeLoop k st).queue.flatMap HuffTree.leaves).Perm
    (st.queue.flatMap HuffTree.leaves) :=
  mergeLoop_induct (P := fun st' => (st'.queue.flatMap HuffTree.leaves).Perm (st.queue.flatMap HuffTree.leaves))
    (fun _ _ _ hm hp => (merge_leaves hm).trans hp) k st (List.Perm.refl _)

/-- The root built from a queue holds exactly its leaves. -/
theorem buildTree_leaves {st st' : NodeStore} {r : HuffTree} (h : buildTree st = some (r, st')) : r.leaves.Perm
    (st.queue.flatMap HuffTree.leaves) := by
  obtain ⟨_, _, hl⟩ := buildTree_eq_some h
  have := mergeLoop_leaves (st.queue.length - 1) st
  rw [hl] at this
  simpa using this

/-- Merging keeps weights exact while the leaves are few enough for 64 bits. -/
theorem mergeLoop_exact (N : Nat) (hN : N * (2^32 - 1) < 2^64) (k : Nat) (st : NodeStore) (h : (st.queue.map
    HuffTree.leafCount).sum ≤ N ∧ ∀ t ∈ st.queue, t.weightsExact = true) : ((mergeLoop k st).queue.map
    HuffTree.leafCount).sum ≤ N ∧ ∀ t ∈ (mergeLoop k st).queue, t.weightsExact = true := by
  refine mergeLoop_induct (P := fun st => (st.queue.map HuffTree.leafCount).sum ≤ N ∧ ∀ t ∈ st.queue, t.weightsExact = true) ?_ k st h
  rintro st n st' hm ⟨h1, h2⟩
  obtain ⟨a, b, q, hq, rfl, rfl⟩ := merge_eq_some.1 hm
  rw [hq] at h1 h2
  have hp := ((enqueue_perm (.node (a.wt + b.wt) a b) q).map HuffTree.leafCount).sum_eq
  simp at h1
  refine ⟨?_, ?_⟩
  · simp only [hp, List.map_cons, List.sum_cons, HuffTree.leafCount]; omega
  · intro t ht
    rcases mem_enqueue.1 ht with rfl | ht
    · have ha := h2 a (by simp)
      have hb := h2 b (by simp)
      have wa := HuffTree.wt_le_of_weightsExact a ha
      have wb := HuffTree.wt_le_of_weightsExact b hb
      simp only [HuffTree.weightsExact, ha, hb, Bool.and_true, decide_eq_true_eq]
      rw [BitVec.toNat_add, Nat.mod_eq_of_lt]
      have : (a.leafCount + b.leafCount) * (2^32-1) ≤ N * (2^32-1) := Nat.mul_le_mul_right _ (by omega)
      rw [Nat.add_mul] at this
      omega
    · exact h2 t (by simp [ht])

/-- Merging within the capacity keeps weights exact and symbols legal. -/
theorem mergeLoop_sound (par : Params) (hl : par.legal = true) (k : Nat) (st : NodeStore) (h : (st.queue.map
    HuffTree.size).sum + (st.queue.length - 1) ≤ par.nodeCap ∧ ∀ t ∈ st.queue, t.weightsExact = true ∧
    t.symbolsLegal par = true) : ((mergeLoop k st).queue.map HuffTree.size).sum + ((mergeLoop k st).queue.length
    - 1) ≤ par.nodeCap ∧ ∀ t ∈ (mergeLoop k st).queue, t.weightsExact = true ∧ t.symbolsLegal par = true := by
  refine mergeLoop_induct (P := fun st => (st.queue.map HuffTree.size).sum + (st.queue.length - 1) ≤ par.nodeCap ∧ ∀ t ∈ st.queue, t.weightsExact = true ∧ t.symbolsLegal par = true) ?_ k st h
  rintro st n st' hm ⟨h1, h2⟩
  obtain ⟨a, b, q, hq, rfl, rfl⟩ := merge_eq_some.1 hm
  rw [hq] at h1 h2
  have hp := ((enqueue_perm (.node (a.wt + b.wt) a b) q).map HuffTree.size).sum_eq
  simp at h1
  refine ⟨?_, ?_⟩
  · simp only [hp, List.map_cons, List.sum_cons, HuffTree.size, enqueue_length]; omega
  · intro t ht
    rcases mem_enqueue.1 ht with rfl | ht
    · have ha := h2 a (by simp)
      have hb := h2 b (by simp)
      exact ⟨HuffTree.weightsExact_node (Params.nodeCap_le hl) ha.1 hb.1 (by omega), HuffTree.symbolsLegal_node ha.2 hb.2⟩
    · exact h2 t (by simp [ht])

/-- Every merge adds one node. -/
theorem mergeLoop_size (k : Nat) (st : NodeStore) (hk : k < st.queue.length) : ((mergeLoop k st).queue.map
    HuffTree.size).sum = (st.queue.map HuffTree.size).sum + k := by
  induction k generalizing st with
  | zero => rfl
  | succ k ih =>
    rw [mergeLoop]
    cases hm : merge st with
    | none => have := merge_eq_none.1 hm; omega
    | some x =>
      obtain ⟨n, st'⟩ := x
      obtain ⟨a, b, q, hq, rfl, rfl⟩ := merge_eq_some.1 hm
      have hp := ((enqueue_perm (.node (a.wt + b.wt) a b) q).map HuffTree.size).sum_eq
      simp only
      rw [ih _ (by simp only [enqueue_length]; rw [hq] at hk; simp at hk; omega)]
      simp only [hp, hq, List.map_cons, List.sum_cons, HuffTree.size]; omega

/-! ### The tree of FREQ (R168) -/

/-- The weights of the tree built from FREQ are exact. -/
theorem buildTree_loadFreq_exact {par : Params} (hl : par.legal = true) {m : Memory} {r st} (h : buildTree
    (loadFreq par m) = some (r, st)) : r.weightsExact = true := by
  obtain ⟨_, _, hq⟩ := buildTree_eq_some h
  obtain ⟨h1, h2, h3⟩ := loadFreq_spec par m
  have hlen := freqLeaves_length_le par m
  have ha := Params.alphSize_bounds hl
  have := mergeLoop_exact 257 (by norm_num) ((loadFreq par m).queue.length - 1) (loadFreq par m) ⟨?_, ?_⟩
  · rw [hq] at this; exact this.2 r (by simp)
  · rw [(h1.map _).sum_eq, freqLeaves_leafcounts]; unfold Params.qcap at hlen; omega
  · intro t ht; exact freqLeaves_exact (h1.mem_iff.1 ht)

/-- The leaves of the tree built from FREQ. -/
theorem buildTree_loadFreq_leaves {par : Params} {m : Memory} {r st} (h : buildTree (loadFreq par m) = some (r,
    st)) : r.leaves.Perm (((List.range par.alphSize).filter (fun s => decide (freqGet m s ≠ 0))).map (fun s =>
    (BitVec.ofNat 16 s, (freqGet m s).zeroExtend 64)) ++ [(BitVec.ofNat 16 par.eos, 1)]) := by
  have h1 := buildTree_leaves h
  rw [← freqLeaves_flat]
  exact h1.trans ((loadFreq_spec par m).1.flatMap_right _)

/-- The node store after the tree of FREQ is built. -/
theorem buildTree_loadFreq_store (par : Params) (m : Memory) {r st} (h : buildTree (loadFreq par m) = some (r, st)) : st = { queue := [], used := 2 * r.leafCount - 1 } := by
  obtain ⟨r', hr'⟩ := buildTree_loadFreq par m
  rw [hr'] at h
  simp only [Option.some.injEq, Prod.mk.injEq] at h
  obtain ⟨rfl, rfl⟩ := h
  have hle := buildTree_loadFreq_leaves hr'
  have hlc : r'.leafCount = (freqLeaves par m).length := by
    rw [← HuffTree.leaves_length, hle.length_eq, freqLeaves_eq]; simp
  have := r'.leafCount_pos
  congr 1; omega

/-- The symbols of the tree built from FREQ are legal. -/
theorem buildTree_loadFreq_symbols {par : Params} (hl : par.legal = true) {m : Memory} {r st} (h : buildTree (loadFreq
    par m) = some (r, st)) : r.symbolsLegal par = true := by
  unfold HuffTree.symbolsLegal
  rw [List.all_eq_true]
  intro e he
  rw [(buildTree_loadFreq_leaves h).mem_iff] at he
  have ha := Params.alphSize_bounds hl
  have : par.eos = par.alphSize := rfl
  simp only [List.mem_append, List.mem_map, List.mem_filter, List.mem_range, List.mem_singleton] at he
  rcases he with ⟨x, ⟨hx, _⟩, rfl⟩ | rfl
  · simp; omega
  · simp; omega

/-- The tree built from FREQ fits the node store. -/
theorem buildTree_loadFreq_size {par : Params} {m : Memory} {r st} (h : buildTree (loadFreq par m) = some (r, st)) : r.size
    ≤ par.nodeCap ∧ r.leafCount ≤ par.qcap := by
  have hlc : r.leafCount ≤ par.qcap := by
    have := (buildTree_loadFreq_leaves h).length_eq
    rw [HuffTree.leaves_length] at this
    rw [this, ← freqLeaves_flat, ← leafCount_sum, freqLeaves_leafcounts]
    exact freqLeaves_length_le par m
  have := r.size_add_one
  unfold Params.nodeCap
  omega

/-- A symbol with a count has a leaf in the tree of FREQ. -/
theorem mem_leaves_of_freq {par : Params} (hl : par.legal = true) {m : Memory} {r st} (h : buildTree (loadFreq par
    m) = some (r, st)) {x : Nat} (hx : x < par.alphSize) (hf : freqGet m x ≠ 0) : x ∈ r.leaves.map (fun e =>
    e.1.toNat) := by
  have hp := (buildTree_loadFreq_leaves h).map (fun e => e.1.toNat)
  rw [hp.mem_iff]
  have ha := Params.alphSize_bounds hl
  simp only [List.map_append, List.map_map, List.mem_append, List.mem_map, List.mem_filter, List.mem_range]
  left
  refine ⟨x, ⟨hx, by simpa using hf⟩, ?_⟩
  simp; omega

/-- EOS has a leaf in the tree of FREQ. -/
theorem mem_leaves_eos {par : Params} (hl : par.legal = true) {m : Memory} {r st} (h : buildTree (loadFreq par m) =
    some (r, st)) : par.eos ∈ r.leaves.map (fun e => e.1.toNat) := by
  have hp := (buildTree_loadFreq_leaves h).map (fun e => e.1.toNat)
  rw [hp.mem_iff]
  have ha := Params.alphSize_bounds hl
  have : par.eos = par.alphSize := rfl
  simp only [List.map_append, List.map_map, List.mem_append, List.mem_map, List.mem_singleton, List.map_cons, List.map_nil]
  right; simp; omega

end Sys2Proof.Machine
end

