-- ==== Sys2Proof/Laws/Tables.lean ====
section
/-!
SUPPORT. The laws of the tables (FREQ and CT): a read after a write, other entries unchanged, and the canonical form
kept by every operation.
-/

namespace Sys2Proof.Machine

variable {α : Type}

@[simp] theorem tableGet_nil (k : Nat) : tableGet k ([] : Table α) = none := rfl

@[simp] theorem tableGet_cons (k j : Nat) (v : α) (t : Table α) :
    tableGet k ((j, v) :: t) = if j = k then some v else tableGet k t := rfl

/-- A read of the entry just written gives the value written. -/
@[simp] theorem tableGet_put_same (k : Nat) (v : α) (t : Table α) : tableGet k (tablePut k v t) = some v := by
  induction t with
  | nil => simp [tablePut]
  | cons e t ih =>
    obtain ⟨j, u⟩ := e
    unfold tablePut
    by_cases h : k < j
    · simp [h]
    · by_cases h2 : k = j
      · simp [h2]
      · simp [h, h2, ih, Ne.symm h2]

/-- A write leaves every other entry alone. -/
theorem tableGet_put_other {k j : Nat} (h : j ≠ k) (v : α) (t : Table α) :
    tableGet j (tablePut k v t) = tableGet j t := by
  induction t with
  | nil => simp [tablePut, Ne.symm h]
  | cons e t ih =>
    obtain ⟨i, u⟩ := e
    unfold tablePut
    by_cases h1 : k < i
    · simp [h1, Ne.symm h]
    · by_cases h2 : k = i
      · subst h2; simp [Ne.symm h]
      · simp [h1, h2, ih]

/-- An erased entry is absent. -/
@[simp] theorem tableGet_erase_same (k : Nat) (t : Table α) : tableGet k (tableErase k t) = none := by
  induction t with
  | nil => rfl
  | cons e t ih =>
    obtain ⟨j, u⟩ := e
    by_cases h : j = k
    · simpa [tableErase, h] using ih
    · simpa [tableErase, h] using ih

/-- Erasing leaves every other entry alone. -/
theorem tableGet_erase_other {k j : Nat} (h : j ≠ k) (t : Table α) : tableGet j (tableErase k t) = tableGet j t := by
  induction t with
  | nil => rfl
  | cons e t ih =>
    obtain ⟨i, u⟩ := e
    by_cases h1 : i = k
    · subst h1
      simpa [tableErase, Ne.symm h] using ih
    · have h3 : tableErase k ((i, u) :: t) = (i, u) :: tableErase k t := by simp [tableErase, h1]
      rw [h3, tableGet_cons, tableGet_cons, ih]

/-- Where the written entry's index may stand. -/
theorem mem_tablePut {k : Nat} {v : α} {t : Table α} {e : Nat × α} (h : e ∈ tablePut k v t) : e = (k, v) ∨ e ∈ t := by
  induction t with
  | nil => simpa [tablePut] using h
  | cons e' t ih =>
    obtain ⟨j, u⟩ := e'
    unfold tablePut at h
    split at h
    · simpa using h
    · split at h
      · rcases List.mem_cons.1 h with h | h
        · exact .inl h
        · exact .inr (List.mem_cons_of_mem _ h)
      · rcases List.mem_cons.1 h with h | h
        · exact .inr (by simp [h])
        · rcases ih h with h | h
          · exact .inl h
          · exact .inr (List.mem_cons_of_mem _ h)

theorem tableRising_nil : tableRising ([] : Table α) = true := by simp [tableRising]

theorem tableRising_cons {j : Nat} {u : α} {t : Table α} :
    tableRising ((j, u) :: t) = true ↔ (∀ e ∈ t, j < e.1) ∧ tableRising t = true := by
  simp [tableRising, List.pairwise_cons]

/-- Writing keeps the indices rising. -/
theorem tableRising_put (k : Nat) (v : α) {t : Table α} (h : tableRising t = true) :
    tableRising (tablePut k v t) = true := by
  induction t with
  | nil => simp [tablePut, tableRising]
  | cons e t ih =>
    obtain ⟨j, u⟩ := e
    obtain ⟨h1, h2⟩ := tableRising_cons.1 h
    unfold tablePut
    split
    · rename_i hk
      refine tableRising_cons.2 ⟨?_, h⟩
      intro e he
      rcases List.mem_cons.1 he with rfl | he
      · exact hk
      · exact lt_trans hk (h1 e he)
    · split
      · rename_i hk
        exact tableRising_cons.2 ⟨by rw [hk]; exact h1, h2⟩
      · refine tableRising_cons.2 ⟨?_, ih h2⟩
        intro e he
        rcases mem_tablePut he with rfl | he
        · simp; omega
        · exact h1 e he

/-- Erasing keeps the indices rising. -/
theorem tableRising_erase (k : Nat) {t : Table α} (h : tableRising t = true) : tableRising (tableErase k t) = true := by
  unfold tableRising tableErase at *
  simp only [decide_eq_true_eq] at *
  exact h.sublist ((List.filter_sublist).map _)

/-- An entry at or below every index of a rising table is not listed further on. -/
theorem tableGet_none_of_lt {k : Nat} {t : Table α} (h : ∀ e ∈ t, k < e.1) : tableGet k t = none := by
  induction t with
  | nil => rfl
  | cons e t ih =>
    obtain ⟨j, u⟩ := e
    have hj : k < j := h (j, u) (by simp)
    rw [tableGet_cons, if_neg (by omega)]
    exact ih (fun e he => h e (List.mem_cons_of_mem _ he))

/-- In a rising table an entry is listed exactly where the lookup finds it. -/
theorem tableGet_eq_some {k : Nat} {v : α} {t : Table α} (h : tableRising t = true) :
    tableGet k t = some v ↔ (k, v) ∈ t := by
  induction t with
  | nil => simp
  | cons e t ih =>
    obtain ⟨j, u⟩ := e
    obtain ⟨h1, h2⟩ := tableRising_cons.1 h
    rw [tableGet_cons]
    by_cases hj : j = k
    · subst hj
      simp only [if_true, Option.some.injEq, List.mem_cons, Prod.mk.injEq, true_and]
      constructor
      · intro h; exact .inl h.symm
      · rintro (h | h)
        · exact h.symm
        · exact absurd (h1 _ h) (lt_irrefl _)
    · rw [if_neg hj, ih h2]
      simp [Ne.symm hj]

/-- Two rising tables with the same lookups are the same data. -/
theorem table_ext {t u : Table α} (ht : tableRising t = true) (hu : tableRising u = true)
    (h : ∀ k, tableGet k t = tableGet k u) : t = u := by
  induction t generalizing u with
  | nil =>
    cases u with
    | nil => rfl
    | cons e u =>
      obtain ⟨j, v⟩ := e
      have := h j
      simp at this
  | cons e t ih =>
    obtain ⟨j, v⟩ := e
    obtain ⟨h1, h2⟩ := tableRising_cons.1 ht
    cases u with
    | nil =>
      have := h j
      simp at this
    | cons e' u =>
      obtain ⟨i, w⟩ := e'
      obtain ⟨g1, g2⟩ := tableRising_cons.1 hu
      have hij : i = j := by
        rcases lt_trichotomy i j with hlt | heq | hgt
        · have h3 := h i
          rw [tableGet_none_of_lt (t := (j, v) :: t)] at h3
          · simp at h3
          · intro e he
            rcases List.mem_cons.1 he with rfl | he
            · exact hlt
            · exact lt_trans hlt (h1 e he)
        · exact heq
        · have h3 := h j
          rw [tableGet_none_of_lt (t := (i, w) :: u)] at h3
          · simp at h3
          · intro e he
            rcases List.mem_cons.1 he with rfl | he
            · exact hgt
            · exact lt_trans hgt (g1 e he)
      subst hij
      have hv : v = w := by simpa using h i
      subst hv
      congr 1
      refine ih h2 g2 (fun k => ?_)
      have h4 := h k
      simp only [tableGet_cons] at h4
      by_cases hk : i = k
      · subst hk
        rw [tableGet_none_of_lt h1, tableGet_none_of_lt g1]
      · simpa [hk] using h4

/-! ### FREQ -/

@[simp] theorem freqGet_nil (s : Nat) : freqGet [] s = 0 := rfl

/-- FREQ[s] reads as the word just written. -/
@[simp] theorem freqGet_set_same (m : Memory) (s : Nat) (v : Word) : freqGet (freqSet m s v) s = v := by
  unfold freqGet freqSet
  split <;> simp_all

/-- A write of FREQ[s] leaves every other entry as it was. -/
theorem freqGet_set_other {s x : Nat} (h : x ≠ s) (m : Memory) (v : Word) :
    freqGet (freqSet m s v) x = freqGet m x := by
  unfold freqGet freqSet
  split
  · rw [tableGet_erase_other h]
  · rw [tableGet_put_other h]

theorem freqGet_set (m : Memory) (s x : Nat) (v : Word) :
    freqGet (freqSet m s v) x = if x = s then v else freqGet m x := by
  by_cases h : x = s
  · subst h; simp
  · rw [if_neg h, freqGet_set_other h]

theorem Memory.wf_iff {n : Nat} {m : Memory} :
    Memory.wf n m = true ↔ tableRising m = true ∧ ∀ e ∈ m, e.1 < n ∧ e.2 ≠ 0 := by
  simp [Memory.wf]

@[simp] theorem Memory.wf_nil (n : Nat) : Memory.wf n [] = true := by simp [Memory.wf, tableRising]

/-- A write of an entry of the alphabet keeps the canonical form. -/
theorem Memory.wf_set {n s : Nat} {m : Memory} (hs : s < n) (v : Word) (h : Memory.wf n m = true) :
    Memory.wf n (freqSet m s v) = true := by
  obtain ⟨h1, h2⟩ := Memory.wf_iff.1 h
  refine Memory.wf_iff.2 ?_
  unfold freqSet
  split
  · exact ⟨tableRising_erase _ h1, fun e he => h2 e (List.mem_of_mem_filter he)⟩
  · rename_i hv
    refine ⟨tableRising_put _ _ h1, fun e he => ?_⟩
    rcases mem_tablePut he with rfl | he
    · exact ⟨hs, hv⟩
    · exact h2 e he

/-- Equal reads make equal memories: the canonical form is canonical. -/
theorem Memory.ext_of_wf {n : Nat} {m m' : Memory} (h : Memory.wf n m = true) (h' : Memory.wf n m' = true)
    (hg : ∀ s, freqGet m s = freqGet m' s) : m = m' := by
  obtain ⟨h1, h2⟩ := Memory.wf_iff.1 h
  obtain ⟨g1, g2⟩ := Memory.wf_iff.1 h'
  refine table_ext h1 g1 (fun k => ?_)
  have h3 := hg k
  unfold freqGet at h3
  cases ha : tableGet k m with
  | none =>
    cases hb : tableGet k m' with
    | none => rfl
    | some w =>
      have := (g2 _ ((tableGet_eq_some g1).1 hb)).2
      simp [ha, hb] at h3
      exact absurd h3.symm this
  | some v =>
    cases hb : tableGet k m' with
    | none =>
      have := (h2 _ ((tableGet_eq_some h1).1 ha)).2
      simp [ha, hb] at h3
      exact absurd h3 this
    | some w => simpa [ha, hb] using h3

/-- An entry outside the alphabet reads 0. -/
theorem freqGet_of_wf {n s : Nat} {m : Memory} (h : Memory.wf n m = true) (hs : n ≤ s) : freqGet m s = 0 := by
  obtain ⟨h1, h2⟩ := Memory.wf_iff.1 h
  unfold freqGet
  cases ha : tableGet s m with
  | none => rfl
  | some v =>
    have := (h2 _ ((tableGet_eq_some h1).1 ha)).1
    simp at this; omega

/-! ### CT -/

@[simp] theorem codeGet_nil (s : Nat) : codeGet [] s = none := rfl

@[simp] theorem codeGet_set_same (ct : CodeTable) (s : Nat) (c : List Bool) : codeGet (codeSet ct s c) s = some c := by
  simp [codeGet, codeSet]

theorem codeGet_set (ct : CodeTable) (s x : Nat) (c : List Bool) :
    codeGet (codeSet ct s c) x = if x = s then some c else codeGet ct x := by
  by_cases h : x = s
  · subst h; simp
  · simp [codeGet, codeSet, h, tableGet_put_other h]

theorem codeTableWf_set {ct : CodeTable} (s : Nat) (c : List Bool) (h : codeTableWf ct = true) :
    codeTableWf (codeSet ct s c) = true := tableRising_put s c h

end Sys2Proof.Machine
end

