-- ==== Sys2Proof/Laws/Codes.lean ====
section
/-!
SUPPORT. The code table deriver: the walk as a fold over the paths, codes lead to their leaves, prefixes, lengths (R190 to
R195).
-/

namespace Sys2Proof.Machine

/-! ### The walk (R190) -/

/-- The walk enters the paths of the left-first order one after another. -/
theorem walkCodes_eq (t : HuffTree) (p : List Bool) (ct : CodeTable) : walkCodes t p ct = (t.pathsFrom p).foldl
    (fun ct e => codeSet ct e.1 e.2) ct := by
  induction t generalizing p ct with
  | leaf s w => rfl
  | node w l r hl hr => simp only [walkCodes, HuffTree.pathsFrom, List.foldl_append, hl, hr]

/-- Derive is the walk from the root over a cleared table. -/
theorem deriveCodes_eq (t : HuffTree) : deriveCodes t = (t.pathsFrom []).foldl (fun ct e => codeSet ct e.1 e.2)
    [] := walkCodes_eq t [] []

/-- After a run of entries, the last one of a symbol stands. -/
theorem foldl_codeSet_get (es : List (Nat × List Bool)) (ct : CodeTable) (x : Nat) :
    codeGet (es.foldl (fun ct e => codeSet ct e.1 e.2) ct) x =
      match (es.filter (fun e => decide (e.1 = x))).getLast? with
      | some e => some e.2
      | none => codeGet ct x := by
  induction es generalizing ct with
  | nil => rfl
  | cons e es ih =>
    rw [List.foldl_cons, ih, List.filter_cons]
    by_cases h : e.1 = x
    · rw [if_pos (by simpa using h), List.getLast?_cons, codeGet_set]
      cases (es.filter (fun e => decide (e.1 = x))).getLast? <;> simp [h]
    · rw [if_neg (by simpa using h), codeGet_set]
      simp [Ne.symm h]

/-- A run of entries keeps the canonical form. -/
theorem foldl_codeSet_wf (es : List (Nat × List Bool)) (ct : CodeTable) (h : codeTableWf ct = true) :
    codeTableWf (es.foldl (fun ct e => codeSet ct e.1 e.2) ct) = true := by
  induction es generalizing ct with
  | nil => exact h
  | cons e es ih => exact ih _ (codeTableWf_set _ _ h)

/-! ### Paths and following them -/

/-- Every listed path leads to its symbol and is no longer than the depth. -/
theorem HuffTree.pathsFrom_follow {t : HuffTree} {p : List Bool} {e : Nat × List Bool} (h : e ∈ t.pathsFrom p) : ∃ q,
    e.2 = p ++ q ∧ t.follow q = some e.1 ∧ q.length ≤ t.depth := by
  induction t generalizing p with
  | leaf s w => simp [HuffTree.pathsFrom] at h; subst h; exact ⟨[], by simp, rfl, Nat.le_refl _⟩
  | node w l r hl hr =>
    simp only [HuffTree.pathsFrom, List.mem_append] at h
    rcases h with h | h
    · obtain ⟨q, h1, h2, h3⟩ := hl h
      exact ⟨false :: q, by simp [h1], by simp [HuffTree.follow, h2], by simp only [HuffTree.depth, List.length_cons]; omega⟩
    · obtain ⟨q, h1, h2, h3⟩ := hr h
      exact ⟨true :: q, by simp [h1], by simp [HuffTree.follow, h2], by simp only [HuffTree.depth, List.length_cons]; omega⟩

/-- Every path that leads to a leaf is listed. -/
theorem HuffTree.mem_pathsFrom {t : HuffTree} {p q : List Bool} {x : Nat} (h : t.follow q = some x) : (x, p ++ q)
    ∈ t.pathsFrom p := by
  induction t generalizing p q with
  | leaf s w =>
    cases q with
    | nil => simp [HuffTree.follow] at h; simp [HuffTree.pathsFrom, h]
    | cons b q => simp [HuffTree.follow] at h
  | node w l r hl hr =>
    cases q with
    | nil => simp [HuffTree.follow] at h
    | cons b q =>
      simp only [HuffTree.pathsFrom, List.mem_append]
      cases b
      · left; have := hl (p := p ++ [false]) (q := q) (by simpa [HuffTree.follow] using h); simpa using this
      · right; have := hr (p := p ++ [true]) (q := q) (by simpa [HuffTree.follow] using h); simpa using this

/-- Of two paths to leaves neither is a prefix of the other, unless it is the same leaf. -/
theorem HuffTree.follow_prefix {t : HuffTree} {c d : List Bool} {x y : Nat} (hc : t.follow c = some x) (hd : t.follow d
    = some y) (h : c <+: d) : x = y := by
  induction t generalizing c d with
  | leaf s w =>
    cases c <;> cases d <;> simp_all [HuffTree.follow]
  | node w l r hl hr =>
    cases c with
    | nil => simp [HuffTree.follow] at hc
    | cons b c =>
      cases d with
      | nil => simp [HuffTree.follow] at hd
      | cons b' d =>
        rw [List.cons_prefix_cons] at h
        obtain ⟨rfl, h⟩ := h
        cases b
        · exact hl (by simpa [HuffTree.follow] using hc) (by simpa [HuffTree.follow] using hd) h
        · exact hr (by simpa [HuffTree.follow] using hc) (by simpa [HuffTree.follow] using hd) h

/-- The listed symbols are those of the leaves. -/
theorem HuffTree.pathsFrom_symbols (t : HuffTree) (p : List Bool) : (t.pathsFrom p).map Prod.fst = t.leaves.map (fun e =>
    e.1.toNat) := by
  induction t generalizing p with
  | leaf => rfl
  | node w l r hl hr => simp [HuffTree.pathsFrom, HuffTree.leaves, hl, hr]

/-- The longest listed path is the depth. -/
theorem HuffTree.longest_path (t : HuffTree) (p : List Bool) (a : Nat) : ((t.pathsFrom p).map (fun e => e.2.length)).foldl
    max a = max a (p.length + t.depth) := by
  induction t generalizing p a with
  | leaf => simp [HuffTree.pathsFrom, HuffTree.depth]
  | node w l r hl hr =>
    simp only [HuffTree.pathsFrom, List.map_append, List.foldl_append, hl, hr, HuffTree.depth, List.length_append, List.length_cons, List.length_nil]
    omega

/-- The paths of a tree fill the code space exactly. -/
theorem HuffTree.kraft (t : HuffTree) (p : List Bool) (D : Nat) (h : p.length + t.depth ≤ D) : ((t.pathsFrom p).map (fun
    e => 2 ^ (D - e.2.length))).sum = 2 ^ (D - p.length) := by
  induction t generalizing p with
  | leaf => simp [HuffTree.pathsFrom]
  | node w l r hl hr =>
    simp only [HuffTree.depth] at h
    simp only [HuffTree.pathsFrom, List.map_append, List.sum_append]
    rw [hl _ (by simp; omega), hr _ (by simp; omega)]
    simp only [List.length_append, List.length_cons, List.length_nil]
    rw [show D - p.length = (D - (p.length + (0 + 1))) + 1 by omega, Nat.pow_succ]; omega

/-! ### Codes -/

/-- A valid code leads to a leaf of its symbol and is no longer than the depth. -/
theorem codeGet_mem {t : HuffTree} {x : Nat} {c : List Bool} (h : codeGet (deriveCodes t) x = some c) :
    t.follow c = some x ∧ c.length ≤ t.depth := by
  rw [deriveCodes_eq, foldl_codeSet_get] at h
  split at h
  · rename_i e he
    cases h
    have := List.mem_of_getLast? he
    rw [List.mem_filter] at this
    obtain ⟨q, h1, h2, h3⟩ := HuffTree.pathsFrom_follow this.1
    simp only [decide_eq_true_eq] at this
    simp only [List.nil_append] at h1
    rw [h1, h2, this.2]
    exact ⟨rfl, h3⟩
  · simp at h

/-- A symbol of some leaf has a code. -/
theorem codeGet_isSome {t : HuffTree} {x : Nat} (h : x ∈ t.leaves.map (fun e => e.1.toNat)) : ∃ c, codeGet
    (deriveCodes t) x = some c := by
  rw [← HuffTree.pathsFrom_symbols t []] at h
  obtain ⟨e, he, rfl⟩ := List.mem_map.1 h
  rw [deriveCodes_eq, foldl_codeSet_get]
  have : ((t.pathsFrom []).filter (fun e' => decide (e'.1 = e.1))) ≠ [] := by
    intro h0; rw [List.filter_eq_nil_iff] at h0; exact h0 e he (by simp)
  rw [List.getLast?_eq_some_getLast this]; exact ⟨_, rfl⟩

/-- Entering a new index adds one entry. -/
theorem tablePut_perm {α : Type} (k : Nat) (v : α) (t : Table α) (h : ∀ e ∈ t, e.1 ≠ k) : (tablePut k v t).Perm
    ((k, v) :: t) := by
  induction t with
  | nil => exact List.Perm.refl _
  | cons e t ih =>
    obtain ⟨j, u⟩ := e
    have hj := h (j, u) (by simp)
    simp only [ne_eq] at hj
    unfold tablePut
    split
    · exact List.Perm.refl _
    · rw [if_neg (by omega)]
      exact ((ih (fun e he => h e (by simp [he]))).cons _).trans (List.Perm.swap _ _ _)

/-- Entering distinct new indices adds exactly those entries. -/
theorem foldl_codeSet_perm (es : List (Nat × List Bool)) (ct : CodeTable) (hn : (es.map Prod.fst).Nodup) (hd :
    ∀ e ∈ ct, e.1 ∉ es.map Prod.fst) : (es.foldl (fun ct e => codeSet ct e.1 e.2) ct).Perm (es ++ ct) := by
  induction es generalizing ct with
  | nil => exact List.Perm.refl _
  | cons e es ih =>
    rw [List.map_cons, List.nodup_cons] at hn
    have hp : (codeSet ct e.1 e.2).Perm (e :: ct) := tablePut_perm _ _ _ (by
      intro f hf he; exact hd f hf (by simp [he]))
    rw [List.foldl_cons]
    refine (ih _ hn.2 ?_).trans ?_
    · intro f hf
      rcases List.mem_cons.1 (hp.mem_iff.1 hf) with rfl | hf
      · exact hn.1
      · have := hd f hf; simp at this; simp; tauto
    · exact ((hp.append_left es).trans List.perm_middle)

/-! ### Trees without weights (R217) -/

/-- Paths do not depend on weights. -/
theorem HuffTree.follow_strip (t : HuffTree) (p : List Bool) : t.strip.follow p = t.follow p := by
  induction t generalizing p with
  | leaf s w => cases p <;> rfl
  | node w l r hl hr => cases p with
    | nil => rfl
    | cons b p => cases b <;> simp [HuffTree.strip, HuffTree.follow, hl, hr]

/-- Where a path leads inside does not depend on weights. -/
theorem HuffTree.leadsInside_strip (t : HuffTree) (p : List Bool) : t.strip.leadsInside p = t.leadsInside p := by
  induction t generalizing p with
  | leaf => cases p <;> rfl
  | node w l r hl hr =>
    cases p with
    | nil => rfl
    | cons b q => cases b <;> simp [HuffTree.strip, HuffTree.leadsInside, hl, hr]

/-- Being a leaf does not depend on weights. -/
theorem HuffTree.isLeaf_strip (t : HuffTree) : t.strip.isLeaf = t.isLeaf := by cases t <;> rfl

/-- Being the EOS leaf does not depend on weights. -/
theorem HuffTree.isEosLeaf_strip (par : Params) (t : HuffTree) : t.strip.isEosLeaf par = t.isEosLeaf par := by cases t <;> rfl

end Sys2Proof.Machine
end

