-- ==== Sys2Proof/Laws/Ports.lean ====
section
/-!
SUPPORT. The ports: what one read does, what a run of written bits does, and what each close leaves (R75 to R78).
-/

namespace Sys2Proof.Machine

/-! ### Reading (R76) -/

/-- A read of n bits when the open supply begins with n bits a. -/
theorem readBits_append {n : Nat} {a b : List Bool} {p : Ports} (h : p.rest = a ++ b) (ha : a.length = n) :
    readBits n p = (some (bitsToNat a),
      { p with rest := b, inPos := p.inPos + n, inBits := p.inBits + BitVec.ofNat 64 n }) := by
  subst ha
  simp [readBits, h]

/-- A short read consumes what is left and gives EOS_MARK. -/
theorem readBits_short {n : Nat} {p : Ports} (h : p.rest.length < n) :
    readBits n p = (none,
      { p with rest := [], inPos := p.inPos + p.rest.length, inBits := p.inBits + BitVec.ofNat 64 p.rest.length }) := by
  unfold readBits
  rw [if_neg]
  simp; omega

/-- Everything one read can do. -/
theorem readBits_cases (n : Nat) (p : Ports) :
    (∃ a b, p.rest = a ++ b ∧ a.length = n ∧ readBits n p = (some (bitsToNat a),
        { p with rest := b, inPos := p.inPos + n, inBits := p.inBits + BitVec.ofNat 64 n })) ∨
    (p.rest.length < n ∧ readBits n p = (none,
        { p with rest := [], inPos := p.inPos + p.rest.length, inBits := p.inBits + BitVec.ofNat 64 p.rest.length })) := by
  by_cases h : p.rest.length < n
  · exact .inr ⟨h, readBits_short h⟩
  · exact .inl ⟨p.rest.take n, p.rest.drop n, (List.take_append_drop _ _).symm, by simp; omega,
      readBits_append (List.take_append_drop _ _).symm (by simp; omega)⟩

/-- A read touches nothing of the OUT side. -/
theorem readBits_out (n : Nat) (p : Ports) :
    (readBits n p).2.outPend = p.outPend ∧ (readBits n p).2.bitsWritten = p.bitsWritten
      ∧ (readBits n p).2.log = p.log := by
  rcases readBits_cases n p with ⟨a, b, _, _, h⟩ | ⟨_, h⟩ <;> rw [h] <;> exact ⟨rfl, rfl, rfl⟩

/-- A successful read of one bit or more leaves fewer unread bits. -/
theorem readBits_rest_length {n : Nat} {p : Ports} {v : Nat} (h : (readBits n p).1 = some v) :
    (readBits n p).2.rest.length + n = p.rest.length := by
  rcases readBits_cases n p with ⟨a, b, h1, h2, h3⟩ | ⟨_, h3⟩
  · rw [h3, h1]; simp [← h2, Nat.add_comm]
  · rw [h3] at h; simp at h

/-- A value read fits its width. -/
theorem readBits_lt {n v : Nat} {p : Ports} (h : (readBits n p).1 = some v) : v < 2 ^ n := by
  rcases readBits_cases n p with ⟨a, b, _, h2, h3⟩ | ⟨_, h3⟩
  · rw [h3] at h
    obtain rfl : bitsToNat a = v := by simpa using h
    exact h2 ▸ bitsToNat_lt a
  · rw [h3] at h; simp at h

/-! ### Writing (R75) -/

@[simp] theorem writeCode_nil (p : Ports) : writeCode [] p = p := rfl

@[simp] theorem writeCode_cons (b : Bool) (c : List Bool) (p : Ports) :
    writeCode (b :: c) p = writeCode c (writeBit p b) := rfl

theorem writeCode_append (a b : List Bool) (p : Ports) : writeCode (a ++ b) p = writeCode b (writeCode a p) := by
  simp [writeCode]

/-- The whole bytes of a bit string, in order. -/
def wholeBytes (bits : List Bool) : List Byte :=
  (List.range (bits.length / 8)).map (fun j => packByte ((bits.drop (8 * j)).take 8))

theorem wholeBytes_short {bits : List Bool} (h : bits.length < 8) : wholeBytes bits = [] := by
  simp [wholeBytes, Nat.div_eq_of_lt h]

/-- The first eight bits give the first byte. -/
theorem wholeBytes_append {a b : List Bool} (h : a.length = 8) : wholeBytes (a ++ b) = packByte a :: wholeBytes b := by
  unfold wholeBytes
  have h1 : (a ++ b).length / 8 = b.length / 8 + 1 := by simp [h]
  rw [h1, List.range_succ_eq_map, List.map_cons, List.map_map]
  congr 1
  · simp [← h]
  · apply List.map_congr_left
    intro j _
    have : 8 * (j + 1) = a.length + 8 * j := by omega
    simp [this]

/-- One more bit, then n more, is n + 1 more. -/
theorem counter_succ (x : Counter) (n : Nat) : x + 1#64 + BitVec.ofNat 64 n = x + BitVec.ofNat 64 (n + 1) := by
  apply BitVec.eq_of_toNat_eq
  simp [BitVec.toNat_add, BitVec.toNat_ofNat]
  omega

/-- One written bit touches nothing of the IN side. -/
theorem writeBit_in (p : Ports) (b : Bool) :
    (writeBit p b).rest = p.rest ∧ (writeBit p b).inPos = p.inPos ∧ (writeBit p b).inBits = p.inBits := by
  unfold writeBit
  split <;> exact ⟨rfl, rfl, rfl⟩

/-- What a run of written bits does to the packer, started with fewer than eight bits pending. -/
theorem writeCode_eq (c : List Bool) (p : Ports) (h : p.outPend.length < 8) :
    writeCode c p = { p with
      outPend := (p.outPend ++ c).drop (8 * ((p.outPend ++ c).length / 8)),
      bitsWritten := p.bitsWritten + BitVec.ofNat 64 c.length,
      log := p.log ++ (wholeBytes (p.outPend ++ c)).map .byte } := by
  induction c generalizing p with
  | nil =>
    have : p.outPend.length / 8 = 0 := Nat.div_eq_of_lt h
    simp [wholeBytes_short h, this]
  | cons b c ih =>
    rw [writeCode_cons]
    unfold writeBit
    split
    · rename_i h8
      rw [ih _ (by simp)]
      have e : p.outPend ++ b :: c = (p.outPend ++ [b]) ++ c := by simp
      have hl : (p.outPend ++ b :: c).length / 8 = c.length / 8 + 1 := by
        rw [e, List.length_append, h8]; omega
      have hd : (p.outPend ++ b :: c).drop (8 * (c.length / 8 + 1)) = c.drop (8 * (c.length / 8)) := by
        have : 8 * (c.length / 8 + 1) = (p.outPend ++ [b]).length + 8 * (c.length / 8) := by rw [h8]; ring
        rw [e, this, List.drop_append]
        simp
      rw [hl, hd, e, wholeBytes_append h8]
      simp [counter_succ]
    · rename_i h8
      have h8' : p.outPend.length + 1 < 8 := by
        simp only [List.length_append, List.length_cons, List.length_nil] at h8; omega
      rw [ih _ (by simp; omega)]
      simp [counter_succ]

/-- The packer never holds a whole byte (R55). -/
theorem writeCode_pend_lt (c : List Bool) (p : Ports) (h : p.outPend.length < 8) :
    (writeCode c p).outPend.length < 8 := by
  rw [writeCode_eq c p h]
  simp only [List.length_drop]
  omega

/-- Writing touches nothing of the IN side. -/
theorem writeCode_in (c : List Bool) (p : Ports) :
    (writeCode c p).rest = p.rest ∧ (writeCode c p).inPos = p.inPos ∧ (writeCode c p).inBits = p.inBits := by
  induction c generalizing p with
  | nil => exact ⟨rfl, rfl, rfl⟩
  | cons b c ih =>
    rw [writeCode_cons]
    obtain ⟨h1, h2, h3⟩ := ih (writeBit p b)
    obtain ⟨g1, g2, g3⟩ := writeBit_in p b
    exact ⟨h1.trans g1, h2.trans g2, h3.trans g3⟩

/-- The OUT bytes already sent stay sent: writing only adds to the log. -/
theorem writeCode_log (c : List Bool) (p : Ports) : p.log <+: (writeCode c p).log := by
  induction c generalizing p with
  | nil => exact List.prefix_refl _
  | cons b c ih =>
    rw [writeCode_cons]
    refine List.IsPrefix.trans ?_ (ih (writeBit p b))
    unfold writeBit
    split
    · exact List.prefix_append _ _
    · exact List.prefix_refl _

/-! ### Flush and close (R75, R78) -/

/-- After a flush nothing is pending. -/
@[simp] theorem flush_outPend (p : Ports) : (flush p).outPend = [] := by
  unfold flush
  split <;> simp_all

/-- A flush leaves the IN side and BITS_WRITTEN alone. -/
theorem flush_keeps (p : Ports) :
    (flush p).rest = p.rest ∧ (flush p).inPos = p.inPos ∧ (flush p).inBits = p.inBits
      ∧ (flush p).bitsWritten = p.bitsWritten := by
  unfold flush
  split <;> simp

/-- A flush with nothing pending emits nothing (R245). -/
theorem flush_of_empty {p : Ports} (h : p.outPend = []) : flush p = p := by simp [flush, h]

/-- MEASURE's close sequence releases the supply and tells the collaborator. -/
theorem closeSequence_measure (f : HdrFmt) (p : Ports) :
    closeSequence (.measure f) p = { p with rest := [], inPos := 0, log := p.log ++ [.closeIn] } := rfl

/-- The close sequence of a command that uses no port does nothing. -/
theorem closeSequence_plain {i : Instr} (h : i.isStream = false) (p : Ports) : closeSequence i p = p := by
  cases i <;> first | rfl | cases h

/-! ### One bit, and advancing a counter twice -/

/-- A read of one bit from a supply that has one. -/
theorem readBit_cons {b : Bool} {more : List Bool} {p : Ports} (h : p.rest = b :: more) : readBits 1 p = (some b.toNat,
      { p with rest := more, inPos := p.inPos + 1, inBits := p.inBits + BitVec.ofNat 64 1 }) := by
  have := readBits_append (n := 1) (a := [b]) (b := more) (p := p) h rfl
  rw [this]; simp [bitsToNat]

/-- Two advances of a counter are one. -/
theorem counter_add (a b : Nat) (x : Counter) : x + BitVec.ofNat 64 a + BitVec.ofNat 64 b = x + BitVec.ofNat 64 (a
    + b) := by
  rw [BitVec.add_assoc, ← BitVec.ofNat_add]

/-- A 32-bit field holds a value exactly when it is that value's bit string. -/
theorem bitsToNat_eq_iff {l : List Bool} {v : Nat} (hv : v < 2^32) (h : l.length = 32) : bitsToNat l = v ↔ l = bitsMsb
    32 v := by
  constructor
  · intro hb; rw [← hb, ← h, bitsMsb_bitsToNat]
  · rintro rfl; exact bitsToNat_bitsMsb_of_lt hv

/-- Taking a known first part of a string. -/
theorem take_of_length {a c : List Bool} {n : Nat} (h : a.length = n) : (a ++ c).take n = a := by subst h; simp

/-- Dropping a known first part of a string. -/
theorem drop_of_length {a c : List Bool} {n : Nat} (h : a.length = n) : (a ++ c).drop n = c := by subst h; simp

/-! ### Writing leaves the IN side alone (R75) -/

/-- The IN side of the ports passes through one written bit. -/
theorem writeBit_setIn (p : Ports) (x : Bool) (r : List Bool) (i : Nat) (n : Counter) :
    writeBit { p with rest := r, inPos := i, inBits := n } x = { writeBit p x with rest := r, inPos := i, inBits := n } := by
  unfold writeBit; simp only; split <;> rfl

/-- The IN side of the ports passes through a written string. -/
theorem writeCode_setIn (c : List Bool) (p : Ports) (r : List Bool) (i : Nat) (n : Counter) :
    writeCode c { p with rest := r, inPos := i, inBits := n } = { writeCode c p with rest := r, inPos := i, inBits := n } := by
  induction c generalizing p with
  | nil => rfl
  | cons x c ih => rw [writeCode_cons, writeCode_cons, writeBit_setIn, ih]

/-- What a written string adds to BITS_WRITTEN from an empty packer. -/
theorem writeCode_bits (c : List Bool) (p : Ports) (hp : p.outPend = []) : (writeCode c p).bitsWritten =
    p.bitsWritten + BitVec.ofNat 64 c.length := by
  rw [writeCode_eq c p (by simp [hp])]

end Sys2Proof.Machine
end

