-- ==== Sys2Proof/Laws/Streams.lean ====
section
/-!
SUPPORT. What the loops over the ports do: input units, counting, writing and parsing headers, emitting and decoding
symbols (R75 to R78, R212 to R217, R241 to R246, R273, R274).
-/

namespace Sys2Proof.Machine

/-! ### Bytes of a bit string (R73, R75) -/

/-- Fewer than eight bits make at most one byte. -/
theorem packBytes_short {c : List Bool} (h : c.length < 8) : packBytes c = if c = [] then [] else [packByte
    (padTake 8 c)] := by
  unfold packBytes
  by_cases hc : c = []
  · simp [hc]
  · have : 0 < c.length := List.length_pos_iff.2 hc
    have h1 : (c.length + 7) / 8 = 1 := by omega
    rw [h1, if_neg hc]; rfl

/-- Eight bits make the first byte. -/
theorem packBytes_cons8 {a b : List Bool} (h : a.length = 8) : packBytes (a ++ b) = packByte a :: packBytes b := by
  unfold packBytes
  have h1 : ((a ++ b).length + 7) / 8 = (b.length + 7) / 8 + 1 := by simp [h]; omega
  rw [h1, List.range_succ_eq_map, List.map_cons, List.map_map]
  congr 1
  · simp only [Nat.mul_zero, List.drop_zero]
    rw [padTake_of_le (by simp [h]), ← h, List.take_left]
  · apply List.map_congr_left
    intro j _
    simp only [Function.comp_apply]
    rw [show 8 * (j + 1) = a.length + 8 * j by omega, ← List.drop_drop, List.drop_left]

/-- The bytes sent while writing, then the flushed one. -/
theorem packBytes_eq (c : List Bool) : packBytes c = wholeBytes c ++ (if c.drop (8 * (c.length / 8)) = [] then
    [] else [packByte (padTake 8 (c.drop (8 * (c.length / 8))))]) := by
  generalize hn : c.length / 8 = n
  induction n generalizing c with
  | zero =>
    have : c.length < 8 := by omega
    rw [packBytes_short this, wholeBytes_short this]; simp
  | succ n ih =>
    obtain ⟨a, b, rfl, ha⟩ : ∃ a b, c = a ++ b ∧ a.length = 8 := ⟨c.take 8, c.drop 8, (List.take_append_drop _ _).symm, by simp; omega⟩
    have hb : b.length / 8 = n := by simp [ha] at hn; omega
    rw [packBytes_cons8 ha, wholeBytes_append ha, ih b hb]
    have : (a ++ b).drop (8 * (n + 1)) = b.drop (8 * n) := by
      rw [show 8 * (n + 1) = a.length + 8 * n by omega, ← List.drop_drop, List.drop_left]
    rw [this]; rfl

/-- How many bytes a bit string makes. -/
theorem packBytes_length (c : List Bool) : (packBytes c).length = (c.length + 7) / 8 := by simp [packBytes]

/-! ### Input units (R77) -/

/-- Too few bits for one unit make none. -/
theorem unitsOf_short {w : Nat} {bits : List Bool} (h : bits.length < w) : unitsOf w bits = [] := by
  simp [unitsOf, Nat.div_eq_of_lt h]

/-- The first unit of a string. -/
theorem unitsOf_append {w : Nat} {a b : List Bool} (hw : 0 < w) (h : a.length = w) : unitsOf w (a ++ b) =
    bitsToNat a :: unitsOf w b := by
  unfold unitsOf
  have h1 : (a ++ b).length / w = b.length / w + 1 := by
    rw [List.length_append, h, Nat.add_comm, Nat.add_div_right _ hw]
  rw [h1, List.range_succ_eq_map, List.map_cons, List.map_map]
  congr 1
  · simp [← h]
  · apply List.map_congr_left
    intro j _
    simp only [Function.comp_apply]
    rw [show (j + 1) * w = a.length + j * w by rw [h, Nat.add_mul, Nat.add_comm]; simp, ← List.drop_drop, List.drop_left]

/-- A unit fits its width. -/
theorem unitsOf_lt {w : Nat} {bits : List Bool} {u : Nat} (h : u ∈ unitsOf w bits) : u < 2 ^ w := by
  unfold unitsOf at h
  obtain ⟨j, hj, rfl⟩ := List.mem_map.1 h
  refine lt_of_lt_of_le (bitsToNat_lt _) (Nat.pow_le_pow_right (by omega) ?_)
  simp

/-- How many units a string has. -/
theorem unitsOf_length (w : Nat) (bits : List Bool) : (unitsOf w bits).length = bits.length / w := by simp [unitsOf]

/-- How many symbols a supply has. -/
theorem inputSymbols_length (par : Params) (b : List Byte) : (inputSymbols par b).length = 8 * b.length / par.w := by
  simp [inputSymbols, unitsOf_length]

/-- An input symbol is a normal symbol. -/
theorem inputSymbols_lt {par : Params} {b : List Byte} {x : Nat} (h : x ∈ inputSymbols par b) : x < par.alphSize :=
  unitsOf_lt h

/-- At W = 8 the symbols are the bytes. -/
theorem inputSymbols_w8 {par : Params} (h : par.w = 8) (b : List Byte) : inputSymbols par b = b.map
    BitVec.toNat := by
  unfold inputSymbols; rw [h]
  induction b with
  | nil => simp [unitsOf]
  | cons x b ih =>
    rw [supplyBits_cons, unitsOf_append (by omega) (by simp), ih, List.map_cons]
    congr 1
    exact bitsToNat_bitsMsb_of_lt x.isLt

/-- At W = 8 the units of a supply are its bytes again. -/
theorem packBytes_units (par : Params) (h : par.w = 8) (b : List Byte) : packBytes (unitsString par (inputSymbols par
    b)) = b := by
  rw [inputSymbols_w8 h]
  have : unitsString par (b.map BitVec.toNat) = supplyBits b := by
    unfold unitsString supplyBits
    rw [List.flatMap_map, h]; rfl
  rw [this]
  clear this
  induction b with
  | nil => rfl
  | cons x b ih => rw [supplyBits_cons, packBytes_cons8 (by simp), packByte_byteBits, ih]

/-! ### Counting (R241) -/

/-- One turn of CountInput on FREQ. -/
def countSymbol (m : Memory) (u : Nat) : Memory := freqSet m u (freqGet m u + 1)

/-- What counting a list of symbols makes of one entry. -/
theorem countSymbol_get (us : List Nat) (m : Memory) (x : Nat) : freqGet (us.foldl countSymbol m) x = freqGet m x +
    BitVec.ofNat 32 (us.count x) := by
  induction us generalizing m with
  | nil => simp
  | cons u us ih =>
    rw [List.foldl_cons, ih, countSymbol, freqGet_set, List.count_cons]
    by_cases h : x = u
    · subst h; simp [BitVec.ofNat_add, BitVec.add_assoc, BitVec.add_comm]
    · simp [h, Ne.symm h]

/-- Counting normal symbols keeps the canonical form. -/
theorem countSymbol_wf (n : Nat) (us : List Nat) (m : Memory) (hx : ∀ x ∈ us, x < n) (hm : Memory.wf n m = true) :
    Memory.wf n (us.foldl countSymbol m) = true := by
  induction us generalizing m with
  | nil => exact hm
  | cons x xs ih => exact ih _ (fun y hy => hx y (by simp [hy])) (Memory.wf_set (hx x (by simp)) _ hm)

/-- A count below its limit is not full. -/
theorem count_not_full {c : Word} {n : Nat} (h : c.toNat + (n + 1) < 2 ^ 32) : ¬ c = 0xFFFFFFFF#32 := by
  rintro rfl; simp at h; omega

/-- Adding one to a word that is not full. -/
theorem word_succ_toNat {c : Word} (h : c.toNat + 1 < 2 ^ 32) : (c + 1).toNat = c.toNat + 1 := by
  rw [BitVec.toNat_add]; simp; omega

/-- CountInput on a supply in which no symbol overflows. -/
theorem countInput_ok (par : Params) (hw : 0 < par.w) (k n : Nat) (m : Memory) (p : Ports) (hk : p.rest.length < k)
   (hc : ∀ u, (freqGet m u).toNat + (unitsOf par.w p.rest).count u < 2 ^ 32) :
   countInput par k n m p = .ok (n + (unitsOf par.w p.rest).length) ((unitsOf par.w p.rest).foldl countSymbol m,
     { p with rest := [], inPos := p.inPos + p.rest.length, inBits := p.inBits + BitVec.ofNat 64 p.rest.length }) := by
  induction k generalizing n m p with
  | zero => omega
  | succ k ih =>
    rw [countInput]
    rcases readBits_cases par.w p with ⟨a, b, h1, h2, h3⟩ | ⟨h2, h3⟩
    · rw [readUnit, h3]
      simp only
      rw [h1, unitsOf_append hw h2] at hc
      have hcu := hc (bitsToNat a)
      simp only [List.count_cons_self] at hcu
      rw [if_neg (count_not_full hcu)]
      have hb := word_succ_toNat (c := freqGet m (bitsToNat a)) (by omega)
      rw [ih]
      · rw [h1, unitsOf_append hw h2]
        simp only [List.length_cons, List.foldl_cons, countSymbol, counter_add, List.length_append, h2, Nat.add_assoc]
        rw [Nat.add_comm 1]
      · rw [h1, List.length_append] at hk; simp only; omega
      · intro u
        simp only
        have := hc u
        rw [freqGet_set]
        by_cases h : u = bitsToNat a
        · rw [if_pos h, hb]; subst h; omega
        · rw [if_neg h]; rw [List.count_cons] at this; split at this <;> simp_all
    · rw [readUnit, h3]; simp [unitsOf_short h2]

/-- CountInput up to the symbol that overflows. -/
theorem countInput_overflow (par : Params) (hw : 0 < par.w) (k n : Nat) (m : Memory) (p : Ports) (pre post : List Nat) (u : Nat) (hk : p.rest.length < k)
   (hu : unitsOf par.w p.rest = pre ++ u :: post)
   (hc : ∀ v, (freqGet m v).toNat + pre.count v < 2 ^ 32) (ho : (freqGet m u).toNat + pre.count u = 2 ^ 32 - 1) :
   countInput par k n m p = .raise .countOverflow (pre.foldl countSymbol m,
     { p with rest := p.rest.drop ((pre.length + 1) * par.w), inPos := p.inPos + (pre.length + 1) * par.w, inBits := p.inBits + BitVec.ofNat 64 ((pre.length + 1) * par.w) }) := by
  induction k generalizing n m p pre with
  | zero => omega
  | succ k ih =>
    rw [countInput]
    rcases readBits_cases par.w p with ⟨a, b, h1, h2, h3⟩ | ⟨h2, h3⟩
    · rw [readUnit, h3]
      simp only
      rw [h1, unitsOf_append hw h2] at hu
      have hd : ∀ j, (a ++ b).drop ((j + 1) * par.w) = b.drop (j * par.w) := by
        intro j
        rw [show (j + 1) * par.w = a.length + j * par.w by rw [h2, Nat.add_mul, Nat.add_comm]; simp, ← List.drop_drop, List.drop_left]
      cases pre with
      | nil =>
        simp only [List.nil_append, List.cons.injEq] at hu
        rw [hu.1]
        simp only [List.count_nil, Nat.add_zero] at ho
        rw [if_pos (BitVec.eq_of_toNat_eq (by rw [ho]; rfl))]
        have := hd 0
        simp only [Nat.zero_mul, List.drop_zero, Nat.zero_add, Nat.one_mul] at this
        simp [h1, this]
      | cons v pre =>
        simp only [List.cons_append, List.cons.injEq] at hu
        rw [hu.1]
        have hcv := hc v
        simp only [List.count_cons_self] at hcv
        rw [if_neg (count_not_full hcv)]
        have hb := word_succ_toNat (c := freqGet m v) (by omega)
        rw [ih (n + 1) (freqSet m v (freqGet m v + 1)) _ pre]
        · simp only [List.foldl_cons, countSymbol, List.length_cons]
          rw [h1, hd]
          have : par.w + (pre.length + 1) * par.w = (pre.length + 1 + 1) * par.w := by rw [Nat.add_mul (pre.length + 1)]; omega
          simp only [counter_add, Nat.add_assoc]
          rw [this]
        · rw [h1, List.length_append] at hk; simp only; omega
        · exact hu.2
        · intro x
          have := hc x
          rw [freqGet_set]
          by_cases h : x = v
          · rw [if_pos h, hb]; subst h; omega
          · rw [if_neg h]; rw [List.count_cons] at this; split at this <;> simp_all
        · rw [freqGet_set]
          by_cases h : u = v
          · rw [if_pos h, hb]; subst h; simp only [List.count_cons_self] at ho; omega
          · rw [if_neg h]; rw [List.count_cons] at ho; split at ho <;> simp_all
    · rw [unitsOf_short h2] at hu; simp at hu

/-- One turn of CountInput adds one to the total. -/
theorem freqTotal_set {par : Params} {m : Memory} {u : Nat} (hu : u < par.alphSize) (h : freqGet m u ≠
    0xFFFFFFFF#32) : freqTotal par (freqSet m u (freqGet m u + 1)) = freqTotal par m + 1 := by
  have hb : (freqGet m u + 1).toNat = (freqGet m u).toNat + 1 := by
    apply word_succ_toNat
    have := (freqGet m u).isLt
    have : (freqGet m u).toNat ≠ 2^32 - 1 := by
      intro h'; apply h; apply BitVec.eq_of_toNat_eq; rw [h']; rfl
    omega
  unfold freqTotal
  have key : ∀ l : List Nat, l.Nodup → (l.map (fun s => (freqGet (freqSet m u (freqGet m u + 1)) s).toNat)).sum = (l.map (fun s => (freqGet m s).toNat)).sum + if u ∈ l then 1 else 0 := by
    intro l hl
    induction l with
    | nil => rfl
    | cons x l ih =>
      rw [List.nodup_cons] at hl
      rw [List.map_cons, List.sum_cons, ih hl.2, List.map_cons, List.sum_cons, freqGet_set]
      by_cases hxu : x = u
      · subst hxu; rw [if_pos rfl, hb]; simp [hl.1]; omega
      · rw [if_neg hxu]; simp [Ne.symm hxu]; split <;> omega
  rw [key _ List.nodup_range, if_pos (by simpa using hu)]

/-- CountInput returns how many symbols it counted. -/
theorem countInput_total (par : Params) (k n : Nat) (m : Memory) (p : Ports) (n' : Nat) (st : Memory × Ports)
    (h : countInput par k n m p = .ok n' st) : n' + freqTotal par m = n + freqTotal par st.1 := by
  induction k generalizing n m p with
  | zero => cases h; rfl
  | succ k ih =>
    rw [countInput] at h
    have hlt := fun v => readBits_lt (n := par.w) (v := v) (p := p)
    unfold readUnit at h
    generalize readBits par.w p = rb at *
    obtain ⟨_ | u, q⟩ := rb
    · cases h; rfl
    · simp only at h
      split at h
      · cases h
      · rename_i hne
        have := ih _ _ _ h
        rw [freqTotal_set (hlt u rfl) hne] at this
        omega

/-! ### Headers (R212 to R216) -/

/-- A COUNTS payload as one bit string. -/
theorem writeCounts_eq (par : Params) (m : Memory) (p : Ports) : writeCounts par m p = writeCode (countsString
    par m) p := by
  unfold writeCounts countsString
  induction List.range par.alphSize generalizing p with
  | nil => rfl
  | cons x l ih => rw [List.foldl_cons, ih, List.flatMap_cons, writeCode_append]; rfl

/-- A tree as one bit string. -/
theorem writeNode_eq (par : Params) (t : HuffTree) (p : Ports) : writeNode par t p = writeCode (treeString par
    t) p := by
  induction t generalizing p with
  | leaf s w => simp only [writeNode, treeString, writeBits, bitsMsb, writeCode_cons, writeCode_nil]; rfl
  | node w l r hl hr => simp only [writeNode, treeString, hl, hr, writeBits, writeCode_cons, writeCode_append]; rfl

/-- A header as one bit string. -/
theorem writeHeader_eq (s : State) (t : HuffTree) (h : s.root = some t) (p : Ports) : writeHeader s p =
    writeCode (headerString s.par s.hdrFmt s.freq t) p := by
  unfold writeHeader writePayload headerString
  cases s.hdrFmt
  · simp only [writeCounts_eq, writeBits, writeCode_append]
  · rw [h]; simp only [writeTree, writeNode_eq, writeBits, writeCode_append]

/-- Setting normal entries keeps the canonical form. -/
theorem foldl_freqSet_wf (n : Nat) (xs : List Nat) (g : Nat → Word) (m : Memory) (hx : ∀ x ∈ xs, x < n) (hm :
    Memory.wf n m = true) : Memory.wf n (xs.foldl (fun m s => freqSet m s (g s)) m) = true := by
  induction xs generalizing m with
  | nil => exact hm
  | cons x xs ih => exact ih _ (fun y hy => hx y (by simp [hy])) (Memory.wf_set (hx x (by simp)) _ hm)

/-- What setting a list of entries makes of one entry. -/
theorem foldl_freqSet_get (xs : List Nat) (g : Nat → Word) (m : Memory) (x : Nat) : freqGet (xs.foldl (fun m s
    => freqSet m s (g s)) m) x = if x ∈ xs then g x else freqGet m x := by
  induction xs generalizing m with
  | nil => simp
  | cons y xs ih =>
    rw [List.foldl_cons, ih, freqGet_set]
    by_cases h : x ∈ xs
    · simp [h]
    · by_cases h2 : x = y <;> simp [h, h2]

/-- Setting every entry from a canonical table gives that table. -/
theorem foldl_freqSet_self (n : Nat) (m : Memory) (hm : Memory.wf n m = true) : (List.range n).foldl (fun m' s
    => freqSet m' s (freqGet m s)) [] = m := by
  apply Memory.ext_of_wf (n := n) (foldl_freqSet_wf n _ _ _ (by simp) (Memory.wf_nil n)) hm
  intro s
  rw [foldl_freqSet_get]
  by_cases h : s < n
  · simp [h]
  · simp [h, freqGet_of_wf hm (Nat.not_lt.1 h)]

/-- Parsing 32-bit counts written one after another. -/
theorem parseCounts_string (xs : List Nat) (g : Nat → Word) (m : Memory) (p : Ports) (more : List Bool) (hp : p.rest = xs.flatMap (fun s => bitsMsb 32 (g s).toNat) ++ more) :
  parseCounts xs m p = .ok () (xs.foldl (fun m s => freqSet m s (g s)) m, { p with
          rest := more, inPos := p.inPos + 32 * xs.length,
          inBits := p.inBits + BitVec.ofNat 64 (32 * xs.length) }) := by
  induction xs generalizing m p with
  | nil => simp at hp; simp [parseCounts, ← hp]
  | cons x xs ih =>
    rw [parseCounts, readBits_append (a := bitsMsb 32 (g x).toNat) (b := xs.flatMap (fun s => bitsMsb 32 (g s).toNat) ++ more) (by rw [hp]; simp) (by simp)]
    simp only [bitsToNat_bitsMsb_of_lt (g x).isLt, BitVec.ofNat_toNat, BitVec.setWidth_eq]
    rw [ih _ _ rfl]
    simp only [List.foldl_cons, List.length_cons, counter_add, Nat.add_assoc]
    rw [show 32 + 32 * xs.length = 32 * (xs.length + 1) by omega]

/-- A supply that ends inside the counts (R213). -/
theorem parseCounts_short (xs ys : List Nat) (g : Nat → Word) (m : Memory) (p : Ports) (y : Nat) (short : List Bool) (hs : short.length < 32)
    (hp : p.rest = xs.flatMap (fun s => bitsMsb 32 (g s).toNat) ++ short) :
    parseCounts (xs ++ y :: ys) m p = .raise .truncatedStream (xs.foldl (fun m s => freqSet m s (g s)) m, { p with
          rest := [], inPos := p.inPos + (32 * xs.length + short.length),
          inBits := p.inBits + BitVec.ofNat 64 (32 * xs.length + short.length) }) := by
  induction xs generalizing m p with
  | nil => simp at hp; simp [parseCounts, readBits_short (n := 32) (p := p) (by rw [hp]; exact hs), hp]
  | cons x xs ih =>
    rw [List.cons_append, parseCounts, readBits_append (a := bitsMsb 32 (g x).toNat) (b := xs.flatMap (fun s => bitsMsb 32 (g s).toNat) ++ short) (by rw [hp]; simp) (by simp)]
    simp only [bitsToNat_bitsMsb_of_lt (g x).isLt, BitVec.ofNat_toNat, BitVec.setWidth_eq]
    rw [ih _ _ rfl]
    simp only [List.foldl_cons, List.length_cons, counter_add, Nat.add_assoc]
    rw [show 32 + (32 * xs.length + short.length) = 32 * (xs.length + 1) + short.length by omega]

/-! ### Symbols (R246, R273, R274) -/

/-- The close of a stream command after a written string: packed bytes, flush, both close events (R78). -/
theorem closeSequence_writeCode (i : Instr) (hi : (∃ b, i = .compress b) ∨ i = .decompress) (c : List Bool) (p : Ports) (h : p.outPend = []) :
    closeSequence i (writeCode c p) = { rest := [], inPos := 0, inBits := p.inBits, outPend := [], bitsWritten := p.bitsWritten + BitVec.ofNat 64 c.length, log := p.log ++ (packBytes c).map .byte ++ [.closeOut, .closeIn] } := by
  have : closeSequence i (writeCode c p) = closeIn (closeOut (flush (writeCode c p))) := by
    rcases hi with ⟨b, rfl⟩ | rfl <;> rfl
  rw [this, writeCode_eq c p (by simp [h]), packBytes_eq]
  simp only [h, List.nil_append]
  unfold flush
  by_cases hc : c.drop (8 * (c.length / 8)) = []
  · simp [hc, closeOut, closeIn]
  · simp [hc, closeOut, closeIn]

/-- Emitting the symbols of a supply that all have codes. -/
theorem emitSymbols_ok (par : Params) (hw : 0 < par.w) (ct : CodeTable) (k : Nat) (p : Ports) (hk : p.rest.length < k)
    (hc : ∀ u ∈ unitsOf par.w p.rest, codeGet ct u ≠ none) :
    emitSymbols par ct k p = .ok () (writeCode (codesString ct (unitsOf par.w p.rest))
      { p with rest := [], inPos := p.inPos + p.rest.length, inBits := p.inBits + BitVec.ofNat 64 p.rest.length }) := by
  induction k generalizing p with
  | zero => omega
  | succ k ih =>
    rw [emitSymbols]
    rcases readBits_cases par.w p with ⟨a, b, h1, h2, h3⟩ | ⟨h2, h3⟩
    · rw [readUnit, h3]
      simp only
      rw [h1, unitsOf_append hw h2] at hc
      obtain ⟨c, hcc⟩ := Option.ne_none_iff_exists'.1 (hc (bitsToNat a) (by simp))
      rw [hcc]
      simp only
      have hin := writeCode_in c { p with rest := b, inPos := p.inPos + par.w, inBits := p.inBits + BitVec.ofNat 64 par.w }
      rw [ih]
      · rw [hin.1, hin.2.1, hin.2.2, h1, unitsOf_append hw h2]
        simp only
        rw [show codesString ct (bitsToNat a :: unitsOf par.w b) = c ++ codesString ct (unitsOf par.w b) by simp [codesString, codeBits, hcc], writeCode_append]
        rw [← writeCode_setIn]
        simp only [counter_add, List.length_append, h2, Nat.add_assoc]
      · rw [hin.1]; rw [h1, List.length_append] at hk; simp only; omega
      · rw [hin.1]; intro u hu; exact hc u (by simp [hu])
    · rw [readUnit, h3]; simp [unitsOf_short h2, codesString]

/-- Emitting up to a symbol with no code. -/
theorem emitSymbols_noCode (par : Params) (hw : 0 < par.w) (ct : CodeTable) (k : Nat) (p : Ports) (hk : p.rest.length < k) (pre post : List Nat) (u : Nat)
    (hu : unitsOf par.w p.rest = pre ++ u :: post) (hc : ∀ v ∈ pre, codeGet ct v ≠ none) (hn : codeGet ct u = none) :
    emitSymbols par ct k p = .raise .noCode (writeCode (codesString ct pre)
      { p with rest := p.rest.drop ((pre.length + 1) * par.w), inPos := p.inPos + (pre.length + 1) * par.w, inBits := p.inBits + BitVec.ofNat 64 ((pre.length + 1) * par.w) }) := by
  induction k generalizing p pre with
  | zero => omega
  | succ k ih =>
    rw [emitSymbols]
    rcases readBits_cases par.w p with ⟨a, b, h1, h2, h3⟩ | ⟨h2, h3⟩
    · rw [readUnit, h3]
      simp only
      rw [h1, unitsOf_append hw h2] at hu
      have hd : ∀ j, (a ++ b).drop ((j + 1) * par.w) = b.drop (j * par.w) := by
        intro j
        rw [show (j + 1) * par.w = a.length + j * par.w by rw [h2, Nat.add_mul, Nat.add_comm]; simp, ← List.drop_drop, List.drop_left]
      cases pre with
      | nil =>
        simp only [List.nil_append, List.cons.injEq] at hu
        rw [hu.1, hn]
        have := hd 0
        simp only [Nat.zero_mul, List.drop_zero, Nat.zero_add, Nat.one_mul] at this
        simp [h1, this, codesString]
      | cons v pre =>
        simp only [List.cons_append, List.cons.injEq] at hu
        rw [hu.1]
        obtain ⟨c, hcc⟩ := Option.ne_none_iff_exists'.1 (hc v (by simp))
        rw [hcc]
        simp only
        have hin := writeCode_in c { p with rest := b, inPos := p.inPos + par.w, inBits := p.inBits + BitVec.ofNat 64 par.w }
        rw [ih _ _ pre]
        · rw [hin.1, hin.2.1, hin.2.2, h1]
          simp only
          rw [show codesString ct (v :: pre) = c ++ codesString ct pre by simp [codesString, codeBits, hcc], writeCode_append]
          rw [← writeCode_setIn]
          have : par.w + (pre.length + 1) * par.w = (pre.length + 1 + 1) * par.w := by rw [Nat.add_mul (pre.length + 1)]; omega
          simp only [List.length_cons, hd, counter_add, Nat.add_assoc] at *
          rw [this]
        · rw [hin.1]; exact hu.2
        · intro x hx; exact hc x (by simp [hx])
        · rw [hin.1]; rw [h1, List.length_append] at hk; simp only; omega
    · rw [unitsOf_short h2] at hu; simp at hu

/-- A walk along a path that leads to a leaf. -/
theorem walkToLeaf_follow (t : HuffTree) (path more : List Bool) (x : Nat) (p : Ports) (hf : t.follow path = some x) (hp : p.rest = path ++ more) :
    ∃ s : Symbol, s.toNat = x ∧ walkToLeaf t p = .ok s { p with rest := more, inPos := p.inPos + path.length, inBits := p.inBits + BitVec.ofNat 64 path.length } := by
  induction t generalizing path p with
  | leaf s w =>
    cases path with
    | nil => simp [HuffTree.follow] at hf; simp at hp; exact ⟨s, hf, by simp [walkToLeaf, ← hp]⟩
    | cons b q => simp [HuffTree.follow] at hf
  | node w l r hl hr =>
    cases path with
    | nil => simp [HuffTree.follow] at hf
    | cons b q =>
      simp only [walkToLeaf]
      rw [readBit_cons (b := b) (more := q ++ more) (by rw [hp]; rfl)]
      cases b
      · obtain ⟨s, h1, h2⟩ := hl q { p with rest := q ++ more, inPos := p.inPos + 1, inBits := p.inBits + BitVec.ofNat 64 1 } (by simpa [HuffTree.follow] using hf) rfl
        refine ⟨s, h1, ?_⟩
        simp only [Bool.toNat_false, if_true, h2, List.length_cons, Nat.add_assoc, counter_add]
        rw [Nat.add_comm 1]
      · obtain ⟨s, h1, h2⟩ := hr q { p with rest := q ++ more, inPos := p.inPos + 1, inBits := p.inBits + BitVec.ofNat 64 1 } (by simpa [HuffTree.follow] using hf) rfl
        refine ⟨s, h1, ?_⟩
        simp only [Bool.toNat_true, Nat.one_ne_zero, if_false, h2, List.length_cons, Nat.add_assoc, counter_add]
        rw [Nat.add_comm 1]

/-- Decoding a run of paths that ends with the EOS path. -/
theorem decodeSymbols_ok (par : Params) (r : HuffTree) (k : Nat) (p : Ports) (paths : List (List Bool)) (syms : List Nat) (last more : List Bool)
   (hx : ∀ x ∈ syms, x ≠ par.eos) (hp : paths.map r.follow = syms.map some) (hl : r.follow last = some par.eos)
   (hk : syms.length < k) (hr : p.rest = paths.flatten ++ last ++ more) :
   decodeSymbols par r k p = .ok () (writeCode (unitsString par syms) { p with rest := more, inPos := p.inPos + (paths.flatten.length + last.length), inBits := p.inBits + BitVec.ofNat 64 (paths.flatten.length + last.length) }) := by
  induction k generalizing p paths syms with
  | zero => omega
  | succ k ih =>
    rw [decodeSymbols]
    cases syms with
    | nil =>
      simp only [List.map_nil, List.map_eq_nil_iff] at hp
      subst hp
      obtain ⟨s, h1, h2⟩ := walkToLeaf_follow r last more _ p hl (by simpa using hr)
      rw [h2]; simp [h1, unitsString]
    | cons x syms =>
      cases paths with
      | nil => simp at hp
      | cons path paths =>
        simp only [List.map_cons, List.cons.injEq] at hp
        obtain ⟨s, h1, h2⟩ := walkToLeaf_follow r path (paths.flatten ++ last ++ more) x p hp.1 (by rw [hr]; simp)
        rw [h2]
        have hin := writeCode_in (bitsMsb par.w s.toNat) { p with rest := paths.flatten ++ last ++ more, inPos := p.inPos + path.length, inBits := p.inBits + BitVec.ofNat 64 path.length }
        simp only
        rw [if_neg (by rw [h1]; exact hx x (by simp))]
        rw [ih _ paths syms (fun y hy => hx y (by simp [hy])) hp.2 (by simp at hk; omega) (by unfold writeBits; rw [hin.1])]
        unfold writeBits
        rw [hin.2.1, hin.2.2]
        simp only
        rw [← writeCode_setIn, h1]
        rw [show unitsString par (x :: syms) = bitsMsb par.w x ++ unitsString par syms by simp [unitsString], writeCode_append]
        simp only [List.flatten_cons, List.length_append, Nat.add_assoc, counter_add]

/-- Decoding a symbol takes at least one bit. -/
theorem paths_length (r : HuffTree) (e : Nat) (paths : List (List Bool)) (syms : List Nat) (last : List Bool) (hx :
    ∀ x ∈ syms, x ≠ e) (hp : paths.map r.follow = syms.map some) (hl : r.follow last = some e) : syms.length ≤
    paths.flatten.length := by
  have hlen : syms.length = paths.length := by have := congrArg List.length hp; simpa using this.symm
  rw [hlen]
  have : ∀ q ∈ paths, 1 ≤ q.length := by
    intro q hq
    cases q with
    | cons b q => simp
    | nil =>
      exfalso
      have hm : r.follow [] ∈ syms.map some := by rw [← hp]; exact List.mem_map_of_mem hq
      obtain ⟨x, hxs, hx'⟩ := List.mem_map.1 hm
      cases r with
      | leaf s w =>
        cases last with
        | nil => rw [hl] at hx'; exact hx x hxs (by simpa using hx')
        | cons b l => simp [HuffTree.follow] at hl
      | node w l r => simp [HuffTree.follow] at hx'
  clear hp hlen
  induction paths with
  | nil => simp
  | cons q paths ih =>
    have h1 := this q (by simp)
    have := ih (fun q hq => this q (by simp [hq]))
    simp only [List.flatten_cons, List.length_append, List.length_cons]; omega

/-- A walk of a supply that ends inside the tree. -/
theorem walkToLeaf_inside (t : HuffTree) (part : List Bool) (p : Ports) (hf : t.leadsInside part = true) (hp : p.rest = part) :
    walkToLeaf t p = .raise .truncatedStream { p with rest := [], inPos := p.inPos + part.length, inBits := p.inBits + BitVec.ofNat 64 part.length } := by
  induction t generalizing part p with
  | leaf => simp [HuffTree.leadsInside] at hf
  | node w l r hl hr =>
    cases part with
    | nil =>
      simp only [walkToLeaf]
      rw [readBits_short (by simp [hp])]
      simp [hp]
    | cons b q =>
      simp only [walkToLeaf]
      rw [readBit_cons (b := b) (more := q) hp]
      cases b
      · have := hl q { p with rest := q, inPos := p.inPos + 1, inBits := p.inBits + BitVec.ofNat 64 1 } (by simpa [HuffTree.leadsInside] using hf) rfl
        simp only [Bool.toNat_false, if_true, this, List.length_cons, Nat.add_assoc, counter_add]
        rw [Nat.add_comm 1]
      · have := hr q { p with rest := q, inPos := p.inPos + 1, inBits := p.inBits + BitVec.ofNat 64 1 } (by simpa [HuffTree.leadsInside] using hf) rfl
        simp only [Bool.toNat_true, Nat.one_ne_zero, if_false, this, List.length_cons, Nat.add_assoc, counter_add]
        rw [Nat.add_comm 1]

/-- Decoding a run of paths and then a supply that ends inside the tree. -/
theorem decodeSymbols_inside (par : Params) (r : HuffTree) (k : Nat) (p : Ports) (paths : List (List Bool)) (syms : List Nat) (part : List Bool)
   (hx : ∀ x ∈ syms, x ≠ par.eos) (hp : paths.map r.follow = syms.map some) (hl : r.leadsInside part = true)
   (hk : syms.length < k) (hr : p.rest = paths.flatten ++ part) :
   decodeSymbols par r k p = .raise .truncatedStream (writeCode (unitsString par syms) { p with rest := [], inPos := p.inPos + (paths.flatten.length + part.length), inBits := p.inBits + BitVec.ofNat 64 (paths.flatten.length + part.length) }) := by
  induction k generalizing p paths syms with
  | zero => omega
  | succ k ih =>
    rw [decodeSymbols]
    cases syms with
    | nil =>
      simp only [List.map_nil, List.map_eq_nil_iff] at hp
      subst hp
      rw [walkToLeaf_inside r part p hl (by simpa using hr)]
      simp [unitsString]
    | cons x syms =>
      cases paths with
      | nil => simp at hp
      | cons path paths =>
        simp only [List.map_cons, List.cons.injEq] at hp
        obtain ⟨s, h1, h2⟩ := walkToLeaf_follow r path (paths.flatten ++ part) x p hp.1 (by rw [hr]; simp)
        rw [h2]
        have hin := writeCode_in (bitsMsb par.w s.toNat) { p with rest := paths.flatten ++ part, inPos := p.inPos + path.length, inBits := p.inBits + BitVec.ofNat 64 path.length }
        simp only
        rw [if_neg (by rw [h1]; exact hx x (by simp))]
        rw [ih _ paths syms (fun y hy => hx y (by simp [hy])) hp.2 (by simp at hk; omega) (by unfold writeBits; rw [hin.1])]
        unfold writeBits
        rw [hin.2.1, hin.2.2]
        simp only
        rw [← writeCode_setIn, h1]
        rw [show unitsString par (x :: syms) = bitsMsb par.w x ++ unitsString par syms by simp [unitsString], writeCode_append]
        simp only [List.flatten_cons, List.length_append, Nat.add_assoc, counter_add]

/-- Below an internal root decoding a symbol takes at least one bit. -/
theorem paths_length_inside (r : HuffTree) (paths : List (List Bool)) (syms : List Nat) (part : List Bool) (hp : paths.map r.follow = syms.map some)
    (hl : r.leadsInside part = true) : syms.length ≤ paths.flatten.length := by
  induction paths generalizing syms with
  | nil => cases syms <;> simp at hp ⊢
  | cons q paths ih =>
    cases syms with
    | nil => simp
    | cons x syms =>
      simp only [List.map_cons, List.cons.injEq] at hp
      have := ih syms hp.2
      cases r with
      | leaf => simp [HuffTree.leadsInside] at hl
      | node w l r =>
        cases q with
        | nil => simp [HuffTree.follow] at hp
        | cons b q => simp at this ⊢; omega

/-- The length of the output units. -/
theorem unitsString_length (par : Params) (syms : List Nat) : (unitsString par syms).length = syms.length *
    par.w := by
  induction syms with
  | nil => simp [unitsString]
  | cons x l ih => simp only [unitsString, List.flatMap_cons, List.length_append, List.length_cons, bitsMsb_length] at *; rw [ih, Nat.add_mul]; omega

/-- The codes of symbols lead back to them. -/
theorem codes_follow (t : HuffTree) (syms : List Nat) (h : ∀ x ∈ syms, ∃ c, codeGet (deriveCodes t) x = some c)
    : (syms.map (codeBits (deriveCodes t))).map t.follow = syms.map some := by
  rw [List.map_map]
  apply List.map_congr_left
  intro x hx
  obtain ⟨c, hc⟩ := h x hx
  simp only [Function.comp_apply, codeBits, hc, Option.getD_some]
  exact (codeGet_mem hc).1

end Sys2Proof.Machine
end

