-- ==== Sys2Proof/Laws/Runs.lean ====
section
/-!
SUPPORT. Everything each loop over the ports can do, whatever the stream holds: which ports it touches, how it can
raise, which invariants it keeps.
-/

namespace Sys2Proof.Machine

/-! ### How a run ends -/

/-- The OUT side of the ports is the same. -/
def InOnly (p q : Ports) : Prop := q.outPend = p.outPend ∧ q.bitsWritten = p.bitsWritten ∧ q.log = p.log

/-- No change. -/
theorem InOnly.refl (p : Ports) : InOnly p p := ⟨rfl, rfl, rfl⟩

/-- Two changes. -/
theorem InOnly.trans {p q r : Ports} (h : InOnly p q) (h' : InOnly q r) : InOnly p r :=
  ⟨h'.1.trans h.1, h'.2.1.trans h.2.1, h'.2.2.trans h.2.2⟩

/-- A read touches the IN side only. -/
theorem readBits_inOnly (n : Nat) (p : Ports) : InOnly p (readBits n p).2 := readBits_out n p

/-- On OUT, a bit string was passed to the packer and counted, and nothing else was sent. -/
def Wrote (p q : Ports) : Prop :=
  ∃ bits, q.outPend = (writeCode bits p).outPend ∧ q.log = (writeCode bits p).log
    ∧ q.bitsWritten = p.bitsWritten + BitVec.ofNat 64 bits.length

/-- BITS_WRITTEN counts every bit passed to the packer (R45, R75). -/
theorem writeCode_bitsWritten (c : List Bool) (p : Ports) :
    (writeCode c p).bitsWritten = p.bitsWritten + BitVec.ofNat 64 c.length := by
  induction c generalizing p with
  | nil => simp
  | cons b c ih =>
    have hb : (writeBit p b).bitsWritten = p.bitsWritten + BitVec.ofNat 64 1 := by unfold writeBit; split <;> rfl
    rw [writeCode_cons, ih, hb, counter_add, List.length_cons, Nat.add_comm]

/-- The packer reads the pending bits and nothing else. -/
theorem writeCode_congr (c : List Bool) {p q : Ports} (h : q.outPend = p.outPend) (h' : q.log = p.log) :
    (writeCode c q).outPend = (writeCode c p).outPend ∧ (writeCode c q).log = (writeCode c p).log := by
  induction c generalizing p q with
  | nil => exact ⟨h, h'⟩
  | cons b c ih =>
    rw [writeCode_cons, writeCode_cons]
    apply ih <;> (unfold writeBit; rw [h, h']; split <;> rfl)

/-- A written string. -/
theorem writeCode_wrote (c : List Bool) (p : Ports) : Wrote p (writeCode c p) :=
  ⟨c, rfl, rfl, writeCode_bitsWritten c p⟩

/-- A change of the IN side only. -/
theorem InOnly.wrote {p q : Ports} (h : InOnly p q) : Wrote p q := ⟨[], h.1, h.2.2, by simp [h.2.1]⟩

/-- No change. -/
theorem Wrote.refl (p : Ports) : Wrote p p := (InOnly.refl p).wrote

/-- Two changes. -/
theorem Wrote.trans {p q r : Ports} (h : Wrote p q) (h' : Wrote q r) : Wrote p r := by
  obtain ⟨a, a1, a2, a3⟩ := h
  obtain ⟨b, b1, b2, b3⟩ := h'
  obtain ⟨c1, c2⟩ := writeCode_congr b a1 a2
  exact ⟨a ++ b, by rw [writeCode_append, b1, c1], by rw [writeCode_append, b2, c2],
    by rw [b3, a3, counter_add, List.length_append]⟩

/-- Writing sends bytes only. -/
theorem Wrote.bytes {p q : Ports} (h : Wrote p q) : ∃ bytes : List Byte, q.log = p.log ++ bytes.map .byte := by
  obtain ⟨c, -, h, -⟩ := h
  rw [h]
  clear h
  induction c generalizing p with
  | nil => exact ⟨[], by simp⟩
  | cons b c ih =>
    obtain ⟨bytes, hb⟩ := ih (p := writeBit p b)
    rw [writeCode_cons, hb]
    unfold writeBit
    split
    · exact ⟨packByte (p.outPend ++ [b]) :: bytes, by simp⟩
    · exact ⟨bytes, rfl⟩

/-- From an empty packer: the whole bytes of the string are sent, the rest is pending, every bit is counted. -/
theorem Wrote.whole {p q : Ports} (h : Wrote p q) (hp : p.outPend = []) :
    ∃ bits, q.log = p.log ++ (wholeBytes bits).map .byte ∧ (flush q).log = p.log ++ (packBytes bits).map .byte
      ∧ q.bitsWritten = p.bitsWritten + BitVec.ofNat 64 bits.length := by
  obtain ⟨c, h1, h2, h3⟩ := h
  rw [writeCode_eq c p (by simp [hp]), hp] at h1 h2
  simp only [List.nil_append] at h1 h2
  refine ⟨c, h2, ?_, h3⟩
  unfold flush
  rw [h1, packBytes_eq]
  by_cases hc : c.drop (8 * (c.length / 8)) = [] <;> simp [hc, h2]

/-- The whole bytes are the first ones of the flushed string. -/
theorem wholeBytes_take (c : List Bool) : wholeBytes c = (packBytes c).take (c.length / 8) := by
  rw [packBytes_eq, List.take_append_of_le_length (by simp [wholeBytes]), List.take_of_length_le (by simp [wholeBytes])]

/-- Flushing counts nothing (R75). -/
theorem flush_bitsWritten (p : Ports) : (flush p).bitsWritten = p.bitsWritten := by unfold flush; split <;> rfl

/-- Flushing sends bytes only. -/
theorem flush_bytes (p : Ports) : ∃ bytes : List Byte, (flush p).log = p.log ++ bytes.map .byte := by
  unfold flush; split
  · exact ⟨[], by simp⟩
  · exact ⟨[_], rfl⟩

/-- Both ports released; bytes, then the close events. -/
def Closed (p q : Ports) (tail : List PortEvent) : Prop :=
  q.rest = [] ∧ q.inPos = 0 ∧ (p.outPend = [] → q.outPend = []) ∧ ∃ bytes : List Byte, q.log = p.log ++ bytes.map .byte ++ tail

/-- The close of COMPRESS and DECOMPRESS (R78). -/
theorem closed_closeSequence (i : Instr) (hi : (∃ b, i = .compress b) ∨ i = .decompress) {p q : Ports} (h : Wrote p q)
    : Closed p (closeSequence i q) [.closeOut, .closeIn] := by
  have : closeSequence i q = closeIn (closeOut (flush q)) := by
    rcases hi with ⟨b, rfl⟩ | rfl <;> rfl
  rw [this]
  obtain ⟨a, ha⟩ := h.bytes
  obtain ⟨b, hb⟩ := flush_bytes q
  exact ⟨rfl, rfl, fun _ => flush_outPend q, a ++ b, by simp [closeIn, closeOut, hb, ha]⟩

/-- The close of MEASURE (R78). -/
theorem closed_closeIn {p q : Ports} (h : InOnly p q) : Closed p (closeIn q) [.closeIn] :=
  ⟨rfl, rfl, fun hp => h.1.trans hp, [], by simp [closeIn, h.2.2]⟩

/-! ### Each loop -/

/-- CountInput: IN only, FREQ canonical, COUNT_OVERFLOW or nothing. -/
theorem countInput_last (par : Params) (k n : Nat) (m : Memory) (p : Ports) : InOnly p (Run.last (countInput
    par k n m p)).2 ∧ (Memory.wf par.alphSize m = true → Memory.wf par.alphSize (Run.last (countInput par k n m
    p)).1 = true) ∧ ∀ e st, countInput par k n m p = .raise e st → e = .countOverflow := by
  induction k generalizing n m p with
  | zero => exact ⟨InOnly.refl p, id, by intro e st h; cases h⟩
  | succ k ih =>
    rw [countInput]
    have hi := readBits_inOnly par.w p
    have hlt := fun v => readBits_lt (n := par.w) (v := v) (p := p)
    unfold readUnit
    generalize readBits par.w p = rb at *
    obtain ⟨_ | u, q⟩ := rb
    · exact ⟨hi, id, by intro e st h; cases h⟩
    · simp only
      split
      · exact ⟨hi, id, by intro e st h; cases h; rfl⟩
      · obtain ⟨h1, h2, h3⟩ := ih (n + 1) (freqSet m u (freqGet m u + 1)) q
        exact ⟨hi.trans h1, fun hm => h2 (Memory.wf_set (hlt u rfl) _ hm), h3⟩

/-- ParseCounts: IN only, FREQ canonical, TRUNCATED_STREAM or nothing. -/
theorem parseCounts_last (n : Nat) (xs : List Nat) (m : Memory) (p : Ports) (hx : ∀ x ∈ xs, x < n) : InOnly p
    (Run.last (parseCounts xs m p)).2 ∧ (Memory.wf n m = true → Memory.wf n (Run.last (parseCounts xs m p)).1 =
    true) ∧ ∀ e st, parseCounts xs m p = .raise e st → e = .truncatedStream := by
  induction xs generalizing m p with
  | nil => exact ⟨InOnly.refl p, id, by intro e st h; cases h⟩
  | cons x xs ih =>
    rw [parseCounts]
    have hi := readBits_inOnly 32 p
    generalize readBits 32 p = rb at *
    obtain ⟨_ | u, q⟩ := rb
    · exact ⟨hi, id, by intro e st h; cases h; rfl⟩
    · obtain ⟨h1, h2, h3⟩ := ih (freqSet m x (BitVec.ofNat 32 u)) q (fun y hy => hx y (by simp [hy]))
      exact ⟨hi.trans h1, fun hm => h2 (Memory.wf_set (hx x (by simp)) _ hm), h3⟩

/-- ParseNode: IN only, NODES_USED within the capacity, the two errors of R215, a legal tree. -/
theorem parseNode_last (par : Params) (k used : Nat) (p : Ports) (hu : used ≤ par.nodeCap) : InOnly p (Run.last
    (parseNode par k used p)).2 ∧ used ≤ (Run.last (parseNode par k used p)).1 ∧ (Run.last (parseNode par k used
    p)).1 ≤ par.nodeCap ∧ (∀ e st, parseNode par k used p = .raise e st → e = .truncatedStream ∨ e =
    .malformedTree) ∧ (∀ t st, parseNode par k used p = .ok t st → t.weightsExact = true ∧ t.wt = 0 ∧ used +
    t.size = st.1 ∧ (par.w ≤ 8 → t.symbolsLegal par = true)) := by
  induction k generalizing used p with
  | zero => exact ⟨InOnly.refl p, Nat.le_refl _, hu, by intro e st h; cases h; exact Or.inr rfl, by intro t st h; cases h⟩
  | succ k ih =>
    rw [parseNode]
    have hi := readBits_inOnly 1 p
    generalize readBits 1 p = rb at *
    obtain ⟨_ | b, q⟩ := rb
    · exact ⟨hi, Nat.le_refl _, hu, by intro e st h; cases h; exact Or.inl rfl, by intro t st h; cases h⟩
    · simp only
      split
      · split
        · exact ⟨hi, Nat.le_refl _, hu, by intro e st h; cases h; exact Or.inr rfl, by intro t st h; cases h⟩
        · obtain ⟨g1, g2, g3, g4, g5⟩ := ih (used + 1) q (by omega)
          generalize hl1 : parseNode par k (used + 1) q = r1 at *
          cases r1 with
          | raise e st => exact ⟨hi.trans g1, by simp only [Run.last] at *; omega, g3, by intro e' st' h; cases h; exact g4 _ _ rfl, by intro t st h; cases h⟩
          | ok l st =>
            obtain ⟨used', q'⟩ := st
            simp only [Run.last] at g1 g2 g3
            obtain ⟨k1, k2, k3, k4, k5⟩ := ih used' q' g3
            simp only
            generalize parseNode par k used' q' = r2 at *
            obtain ⟨l1, l2, l3, l4⟩ := g5 l _ rfl
            cases r2 with
            | raise e st => exact ⟨hi.trans (g1.trans k1), by simp only [Run.last] at *; omega, k3, by intro e' st' h; cases h; exact k4 _ _ rfl, by intro t st h; cases h⟩
            | ok r st =>
              obtain ⟨m1, m2, m3, m4⟩ := k5 r _ rfl
              refine ⟨hi.trans (g1.trans k1), by simp only [Run.last] at *; omega, k3, (by intro e' st' h; cases h), ?_⟩
              intro t st' h
              cases h
              refine ⟨?_, rfl, ?_, ?_⟩
              · simp [HuffTree.weightsExact, l1, m1, l2, m2]
              · simp only [HuffTree.size] at *; omega
              · intro hw; have a := l4 hw; have b := m4 hw
                simp only [HuffTree.symbolsLegal, HuffTree.leaves, List.all_append, Bool.and_eq_true] at *; exact ⟨a, b⟩
      · have hi2 := readBits_inOnly par.vw q
        generalize readBits par.vw q = rb at *
        obtain ⟨_ | v, q'⟩ := rb
        · exact ⟨hi.trans hi2, Nat.le_refl _, hu, by intro e st h; cases h; exact Or.inl rfl, by intro t st h; cases h⟩
        · simp only
          split
          · exact ⟨hi.trans hi2, Nat.le_refl _, hu, by intro e st h; cases h; exact Or.inr rfl, by intro t st h; cases h⟩
          · split
            · exact ⟨hi.trans hi2, Nat.le_refl _, hu, by intro e st h; cases h; exact Or.inr rfl, by intro t st h; cases h⟩
            · refine ⟨hi.trans hi2, by simp only [Run.last]; omega, by simp only [Run.last]; omega, (by intro e st h; cases h), ?_⟩
              intro t st h
              cases h
              refine ⟨by simp [HuffTree.weightsExact], rfl, rfl, ?_⟩
              intro hw
              have : par.eos ≤ 256 := by unfold Params.eos Params.alphSize; simpa using Nat.pow_le_pow_right (n := 2) (by omega) hw
              simp [HuffTree.symbolsLegal, HuffTree.leaves]; omega

/-- Emitting: OUT is written, NO_CODE or nothing. -/
theorem emitSymbols_last (par : Params) (ct : CodeTable) (k : Nat) (p : Ports) : Wrote p (Run.last
    (emitSymbols par ct k p)) ∧ ∀ e st, emitSymbols par ct k p = .raise e st → e = .noCode := by
  induction k generalizing p with
  | zero => exact ⟨Wrote.refl p, by intro e st h; cases h⟩
  | succ k ih =>
    rw [emitSymbols]
    have hi := (readBits_inOnly par.w p).wrote
    unfold readUnit
    generalize readBits par.w p = rb at *
    obtain ⟨_ | u, q⟩ := rb
    · exact ⟨hi, by intro e st h; cases h⟩
    · simp only
      split
      · exact ⟨hi, by intro e st h; cases h; rfl⟩
      · rename_i c _
        obtain ⟨h1, h2⟩ := ih (writeCode c q)
        exact ⟨hi.trans ((writeCode_wrote c q).trans h1), h2⟩

/-- A walk: IN only, TRUNCATED_STREAM or nothing. -/
theorem walkToLeaf_last (t : HuffTree) (p : Ports) : InOnly p (Run.last (walkToLeaf t p)) ∧ ∀ e st, walkToLeaf
    t p = .raise e st → e = .truncatedStream := by
  induction t generalizing p with
  | leaf => exact ⟨InOnly.refl p, by intro e st h; cases h⟩
  | node w l r hl hr =>
    rw [walkToLeaf]
    have hi := readBits_inOnly 1 p
    generalize readBits 1 p = rb at *
    obtain ⟨_ | u, q⟩ := rb
    · exact ⟨hi, by intro e st h; cases h; rfl⟩
    · simp only
      split
      · exact ⟨hi.trans (hl q).1, (hl q).2⟩
      · exact ⟨hi.trans (hr q).1, (hr q).2⟩

/-- Decoding: OUT is written, TRUNCATED_STREAM or nothing. -/
theorem decodeSymbols_last (par : Params) (t : HuffTree) (k : Nat) (p : Ports) : Wrote p (Run.last
    (decodeSymbols par t k p)) ∧ ∀ e st, decodeSymbols par t k p = .raise e st → e = .truncatedStream := by
  induction k generalizing p with
  | zero => exact ⟨Wrote.refl p, by intro e st h; cases h; rfl⟩
  | succ k ih =>
    rw [decodeSymbols]
    have hi := walkToLeaf_last t p
    generalize walkToLeaf t p = r at *
    cases r with
    | raise e q => exact ⟨hi.1.wrote, by intro e st h; cases h; exact hi.2 _ _ rfl⟩
    | ok s q =>
      simp only
      split
      · exact ⟨hi.1.wrote, by intro e st h; cases h⟩
      · obtain ⟨h1, h2⟩ := ih (writeBits par.w s.toNat q)
        exact ⟨hi.1.wrote.trans ((writeCode_wrote _ q).trans h1), h2⟩

/-- A header: OUT is written. -/
theorem writeHeader_wrote (s : State) (p : Ports) : Wrote p (writeHeader s p) := by
  unfold writeHeader
  have h1 : Wrote p (writeBits 32 (fmtTag s.par s.hdrFmt).toNat (writeBits 32 s.par.magic.toNat p)) := (writeCode_wrote _ p).trans (writeCode_wrote _ _)
  refine h1.trans ?_
  unfold writePayload
  split
  · rw [writeCounts_eq]; exact writeCode_wrote _ _
  · unfold writeTree; rw [writeNode_eq]; exact Wrote.trans (q := writeBits 32 _ _) (writeCode_wrote _ _) (writeCode_wrote _ _)
  · exact Wrote.refl _

/-- A whole stream: OUT is written, NO_CODE or nothing. -/
theorem emitStream_last (s : State) (p : Ports) : Wrote p (Run.last (emitStream s p)) ∧ ∀ e st, emitStream s
    p = .raise e st → e = .noCode := by
  unfold emitStream
  have h := emitSymbols_last s.par s.ct (p.rest.length + 1) (writeHeader s p)
  generalize emitSymbols s.par s.ct (p.rest.length + 1) (writeHeader s p) = r at *
  have hw := writeHeader_wrote s p
  cases r with
  | raise e q => exact ⟨hw.trans h.1, by intro e st h'; cases h'; exact h.2 _ _ rfl⟩
  | ok u q => exact ⟨(hw.trans h.1).trans (writeCode_wrote _ _), by intro e st h; cases h⟩

/-- Parsing a header of either format. -/
theorem parseHeader_last (f : HdrFmt) (s : State) (hu : s.nodes.used = 0) (t : State) (ht : t = Run.last (parseHeader f s)) :
    t = { s with freq := t.freq, ports := t.ports, nodes := t.nodes, treeLen := t.treeLen, tlenMismatch := t.tlenMismatch }
    ∧ InOnly s.ports t.ports ∧ (f = .tree → t.freq = s.freq ∧ t.nodes.queue = s.nodes.queue)
    ∧ (Memory.wf s.par.alphSize s.freq = true → Memory.wf s.par.alphSize t.freq = true)
    ∧ (∀ e st, parseHeader f s = .raise e st → e = .truncatedStream ∨ e = .malformedTree)
    ∧ (s.nodes.queue = [] → t.nodes.queue = []) ∧ t.nodes.used ≤ s.par.nodeCap
    ∧ ∀ r st, parseHeader f s = .ok r st → (s.par.legal = true → r.weightsExact = true ∧ r.symbolsLegal s.par = true) ∧ r.size ≤ st.nodes.used := by
  subst ht
  unfold parseHeader
  cases f with
  | counts =>
    simp only [parseCountsHeader]
    have h := parseCounts_last s.par.alphSize (List.range s.par.alphSize) [] s.ports (by simp)
    generalize parseCounts (List.range s.par.alphSize) [] s.ports = r at *
    cases r with
    | raise e st =>
      obtain ⟨m, q⟩ := st
      refine ⟨rfl, h.1, (by intro h; cases h), fun _ => h.2.1 (Memory.wf_nil _), ?_, id, by simp [Run.last, hu], by intro r st h; cases h⟩
      intro e' st' h'; cases h'; exact Or.inl (h.2.2 _ _ rfl)
    | ok u st =>
      obtain ⟨m, q⟩ := st
      simp only
      obtain ⟨r, hr⟩ := buildTree_loadFreq s.par m
      have hst := buildTree_loadFreq_store _ _ hr
      rw [hr]
      have hsz := buildTree_loadFreq_size hr
      have hpos := r.leafCount_pos
      refine ⟨rfl, h.1, (by intro h; cases h), fun _ => h.2.1 (Memory.wf_nil _), (by intro e st h; cases h), fun _ => rfl, ?_, ?_⟩
      · rw [hst]; simp only [Run.last]; unfold Params.nodeCap; omega
      · intro r' st' h'; cases h'
        refine ⟨fun hl => ⟨buildTree_loadFreq_exact hl hr, buildTree_loadFreq_symbols hl hr⟩, ?_⟩
        rw [hst]; have := r.size_add_one; simp only; omega
  | tree =>
    simp only [parseTreeHeader]
    have hi := readBits_inOnly 32 s.ports
    generalize readBits 32 s.ports = rb at *
    obtain ⟨_ | u, q⟩ := rb
    · exact ⟨rfl, hi, fun _ => ⟨rfl, rfl⟩, id, by intro e st h; cases h; exact Or.inl rfl, id, by simp [Run.last, hu], by intro r st h; cases h⟩
    · simp only
      have h := parseNode_last s.par (s.par.nodeCap + 1) s.nodes.used q (by omega)
      generalize parseNode s.par (s.par.nodeCap + 1) s.nodes.used q = r at *
      cases r with
      | raise e st =>
        refine ⟨rfl, hi.trans h.1, fun _ => ⟨rfl, rfl⟩, id, ?_, id, h.2.2.1, by intro r st h; cases h⟩
        intro e' st' h'; cases h'; exact h.2.2.2.1 _ _ rfl
      | ok r st =>
        obtain ⟨h5, h6, h7, h8⟩ := h.2.2.2.2 r _ rfl
        simp only
        split
        · refine ⟨rfl, hi.trans h.1, fun _ => ⟨rfl, rfl⟩, id, ?_, id, h.2.2.1, by intro r st h; cases h⟩
          intro e' st' h'; cases h'; exact Or.inr rfl
        · refine ⟨rfl, hi.trans h.1, fun _ => ⟨rfl, rfl⟩, id, (by intro e st h; cases h), id, h.2.2.1, ?_⟩
          intro r' st' h'; cases h'
          refine ⟨fun hl => ⟨h5, h8 (Params.legal_spec hl).2.1⟩, by simp only; omega⟩

end Sys2Proof.Machine
end

