-- ==== Sys2Proof/Laws/State.lean ====
section
/-!
SUPPORT. One lemma for each field of State and each shared update of Machine/Ops.lean: what the update makes of the
field. Later proofs rewrite with these and unfold no record update.
-/

namespace Sys2Proof.Machine

/-! ### `complete` -/

@[simp] theorem complete_par (s : State) : (complete s).par = s.par := rfl
@[simp] theorem complete_engine (s : State) : (complete s).engine = .idle := rfl
@[simp] theorem complete_done (s : State) : (complete s).done = true := rfl
@[simp] theorem complete_irqEn (s : State) : (complete s).irqEn = s.irqEn := rfl
@[simp] theorem complete_err (s : State) : (complete s).err = s.err := rfl
@[simp] theorem complete_errOp (s : State) : (complete s).errOp = s.errOp := rfl
@[simp] theorem complete_dropped (s : State) : (complete s).dropped = s.dropped := rfl
@[simp] theorem complete_tlenMismatch (s : State) : (complete s).tlenMismatch = s.tlenMismatch := rfl
@[simp] theorem complete_arg0 (s : State) : (complete s).arg0 = s.arg0 := rfl
@[simp] theorem complete_result0 (s : State) : (complete s).result0 = s.result0 := rfl
@[simp] theorem complete_result1 (s : State) : (complete s).result1 = s.result1 := rfl
@[simp] theorem complete_result2 (s : State) : (complete s).result2 = s.result2 := rfl
@[simp] theorem complete_ctSel (s : State) : (complete s).ctSel = s.ctSel := rfl
@[simp] theorem complete_freq (s : State) : (complete s).freq = s.freq := rfl
@[simp] theorem complete_nodes (s : State) : (complete s).nodes = s.nodes := rfl
@[simp] theorem complete_root (s : State) : (complete s).root = s.root := rfl
@[simp] theorem complete_ct (s : State) : (complete s).ct = s.ct := rfl
@[simp] theorem complete_ctValid (s : State) : (complete s).ctValid = s.ctValid := rfl
@[simp] theorem complete_measured (s : State) : (complete s).measured = s.measured := rfl
@[simp] theorem complete_hdrFmt (s : State) : (complete s).hdrFmt = s.hdrFmt := rfl
@[simp] theorem complete_origBits (s : State) : (complete s).origBits = s.origBits := rfl
@[simp] theorem complete_acctBits (s : State) : (complete s).acctBits = s.acctBits := rfl
@[simp] theorem complete_savings (s : State) : (complete s).savings = s.savings := rfl
@[simp] theorem complete_treeLen (s : State) : (complete s).treeLen = s.treeLen := rfl
@[simp] theorem complete_ports (s : State) : (complete s).ports = s.ports := rfl
@[simp] theorem complete_supplies (s : State) : (complete s).supplies = s.supplies := rfl
@[simp] theorem complete_script (s : State) : (complete s).script = s.script := rfl
@[simp] theorem complete_reads (s : State) : (complete s).reads = s.reads := rfl
@[simp] theorem complete_draws (s : State) : (complete s).draws = s.draws := rfl

/-! ### `raiseError` -/

@[simp] theorem raiseError_par (e : ErrCode) (i : Instr) (s : State) : (raiseError e i s).par = s.par := rfl
@[simp] theorem raiseError_engine (e : ErrCode) (i : Instr) (s : State) : (raiseError e i s).engine = .idle := rfl
@[simp] theorem raiseError_done (e : ErrCode) (i : Instr) (s : State) : (raiseError e i s).done = true := rfl
@[simp] theorem raiseError_irqEn (e : ErrCode) (i : Instr) (s : State) : (raiseError e i s).irqEn = s.irqEn := rfl
@[simp] theorem raiseError_err (e : ErrCode) (i : Instr) (s : State) : (raiseError e i s).err = some e := rfl
@[simp] theorem raiseError_errOp (e : ErrCode) (i : Instr) (s : State) : (raiseError e i s).errOp = i.opcode := rfl
@[simp] theorem raiseError_dropped (e : ErrCode) (i : Instr) (s : State) : (raiseError e i s).dropped = s.dropped := rfl
@[simp] theorem raiseError_tlenMismatch (e : ErrCode) (i : Instr) (s : State) : (raiseError e i s).tlenMismatch = s.tlenMismatch := rfl
@[simp] theorem raiseError_arg0 (e : ErrCode) (i : Instr) (s : State) : (raiseError e i s).arg0 = s.arg0 := rfl
@[simp] theorem raiseError_result0 (e : ErrCode) (i : Instr) (s : State) : (raiseError e i s).result0 = s.result0 := rfl
@[simp] theorem raiseError_result1 (e : ErrCode) (i : Instr) (s : State) : (raiseError e i s).result1 = s.result1 := rfl
@[simp] theorem raiseError_result2 (e : ErrCode) (i : Instr) (s : State) : (raiseError e i s).result2 = s.result2 := rfl
@[simp] theorem raiseError_ctSel (e : ErrCode) (i : Instr) (s : State) : (raiseError e i s).ctSel = s.ctSel := rfl
@[simp] theorem raiseError_freq (e : ErrCode) (i : Instr) (s : State) : (raiseError e i s).freq = s.freq := rfl
@[simp] theorem raiseError_nodes (e : ErrCode) (i : Instr) (s : State) : (raiseError e i s).nodes = s.nodes := rfl
@[simp] theorem raiseError_root (e : ErrCode) (i : Instr) (s : State) : (raiseError e i s).root = s.root := rfl
@[simp] theorem raiseError_ct (e : ErrCode) (i : Instr) (s : State) : (raiseError e i s).ct = s.ct := rfl
@[simp] theorem raiseError_ctValid (e : ErrCode) (i : Instr) (s : State) : (raiseError e i s).ctValid = s.ctValid := rfl
@[simp] theorem raiseError_measured (e : ErrCode) (i : Instr) (s : State) : (raiseError e i s).measured = s.measured := rfl
@[simp] theorem raiseError_hdrFmt (e : ErrCode) (i : Instr) (s : State) : (raiseError e i s).hdrFmt = s.hdrFmt := rfl
@[simp] theorem raiseError_origBits (e : ErrCode) (i : Instr) (s : State) : (raiseError e i s).origBits = s.origBits := rfl
@[simp] theorem raiseError_acctBits (e : ErrCode) (i : Instr) (s : State) : (raiseError e i s).acctBits = s.acctBits := rfl
@[simp] theorem raiseError_savings (e : ErrCode) (i : Instr) (s : State) : (raiseError e i s).savings = s.savings := rfl
@[simp] theorem raiseError_treeLen (e : ErrCode) (i : Instr) (s : State) : (raiseError e i s).treeLen = s.treeLen := rfl
@[simp] theorem raiseError_ports (e : ErrCode) (i : Instr) (s : State) : (raiseError e i s).ports = closeSequence i s.ports := rfl
@[simp] theorem raiseError_supplies (e : ErrCode) (i : Instr) (s : State) : (raiseError e i s).supplies = s.supplies := rfl
@[simp] theorem raiseError_script (e : ErrCode) (i : Instr) (s : State) : (raiseError e i s).script = s.script := rfl
@[simp] theorem raiseError_reads (e : ErrCode) (i : Instr) (s : State) : (raiseError e i s).reads = s.reads := rfl
@[simp] theorem raiseError_draws (e : ErrCode) (i : Instr) (s : State) : (raiseError e i s).draws = s.draws := rfl

/-! ### `raiseIllegal` -/

@[simp] theorem raiseIllegal_par (v : Word) (s : State) : (raiseIllegal v s).par = s.par := rfl
@[simp] theorem raiseIllegal_engine (v : Word) (s : State) : (raiseIllegal v s).engine = .idle := rfl
@[simp] theorem raiseIllegal_done (v : Word) (s : State) : (raiseIllegal v s).done = true := rfl
@[simp] theorem raiseIllegal_irqEn (v : Word) (s : State) : (raiseIllegal v s).irqEn = s.irqEn := rfl
@[simp] theorem raiseIllegal_err (v : Word) (s : State) : (raiseIllegal v s).err = some .illegalCommand := rfl
@[simp] theorem raiseIllegal_errOp (v : Word) (s : State) : (raiseIllegal v s).errOp = cmdOp v := rfl
@[simp] theorem raiseIllegal_dropped (v : Word) (s : State) : (raiseIllegal v s).dropped = s.dropped := rfl
@[simp] theorem raiseIllegal_tlenMismatch (v : Word) (s : State) : (raiseIllegal v s).tlenMismatch = s.tlenMismatch := rfl
@[simp] theorem raiseIllegal_arg0 (v : Word) (s : State) : (raiseIllegal v s).arg0 = s.arg0 := rfl
@[simp] theorem raiseIllegal_result0 (v : Word) (s : State) : (raiseIllegal v s).result0 = s.result0 := rfl
@[simp] theorem raiseIllegal_result1 (v : Word) (s : State) : (raiseIllegal v s).result1 = s.result1 := rfl
@[simp] theorem raiseIllegal_result2 (v : Word) (s : State) : (raiseIllegal v s).result2 = s.result2 := rfl
@[simp] theorem raiseIllegal_ctSel (v : Word) (s : State) : (raiseIllegal v s).ctSel = s.ctSel := rfl
@[simp] theorem raiseIllegal_freq (v : Word) (s : State) : (raiseIllegal v s).freq = s.freq := rfl
@[simp] theorem raiseIllegal_nodes (v : Word) (s : State) : (raiseIllegal v s).nodes = s.nodes := rfl
@[simp] theorem raiseIllegal_root (v : Word) (s : State) : (raiseIllegal v s).root = s.root := rfl
@[simp] theorem raiseIllegal_ct (v : Word) (s : State) : (raiseIllegal v s).ct = s.ct := rfl
@[simp] theorem raiseIllegal_ctValid (v : Word) (s : State) : (raiseIllegal v s).ctValid = s.ctValid := rfl
@[simp] theorem raiseIllegal_measured (v : Word) (s : State) : (raiseIllegal v s).measured = s.measured := rfl
@[simp] theorem raiseIllegal_hdrFmt (v : Word) (s : State) : (raiseIllegal v s).hdrFmt = s.hdrFmt := rfl
@[simp] theorem raiseIllegal_origBits (v : Word) (s : State) : (raiseIllegal v s).origBits = s.origBits := rfl
@[simp] theorem raiseIllegal_acctBits (v : Word) (s : State) : (raiseIllegal v s).acctBits = s.acctBits := rfl
@[simp] theorem raiseIllegal_savings (v : Word) (s : State) : (raiseIllegal v s).savings = s.savings := rfl
@[simp] theorem raiseIllegal_treeLen (v : Word) (s : State) : (raiseIllegal v s).treeLen = s.treeLen := rfl
@[simp] theorem raiseIllegal_ports (v : Word) (s : State) : (raiseIllegal v s).ports = s.ports := rfl
@[simp] theorem raiseIllegal_supplies (v : Word) (s : State) : (raiseIllegal v s).supplies = s.supplies := rfl
@[simp] theorem raiseIllegal_script (v : Word) (s : State) : (raiseIllegal v s).script = s.script := rfl
@[simp] theorem raiseIllegal_reads (v : Word) (s : State) : (raiseIllegal v s).reads = s.reads := rfl
@[simp] theorem raiseIllegal_draws (v : Word) (s : State) : (raiseIllegal v s).draws = s.draws := rfl

/-! ### `ackError` -/

@[simp] theorem ackError_par (s : State) : (ackError s).par = s.par := rfl
@[simp] theorem ackError_engine (s : State) : (ackError s).engine = s.engine := rfl
@[simp] theorem ackError_done (s : State) : (ackError s).done = s.done := rfl
@[simp] theorem ackError_irqEn (s : State) : (ackError s).irqEn = s.irqEn := rfl
@[simp] theorem ackError_err (s : State) : (ackError s).err = none := rfl
@[simp] theorem ackError_errOp (s : State) : (ackError s).errOp = 0 := rfl
@[simp] theorem ackError_dropped (s : State) : (ackError s).dropped = false := rfl
@[simp] theorem ackError_tlenMismatch (s : State) : (ackError s).tlenMismatch = s.tlenMismatch := rfl
@[simp] theorem ackError_arg0 (s : State) : (ackError s).arg0 = s.arg0 := rfl
@[simp] theorem ackError_result0 (s : State) : (ackError s).result0 = s.result0 := rfl
@[simp] theorem ackError_result1 (s : State) : (ackError s).result1 = s.result1 := rfl
@[simp] theorem ackError_result2 (s : State) : (ackError s).result2 = s.result2 := rfl
@[simp] theorem ackError_ctSel (s : State) : (ackError s).ctSel = s.ctSel := rfl
@[simp] theorem ackError_freq (s : State) : (ackError s).freq = s.freq := rfl
@[simp] theorem ackError_nodes (s : State) : (ackError s).nodes = s.nodes := rfl
@[simp] theorem ackError_root (s : State) : (ackError s).root = s.root := rfl
@[simp] theorem ackError_ct (s : State) : (ackError s).ct = s.ct := rfl
@[simp] theorem ackError_ctValid (s : State) : (ackError s).ctValid = s.ctValid := rfl
@[simp] theorem ackError_measured (s : State) : (ackError s).measured = s.measured := rfl
@[simp] theorem ackError_hdrFmt (s : State) : (ackError s).hdrFmt = s.hdrFmt := rfl
@[simp] theorem ackError_origBits (s : State) : (ackError s).origBits = s.origBits := rfl
@[simp] theorem ackError_acctBits (s : State) : (ackError s).acctBits = s.acctBits := rfl
@[simp] theorem ackError_savings (s : State) : (ackError s).savings = s.savings := rfl
@[simp] theorem ackError_treeLen (s : State) : (ackError s).treeLen = s.treeLen := rfl
@[simp] theorem ackError_ports (s : State) : (ackError s).ports = s.ports := rfl
@[simp] theorem ackError_supplies (s : State) : (ackError s).supplies = s.supplies := rfl
@[simp] theorem ackError_script (s : State) : (ackError s).script = s.script := rfl
@[simp] theorem ackError_reads (s : State) : (ackError s).reads = s.reads := rfl
@[simp] theorem ackError_draws (s : State) : (ackError s).draws = s.draws := rfl

/-! ### `drop` -/

@[simp] theorem drop_par (s : State) : (drop s).par = s.par := rfl
@[simp] theorem drop_engine (s : State) : (drop s).engine = s.engine := rfl
@[simp] theorem drop_done (s : State) : (drop s).done = s.done := rfl
@[simp] theorem drop_irqEn (s : State) : (drop s).irqEn = s.irqEn := rfl
@[simp] theorem drop_err (s : State) : (drop s).err = s.err := rfl
@[simp] theorem drop_errOp (s : State) : (drop s).errOp = s.errOp := rfl
@[simp] theorem drop_dropped (s : State) : (drop s).dropped = true := rfl
@[simp] theorem drop_tlenMismatch (s : State) : (drop s).tlenMismatch = s.tlenMismatch := rfl
@[simp] theorem drop_arg0 (s : State) : (drop s).arg0 = s.arg0 := rfl
@[simp] theorem drop_result0 (s : State) : (drop s).result0 = s.result0 := rfl
@[simp] theorem drop_result1 (s : State) : (drop s).result1 = s.result1 := rfl
@[simp] theorem drop_result2 (s : State) : (drop s).result2 = s.result2 := rfl
@[simp] theorem drop_ctSel (s : State) : (drop s).ctSel = s.ctSel := rfl
@[simp] theorem drop_freq (s : State) : (drop s).freq = s.freq := rfl
@[simp] theorem drop_nodes (s : State) : (drop s).nodes = s.nodes := rfl
@[simp] theorem drop_root (s : State) : (drop s).root = s.root := rfl
@[simp] theorem drop_ct (s : State) : (drop s).ct = s.ct := rfl
@[simp] theorem drop_ctValid (s : State) : (drop s).ctValid = s.ctValid := rfl
@[simp] theorem drop_measured (s : State) : (drop s).measured = s.measured := rfl
@[simp] theorem drop_hdrFmt (s : State) : (drop s).hdrFmt = s.hdrFmt := rfl
@[simp] theorem drop_origBits (s : State) : (drop s).origBits = s.origBits := rfl
@[simp] theorem drop_acctBits (s : State) : (drop s).acctBits = s.acctBits := rfl
@[simp] theorem drop_savings (s : State) : (drop s).savings = s.savings := rfl
@[simp] theorem drop_treeLen (s : State) : (drop s).treeLen = s.treeLen := rfl
@[simp] theorem drop_ports (s : State) : (drop s).ports = s.ports := rfl
@[simp] theorem drop_supplies (s : State) : (drop s).supplies = s.supplies := rfl
@[simp] theorem drop_script (s : State) : (drop s).script = s.script := rfl
@[simp] theorem drop_reads (s : State) : (drop s).reads = s.reads := rfl
@[simp] theorem drop_draws (s : State) : (drop s).draws = s.draws := rfl

/-! ### `accept` -/

@[simp] theorem accept_par (i : Instr) (s : State) : (accept i s).par = s.par := rfl
@[simp] theorem accept_engine (i : Instr) (s : State) : (accept i s).engine = .busy i := rfl
@[simp] theorem accept_done (i : Instr) (s : State) : (accept i s).done = false := rfl
@[simp] theorem accept_irqEn (i : Instr) (s : State) : (accept i s).irqEn = s.irqEn := rfl
@[simp] theorem accept_err (i : Instr) (s : State) : (accept i s).err = s.err := rfl
@[simp] theorem accept_errOp (i : Instr) (s : State) : (accept i s).errOp = s.errOp := rfl
@[simp] theorem accept_dropped (i : Instr) (s : State) : (accept i s).dropped = s.dropped := rfl
@[simp] theorem accept_tlenMismatch (i : Instr) (s : State) : (accept i s).tlenMismatch = s.tlenMismatch := rfl
@[simp] theorem accept_arg0 (i : Instr) (s : State) : (accept i s).arg0 = s.arg0 := rfl
@[simp] theorem accept_result0 (i : Instr) (s : State) : (accept i s).result0 = s.result0 := rfl
@[simp] theorem accept_result1 (i : Instr) (s : State) : (accept i s).result1 = s.result1 := rfl
@[simp] theorem accept_result2 (i : Instr) (s : State) : (accept i s).result2 = s.result2 := rfl
@[simp] theorem accept_ctSel (i : Instr) (s : State) : (accept i s).ctSel = s.ctSel := rfl
@[simp] theorem accept_freq (i : Instr) (s : State) : (accept i s).freq = s.freq := rfl
@[simp] theorem accept_nodes (i : Instr) (s : State) : (accept i s).nodes = s.nodes := rfl
@[simp] theorem accept_root (i : Instr) (s : State) : (accept i s).root = s.root := rfl
@[simp] theorem accept_ct (i : Instr) (s : State) : (accept i s).ct = s.ct := rfl
@[simp] theorem accept_ctValid (i : Instr) (s : State) : (accept i s).ctValid = s.ctValid := rfl
@[simp] theorem accept_measured (i : Instr) (s : State) : (accept i s).measured = s.measured := rfl
@[simp] theorem accept_hdrFmt (i : Instr) (s : State) : (accept i s).hdrFmt = s.hdrFmt := rfl
@[simp] theorem accept_origBits (i : Instr) (s : State) : (accept i s).origBits = s.origBits := rfl
@[simp] theorem accept_acctBits (i : Instr) (s : State) : (accept i s).acctBits = s.acctBits := rfl
@[simp] theorem accept_savings (i : Instr) (s : State) : (accept i s).savings = s.savings := rfl
@[simp] theorem accept_treeLen (i : Instr) (s : State) : (accept i s).treeLen = s.treeLen := rfl
@[simp] theorem accept_ports (i : Instr) (s : State) : (accept i s).ports = s.ports := rfl
@[simp] theorem accept_supplies (i : Instr) (s : State) : (accept i s).supplies = s.supplies := rfl
@[simp] theorem accept_script (i : Instr) (s : State) : (accept i s).script = s.script := rfl
@[simp] theorem accept_reads (i : Instr) (s : State) : (accept i s).reads = s.reads := rfl
@[simp] theorem accept_draws (i : Instr) (s : State) : (accept i s).draws = s.draws := rfl

/-! ### `setResults` -/

@[simp] theorem setResults_par (x : BitVec 64) (r : Word) (s : State) : (setResults x r s).par = s.par := rfl
@[simp] theorem setResults_engine (x : BitVec 64) (r : Word) (s : State) : (setResults x r s).engine = s.engine := rfl
@[simp] theorem setResults_done (x : BitVec 64) (r : Word) (s : State) : (setResults x r s).done = s.done := rfl
@[simp] theorem setResults_irqEn (x : BitVec 64) (r : Word) (s : State) : (setResults x r s).irqEn = s.irqEn := rfl
@[simp] theorem setResults_err (x : BitVec 64) (r : Word) (s : State) : (setResults x r s).err = s.err := rfl
@[simp] theorem setResults_errOp (x : BitVec 64) (r : Word) (s : State) : (setResults x r s).errOp = s.errOp := rfl
@[simp] theorem setResults_dropped (x : BitVec 64) (r : Word) (s : State) : (setResults x r s).dropped = s.dropped := rfl
@[simp] theorem setResults_tlenMismatch (x : BitVec 64) (r : Word) (s : State) : (setResults x r s).tlenMismatch = s.tlenMismatch := rfl
@[simp] theorem setResults_arg0 (x : BitVec 64) (r : Word) (s : State) : (setResults x r s).arg0 = s.arg0 := rfl
@[simp] theorem setResults_result0 (x : BitVec 64) (r : Word) (s : State) : (setResults x r s).result0 = lowWord x := rfl
@[simp] theorem setResults_result1 (x : BitVec 64) (r : Word) (s : State) : (setResults x r s).result1 = highWord x := rfl
@[simp] theorem setResults_result2 (x : BitVec 64) (r : Word) (s : State) : (setResults x r s).result2 = r := rfl
@[simp] theorem setResults_ctSel (x : BitVec 64) (r : Word) (s : State) : (setResults x r s).ctSel = s.ctSel := rfl
@[simp] theorem setResults_freq (x : BitVec 64) (r : Word) (s : State) : (setResults x r s).freq = s.freq := rfl
@[simp] theorem setResults_nodes (x : BitVec 64) (r : Word) (s : State) : (setResults x r s).nodes = s.nodes := rfl
@[simp] theorem setResults_root (x : BitVec 64) (r : Word) (s : State) : (setResults x r s).root = s.root := rfl
@[simp] theorem setResults_ct (x : BitVec 64) (r : Word) (s : State) : (setResults x r s).ct = s.ct := rfl
@[simp] theorem setResults_ctValid (x : BitVec 64) (r : Word) (s : State) : (setResults x r s).ctValid = s.ctValid := rfl
@[simp] theorem setResults_measured (x : BitVec 64) (r : Word) (s : State) : (setResults x r s).measured = s.measured := rfl
@[simp] theorem setResults_hdrFmt (x : BitVec 64) (r : Word) (s : State) : (setResults x r s).hdrFmt = s.hdrFmt := rfl
@[simp] theorem setResults_origBits (x : BitVec 64) (r : Word) (s : State) : (setResults x r s).origBits = s.origBits := rfl
@[simp] theorem setResults_acctBits (x : BitVec 64) (r : Word) (s : State) : (setResults x r s).acctBits = s.acctBits := rfl
@[simp] theorem setResults_savings (x : BitVec 64) (r : Word) (s : State) : (setResults x r s).savings = s.savings := rfl
@[simp] theorem setResults_treeLen (x : BitVec 64) (r : Word) (s : State) : (setResults x r s).treeLen = s.treeLen := rfl
@[simp] theorem setResults_ports (x : BitVec 64) (r : Word) (s : State) : (setResults x r s).ports = s.ports := rfl
@[simp] theorem setResults_supplies (x : BitVec 64) (r : Word) (s : State) : (setResults x r s).supplies = s.supplies := rfl
@[simp] theorem setResults_script (x : BitVec 64) (r : Word) (s : State) : (setResults x r s).script = s.script := rfl
@[simp] theorem setResults_reads (x : BitVec 64) (r : Word) (s : State) : (setResults x r s).reads = s.reads := rfl
@[simp] theorem setResults_draws (x : BitVec 64) (r : Word) (s : State) : (setResults x r s).draws = s.draws := rfl

/-! ### `setNodeResults` -/

@[simp] theorem setNodeResults_par (n : HuffTree) (s : State) : (setNodeResults n s).par = s.par := rfl
@[simp] theorem setNodeResults_engine (n : HuffTree) (s : State) : (setNodeResults n s).engine = s.engine := rfl
@[simp] theorem setNodeResults_done (n : HuffTree) (s : State) : (setNodeResults n s).done = s.done := rfl
@[simp] theorem setNodeResults_irqEn (n : HuffTree) (s : State) : (setNodeResults n s).irqEn = s.irqEn := rfl
@[simp] theorem setNodeResults_err (n : HuffTree) (s : State) : (setNodeResults n s).err = s.err := rfl
@[simp] theorem setNodeResults_errOp (n : HuffTree) (s : State) : (setNodeResults n s).errOp = s.errOp := rfl
@[simp] theorem setNodeResults_dropped (n : HuffTree) (s : State) : (setNodeResults n s).dropped = s.dropped := rfl
@[simp] theorem setNodeResults_tlenMismatch (n : HuffTree) (s : State) : (setNodeResults n s).tlenMismatch = s.tlenMismatch := rfl
@[simp] theorem setNodeResults_arg0 (n : HuffTree) (s : State) : (setNodeResults n s).arg0 = s.arg0 := rfl
@[simp] theorem setNodeResults_result0 (n : HuffTree) (s : State) : (setNodeResults n s).result0 = lowWord n.wt := rfl
@[simp] theorem setNodeResults_result1 (n : HuffTree) (s : State) : (setNodeResults n s).result1 = highWord n.wt := rfl
@[simp] theorem setNodeResults_result2 (n : HuffTree) (s : State) : (setNodeResults n s).result2 = desc n := rfl
@[simp] theorem setNodeResults_ctSel (n : HuffTree) (s : State) : (setNodeResults n s).ctSel = s.ctSel := rfl
@[simp] theorem setNodeResults_freq (n : HuffTree) (s : State) : (setNodeResults n s).freq = s.freq := rfl
@[simp] theorem setNodeResults_nodes (n : HuffTree) (s : State) : (setNodeResults n s).nodes = s.nodes := rfl
@[simp] theorem setNodeResults_root (n : HuffTree) (s : State) : (setNodeResults n s).root = s.root := rfl
@[simp] theorem setNodeResults_ct (n : HuffTree) (s : State) : (setNodeResults n s).ct = s.ct := rfl
@[simp] theorem setNodeResults_ctValid (n : HuffTree) (s : State) : (setNodeResults n s).ctValid = s.ctValid := rfl
@[simp] theorem setNodeResults_measured (n : HuffTree) (s : State) : (setNodeResults n s).measured = s.measured := rfl
@[simp] theorem setNodeResults_hdrFmt (n : HuffTree) (s : State) : (setNodeResults n s).hdrFmt = s.hdrFmt := rfl
@[simp] theorem setNodeResults_origBits (n : HuffTree) (s : State) : (setNodeResults n s).origBits = s.origBits := rfl
@[simp] theorem setNodeResults_acctBits (n : HuffTree) (s : State) : (setNodeResults n s).acctBits = s.acctBits := rfl
@[simp] theorem setNodeResults_savings (n : HuffTree) (s : State) : (setNodeResults n s).savings = s.savings := rfl
@[simp] theorem setNodeResults_treeLen (n : HuffTree) (s : State) : (setNodeResults n s).treeLen = s.treeLen := rfl
@[simp] theorem setNodeResults_ports (n : HuffTree) (s : State) : (setNodeResults n s).ports = s.ports := rfl
@[simp] theorem setNodeResults_supplies (n : HuffTree) (s : State) : (setNodeResults n s).supplies = s.supplies := rfl
@[simp] theorem setNodeResults_script (n : HuffTree) (s : State) : (setNodeResults n s).script = s.script := rfl
@[simp] theorem setNodeResults_reads (n : HuffTree) (s : State) : (setNodeResults n s).reads = s.reads := rfl
@[simp] theorem setNodeResults_draws (n : HuffTree) (s : State) : (setNodeResults n s).draws = s.draws := rfl

/-! ### `freeNodes` -/

@[simp] theorem freeNodes_par (s : State) : (freeNodes s).par = s.par := rfl
@[simp] theorem freeNodes_engine (s : State) : (freeNodes s).engine = s.engine := rfl
@[simp] theorem freeNodes_done (s : State) : (freeNodes s).done = s.done := rfl
@[simp] theorem freeNodes_irqEn (s : State) : (freeNodes s).irqEn = s.irqEn := rfl
@[simp] theorem freeNodes_err (s : State) : (freeNodes s).err = s.err := rfl
@[simp] theorem freeNodes_errOp (s : State) : (freeNodes s).errOp = s.errOp := rfl
@[simp] theorem freeNodes_dropped (s : State) : (freeNodes s).dropped = s.dropped := rfl
@[simp] theorem freeNodes_tlenMismatch (s : State) : (freeNodes s).tlenMismatch = s.tlenMismatch := rfl
@[simp] theorem freeNodes_arg0 (s : State) : (freeNodes s).arg0 = s.arg0 := rfl
@[simp] theorem freeNodes_result0 (s : State) : (freeNodes s).result0 = s.result0 := rfl
@[simp] theorem freeNodes_result1 (s : State) : (freeNodes s).result1 = s.result1 := rfl
@[simp] theorem freeNodes_result2 (s : State) : (freeNodes s).result2 = s.result2 := rfl
@[simp] theorem freeNodes_ctSel (s : State) : (freeNodes s).ctSel = s.ctSel := rfl
@[simp] theorem freeNodes_freq (s : State) : (freeNodes s).freq = s.freq := rfl
@[simp] theorem freeNodes_nodes (s : State) : (freeNodes s).nodes = NodeStore.empty := rfl
@[simp] theorem freeNodes_root (s : State) : (freeNodes s).root = s.root := rfl
@[simp] theorem freeNodes_ct (s : State) : (freeNodes s).ct = s.ct := rfl
@[simp] theorem freeNodes_ctValid (s : State) : (freeNodes s).ctValid = s.ctValid := rfl
@[simp] theorem freeNodes_measured (s : State) : (freeNodes s).measured = s.measured := rfl
@[simp] theorem freeNodes_hdrFmt (s : State) : (freeNodes s).hdrFmt = s.hdrFmt := rfl
@[simp] theorem freeNodes_origBits (s : State) : (freeNodes s).origBits = s.origBits := rfl
@[simp] theorem freeNodes_acctBits (s : State) : (freeNodes s).acctBits = s.acctBits := rfl
@[simp] theorem freeNodes_savings (s : State) : (freeNodes s).savings = s.savings := rfl
@[simp] theorem freeNodes_treeLen (s : State) : (freeNodes s).treeLen = s.treeLen := rfl
@[simp] theorem freeNodes_ports (s : State) : (freeNodes s).ports = s.ports := rfl
@[simp] theorem freeNodes_supplies (s : State) : (freeNodes s).supplies = s.supplies := rfl
@[simp] theorem freeNodes_script (s : State) : (freeNodes s).script = s.script := rfl
@[simp] theorem freeNodes_reads (s : State) : (freeNodes s).reads = s.reads := rfl
@[simp] theorem freeNodes_draws (s : State) : (freeNodes s).draws = s.draws := rfl

/-! ### `clearCodeTable` -/

@[simp] theorem clearCodeTable_par (s : State) : (clearCodeTable s).par = s.par := rfl
@[simp] theorem clearCodeTable_engine (s : State) : (clearCodeTable s).engine = s.engine := rfl
@[simp] theorem clearCodeTable_done (s : State) : (clearCodeTable s).done = s.done := rfl
@[simp] theorem clearCodeTable_irqEn (s : State) : (clearCodeTable s).irqEn = s.irqEn := rfl
@[simp] theorem clearCodeTable_err (s : State) : (clearCodeTable s).err = s.err := rfl
@[simp] theorem clearCodeTable_errOp (s : State) : (clearCodeTable s).errOp = s.errOp := rfl
@[simp] theorem clearCodeTable_dropped (s : State) : (clearCodeTable s).dropped = s.dropped := rfl
@[simp] theorem clearCodeTable_tlenMismatch (s : State) : (clearCodeTable s).tlenMismatch = s.tlenMismatch := rfl
@[simp] theorem clearCodeTable_arg0 (s : State) : (clearCodeTable s).arg0 = s.arg0 := rfl
@[simp] theorem clearCodeTable_result0 (s : State) : (clearCodeTable s).result0 = s.result0 := rfl
@[simp] theorem clearCodeTable_result1 (s : State) : (clearCodeTable s).result1 = s.result1 := rfl
@[simp] theorem clearCodeTable_result2 (s : State) : (clearCodeTable s).result2 = s.result2 := rfl
@[simp] theorem clearCodeTable_ctSel (s : State) : (clearCodeTable s).ctSel = s.ctSel := rfl
@[simp] theorem clearCodeTable_freq (s : State) : (clearCodeTable s).freq = s.freq := rfl
@[simp] theorem clearCodeTable_nodes (s : State) : (clearCodeTable s).nodes = s.nodes := rfl
@[simp] theorem clearCodeTable_root (s : State) : (clearCodeTable s).root = s.root := rfl
@[simp] theorem clearCodeTable_ct (s : State) : (clearCodeTable s).ct = [] := rfl
@[simp] theorem clearCodeTable_ctValid (s : State) : (clearCodeTable s).ctValid = false := rfl
@[simp] theorem clearCodeTable_measured (s : State) : (clearCodeTable s).measured = s.measured := rfl
@[simp] theorem clearCodeTable_hdrFmt (s : State) : (clearCodeTable s).hdrFmt = s.hdrFmt := rfl
@[simp] theorem clearCodeTable_origBits (s : State) : (clearCodeTable s).origBits = s.origBits := rfl
@[simp] theorem clearCodeTable_acctBits (s : State) : (clearCodeTable s).acctBits = s.acctBits := rfl
@[simp] theorem clearCodeTable_savings (s : State) : (clearCodeTable s).savings = s.savings := rfl
@[simp] theorem clearCodeTable_treeLen (s : State) : (clearCodeTable s).treeLen = s.treeLen := rfl
@[simp] theorem clearCodeTable_ports (s : State) : (clearCodeTable s).ports = s.ports := rfl
@[simp] theorem clearCodeTable_supplies (s : State) : (clearCodeTable s).supplies = s.supplies := rfl
@[simp] theorem clearCodeTable_script (s : State) : (clearCodeTable s).script = s.script := rfl
@[simp] theorem clearCodeTable_reads (s : State) : (clearCodeTable s).reads = s.reads := rfl
@[simp] theorem clearCodeTable_draws (s : State) : (clearCodeTable s).draws = s.draws := rfl

/-! ### `invalidateSession` -/

@[simp] theorem invalidateSession_par (s : State) : (invalidateSession s).par = s.par := rfl
@[simp] theorem invalidateSession_engine (s : State) : (invalidateSession s).engine = s.engine := rfl
@[simp] theorem invalidateSession_done (s : State) : (invalidateSession s).done = s.done := rfl
@[simp] theorem invalidateSession_irqEn (s : State) : (invalidateSession s).irqEn = s.irqEn := rfl
@[simp] theorem invalidateSession_err (s : State) : (invalidateSession s).err = s.err := rfl
@[simp] theorem invalidateSession_errOp (s : State) : (invalidateSession s).errOp = s.errOp := rfl
@[simp] theorem invalidateSession_dropped (s : State) : (invalidateSession s).dropped = s.dropped := rfl
@[simp] theorem invalidateSession_tlenMismatch (s : State) : (invalidateSession s).tlenMismatch = s.tlenMismatch := rfl
@[simp] theorem invalidateSession_arg0 (s : State) : (invalidateSession s).arg0 = s.arg0 := rfl
@[simp] theorem invalidateSession_result0 (s : State) : (invalidateSession s).result0 = s.result0 := rfl
@[simp] theorem invalidateSession_result1 (s : State) : (invalidateSession s).result1 = s.result1 := rfl
@[simp] theorem invalidateSession_result2 (s : State) : (invalidateSession s).result2 = s.result2 := rfl
@[simp] theorem invalidateSession_ctSel (s : State) : (invalidateSession s).ctSel = s.ctSel := rfl
@[simp] theorem invalidateSession_freq (s : State) : (invalidateSession s).freq = s.freq := rfl
@[simp] theorem invalidateSession_nodes (s : State) : (invalidateSession s).nodes = s.nodes := rfl
@[simp] theorem invalidateSession_root (s : State) : (invalidateSession s).root = none := rfl
@[simp] theorem invalidateSession_ct (s : State) : (invalidateSession s).ct = [] := rfl
@[simp] theorem invalidateSession_ctValid (s : State) : (invalidateSession s).ctValid = false := rfl
@[simp] theorem invalidateSession_measured (s : State) : (invalidateSession s).measured = false := rfl
@[simp] theorem invalidateSession_hdrFmt (s : State) : (invalidateSession s).hdrFmt = s.hdrFmt := rfl
@[simp] theorem invalidateSession_origBits (s : State) : (invalidateSession s).origBits = s.origBits := rfl
@[simp] theorem invalidateSession_acctBits (s : State) : (invalidateSession s).acctBits = s.acctBits := rfl
@[simp] theorem invalidateSession_savings (s : State) : (invalidateSession s).savings = s.savings := rfl
@[simp] theorem invalidateSession_treeLen (s : State) : (invalidateSession s).treeLen = s.treeLen := rfl
@[simp] theorem invalidateSession_ports (s : State) : (invalidateSession s).ports = s.ports := rfl
@[simp] theorem invalidateSession_supplies (s : State) : (invalidateSession s).supplies = s.supplies := rfl
@[simp] theorem invalidateSession_script (s : State) : (invalidateSession s).script = s.script := rfl
@[simp] theorem invalidateSession_reads (s : State) : (invalidateSession s).reads = s.reads := rfl
@[simp] theorem invalidateSession_draws (s : State) : (invalidateSession s).draws = s.draws := rfl

/-! ### `takeSupply` -/

@[simp] theorem takeSupply_par (s : State) : (takeSupply s).par = s.par := rfl
@[simp] theorem takeSupply_engine (s : State) : (takeSupply s).engine = s.engine := rfl
@[simp] theorem takeSupply_done (s : State) : (takeSupply s).done = s.done := rfl
@[simp] theorem takeSupply_irqEn (s : State) : (takeSupply s).irqEn = s.irqEn := rfl
@[simp] theorem takeSupply_err (s : State) : (takeSupply s).err = s.err := rfl
@[simp] theorem takeSupply_errOp (s : State) : (takeSupply s).errOp = s.errOp := rfl
@[simp] theorem takeSupply_dropped (s : State) : (takeSupply s).dropped = s.dropped := rfl
@[simp] theorem takeSupply_tlenMismatch (s : State) : (takeSupply s).tlenMismatch = s.tlenMismatch := rfl
@[simp] theorem takeSupply_arg0 (s : State) : (takeSupply s).arg0 = s.arg0 := rfl
@[simp] theorem takeSupply_result0 (s : State) : (takeSupply s).result0 = s.result0 := rfl
@[simp] theorem takeSupply_result1 (s : State) : (takeSupply s).result1 = s.result1 := rfl
@[simp] theorem takeSupply_result2 (s : State) : (takeSupply s).result2 = s.result2 := rfl
@[simp] theorem takeSupply_ctSel (s : State) : (takeSupply s).ctSel = s.ctSel := rfl
@[simp] theorem takeSupply_freq (s : State) : (takeSupply s).freq = s.freq := rfl
@[simp] theorem takeSupply_nodes (s : State) : (takeSupply s).nodes = s.nodes := rfl
@[simp] theorem takeSupply_root (s : State) : (takeSupply s).root = s.root := rfl
@[simp] theorem takeSupply_ct (s : State) : (takeSupply s).ct = s.ct := rfl
@[simp] theorem takeSupply_ctValid (s : State) : (takeSupply s).ctValid = s.ctValid := rfl
@[simp] theorem takeSupply_measured (s : State) : (takeSupply s).measured = s.measured := rfl
@[simp] theorem takeSupply_hdrFmt (s : State) : (takeSupply s).hdrFmt = s.hdrFmt := rfl
@[simp] theorem takeSupply_origBits (s : State) : (takeSupply s).origBits = s.origBits := rfl
@[simp] theorem takeSupply_acctBits (s : State) : (takeSupply s).acctBits = s.acctBits := rfl
@[simp] theorem takeSupply_savings (s : State) : (takeSupply s).savings = s.savings := rfl
@[simp] theorem takeSupply_treeLen (s : State) : (takeSupply s).treeLen = s.treeLen := rfl
@[simp] theorem takeSupply_ports (s : State) : (takeSupply s).ports = openSupply (s.supplies.headD []) s.ports := rfl
@[simp] theorem takeSupply_supplies (s : State) : (takeSupply s).supplies = s.supplies.tail := rfl
@[simp] theorem takeSupply_script (s : State) : (takeSupply s).script = s.script := rfl
@[simp] theorem takeSupply_reads (s : State) : (takeSupply s).reads = s.reads := rfl
@[simp] theorem takeSupply_draws (s : State) : (takeSupply s).draws = s.draws := rfl

end Sys2Proof.Machine
end

