-- ==== Sys2Proof/Laws/Commands.lean ====
section
/-!
SUPPORT. Everything the stream commands, a host access and a step can do (R71, R244, R245, R270, R359).
-/

namespace Sys2Proof.Machine

/-! ### Where the stream commands start (R72) -/

/-- MEASURE with its supply open. -/
theorem measureStart_ports (s : State) (b : List Byte) (bs : List (List Byte)) (h : s.supplies = b :: bs) :
  measureStart s = { s with supplies := bs, measured := false, ports := { s.ports with rest := supplyBits b, inPos := 0, inBits := 0 } } := by
  simp [measureStart, takeSupply, h, openSupply]

/-- COMPRESS with its supply open. -/
theorem compressStart_eq (s : State) : compressStart s = { s with supplies := s.supplies.tail, ports := { s.ports with rest := supplyBits (s.supplies.headD []), inPos := 0, inBits := 0, bitsWritten := 0 } } := by
  simp [compressStart, takeSupply, openSupply]

/-- DECOMPRESS with its supply open. -/
theorem decompressStart_eq (s : State) (b : List Byte) (bs : List (List Byte)) (h : s.supplies = b :: bs) : decompressStart s = { s with
   supplies := bs, measured := false, root := none, ct := [], ctValid := false, nodes := { queue := [], used := 0 }, treeLen := 0, tlenMismatch := false,
   ports := { s.ports with rest := supplyBits b, inPos := 0, inBits := 0, bitsWritten := 0 } } := by
  simp [decompressStart, takeSupply, h, openSupply, invalidateSession, clearCodeTable, freeNodes, NodeStore.empty]

/-- MEASURE has touched IN only. -/
theorem measureStart_out (s : State) : InOnly s.ports (measureStart s).ports := ⟨rfl, rfl, rfl⟩

/-- The ports with BITS_WRITTEN = 0, as COMPRESS and DECOMPRESS start (R45). -/
def uncounted (p : Ports) : Ports := { p with bitsWritten := 0 }

/-- COMPRESS has sent nothing yet. -/
theorem compressStart_out (s : State) : InOnly (uncounted s.ports) (compressStart s).ports := ⟨rfl, rfl, rfl⟩

/-- DECOMPRESS has sent nothing yet. -/
theorem decompressStart_out (s : State) : InOnly (uncounted s.ports) (decompressStart s).ports := ⟨rfl, rfl, rfl⟩

/-! ### The stream commands -/

/-- MEASURE: COUNT_OVERFLOW, or the session of the counted FREQ. -/
theorem measureRun_cases (f : HdrFmt) (s : State) : ∃ m q, InOnly (measureStart s).ports q ∧ Memory.wf s.par.alphSize m = true ∧
   (measureRun f s = raiseError .countOverflow (.measure f) { measureStart s with freq := m, ports := q } ∨
    ∃ r st, buildTree (loadFreq s.par m) = some (r, st) ∧
      measureRun f s = complete (measureFinish f (freqTotal s.par m) r st { measureStart s with freq := m, ports := q })) := by
  have h := countInput_last s.par ((measureStart s).ports.rest.length + 1) 0 [] (measureStart s).ports
  have ht := countInput_total s.par ((measureStart s).ports.rest.length + 1) 0 [] (measureStart s).ports
  unfold measureRun
  have hpar : (measureStart s).par = s.par := rfl
  simp only [hpar]
  generalize countInput s.par ((measureStart s).ports.rest.length + 1) 0 [] (measureStart s).ports = r at *
  cases r with
  | raise e st =>
    obtain ⟨m, q⟩ := st
    obtain rfl := h.2.2 _ _ rfl
    exact ⟨m, q, h.1, h.2.1 (Memory.wf_nil _), Or.inl rfl⟩
  | ok n st =>
    obtain ⟨m, q⟩ := st
    have := ht _ _ rfl
    have h0 : freqTotal s.par [] = 0 := by simp [freqTotal]
    rw [h0] at this
    obtain ⟨r, hr⟩ := buildTree_loadFreq s.par m
    refine ⟨m, q, h.1, h.2.1 (Memory.wf_nil _), Or.inr ⟨r, _, hr, ?_⟩⟩
    simp only [hr]
    have : n = freqTotal s.par m := by simpa using this
    rw [this]

/-- COMPRESS when it writes: NO_CODE, or the stream. -/
theorem compressRun_cases (force : Bool) (s : State) : ∃ q, Wrote (compressStart s).ports q ∧ 
    (compressRun force s = raiseError .noCode (.compress force) { compressStart s with ports := q } ∨
     compressRun force s = complete (setResults q.bitsWritten 0 { compressStart s with ports := closeSequence (.compress force) q })) := by
  have h := emitStream_last (compressStart s) (compressStart s).ports
  unfold compressRun
  simp only
  generalize emitStream (compressStart s) (compressStart s).ports = r at *
  cases r with
  | raise e q => obtain rfl := h.2 _ _ rfl; exact ⟨q, h.1, Or.inl rfl⟩
  | ok u q => exact ⟨q, h.1, Or.inr rfl⟩

/-- What DECOMPRESS has changed when it completes or raises. -/
structure DecompressState (s d t : State) : Prop where
  frame : t = { d with freq := t.freq, ports := t.ports, nodes := t.nodes, treeLen := t.treeLen, tlenMismatch := t.tlenMismatch, root := t.root }
  grew : Wrote (uncounted s.ports) t.ports
  freq : (d.ports.rest.take 64 ≠ bitsMsb 32 s.par.magic.toNat ++ bitsMsb 32 s.par.tagCounts.toNat) → t.freq = s.freq
  wf : Memory.wf s.par.alphSize s.freq = true → Memory.wf s.par.alphSize t.freq = true
  queue : t.nodes.queue = []
  used : t.nodes.used ≤ s.par.nodeCap
  root : ∀ r, t.root = some r → (s.par.legal = true → r.weightsExact = true ∧ r.symbolsLegal s.par = true) ∧ r.size ≤ t.nodes.used

/-- DECOMPRESS up to its close: one of its four errors, or none. -/
theorem decompressWork_cases (s : State) : ∃ t, DecompressState s (decompressStart s) t ∧
    ((∃ e, e ∈ [ErrCode.notRecognizedFormat, .unsupportedHeaderFormat, .truncatedStream, .malformedTree]
        ∧ decompressWork s = .raise e t) ∨ decompressWork s = .ok () t) := by
  have hst0 := (decompressStart_out s).wrote
  have hpar : (decompressStart s).par = s.par := rfl
  have hfr : (decompressStart s).freq = s.freq := rfl
  have hq : (decompressStart s).nodes.queue = [] := rfl
  have hu : (decompressStart s).nodes.used = 0 := rfl
  have hroot : (decompressStart s).root = none := rfl
  unfold decompressWork
  simp only
  generalize decompressStart s = d at *
  have hbase : ∀ q, InOnly d.ports q → DecompressState s d { d with ports := q } := fun q hq' =>
    ⟨rfl, hst0.trans hq'.wrote, fun _ => hfr, fun h => by simpa [hfr] using h, hq, by simp [hu], by intro r h; simp [hroot] at h⟩
  have hr1 := readBits_inOnly 32 d.ports
  have hc1 := readBits_cases 32 d.ports
  generalize readBits 32 d.ports = rb1 at *
  obtain ⟨m, q1⟩ := rb1
  simp only
  split
  · exact ⟨_, hbase q1 hr1, Or.inl ⟨_, by simp, rfl⟩⟩
  · rename_i hm
    rw [not_not] at hm
    have hr2 := readBits_inOnly 32 q1
    have hc2 := readBits_cases 32 q1
    generalize readBits 32 q1 = rb2 at *
    obtain ⟨t, q2⟩ := rb2
    simp only
    split
    · exact ⟨_, hbase q2 (hr1.trans hr2), Or.inl ⟨_, by simp, rfl⟩⟩
    · rename_i f hf
      have hph := parseHeader_last f { d with ports := q2 } hu _ rfl
      have hfreq : d.ports.rest.take 64 ≠ bitsMsb 32 s.par.magic.toNat ++ bitsMsb 32 s.par.tagCounts.toNat → f = .tree := by
        intro hne
        cases f with
        | tree => rfl
        | counts =>
          exfalso; apply hne
          rcases hc1 with ⟨a, c, e1, e2, e3⟩ | ⟨e2, e3⟩
          · simp only [Prod.mk.injEq] at e3
            obtain ⟨e3, e4⟩ := e3
            rcases hc2 with ⟨a', c', g1, g2, g3⟩ | ⟨g2, g3⟩
            · simp only [Prod.mk.injEq] at g3
              obtain ⟨g3, g4⟩ := g3
              rw [e4] at g1
              simp only at g1
              have ha : bitsToNat a = s.par.magic.toNat := by rw [hm] at e3; simpa using e3.symm
              have ha' : bitsToNat a' = s.par.tagCounts.toNat := by
                unfold decodeTag at hf
                split at hf
                · rename_i h; rw [g3] at h; simpa using h
                · split at hf <;> cases hf
              rw [e1, g1, ← List.append_assoc, take_of_length (by simp [e2, g2]), (bitsToNat_eq_iff s.par.magic.isLt e2).1 ha, (bitsToNat_eq_iff s.par.tagCounts.isLt g2).1 ha']
            · simp only [Prod.mk.injEq] at g3
              rw [g3.1] at hf
              simp [decodeTag] at hf
          · simp only [Prod.mk.injEq] at e3; rw [hm] at e3; cases e3.1
      generalize hP : parseHeader f { d with ports := q2 } = P at *
      obtain ⟨p1, p2, p3, p4, p5, p6, p7, p8⟩ := hph
      simp only [hpar, hfr] at p3 p4 p7 p8
      cases P with
      | raise e s1 =>
        simp only [Run.last] at *
        refine ⟨s1, ⟨?_, hst0.trans ((hr1.trans hr2).wrote.trans p2.wrote), fun hne => (p3 (hfreq hne)).1, p4, p6 hq, p7, ?_⟩, Or.inl ⟨e, ?_, rfl⟩⟩
        · rw [p1]
        · intro r hr; rw [p1] at hr; simp [hroot] at hr
        · rcases p5 e s1 rfl with rfl | rfl <;> simp
      | ok r s1 =>
        simp only [Run.last] at *
        unfold decompressBody
        have hd := decodeSymbols_last s1.par r (s1.ports.rest.length + 1) s1.ports
        generalize decodeSymbols s1.par r (s1.ports.rest.length + 1) s1.ports = D at *
        have hp8 := p8 r s1 rfl
        have hDS : ∀ q, Wrote s1.ports q → DecompressState s d { s1 with root := some r, ports := q } := by
          intro q hq'
          have k3 : d.ports.rest.take 64 ≠ bitsMsb 32 s.par.magic.toNat ++ bitsMsb 32 s.par.tagCounts.toNat → s1.freq = s.freq := by
            intro hne
            have a := hfreq hne
            have b := p3 a
            have c := b.1
            exact c
          have k2 : Wrote (uncounted s.ports) q := hst0.trans (((hr1.trans hr2).wrote.trans p2.wrote).trans hq')
          have k4 : Memory.wf s.par.alphSize s.freq = true → Memory.wf s.par.alphSize s1.freq = true := p4
          refine ⟨?_, k2, k3, k4, p6 hq, p7, ?_⟩
          · exact congrArg (fun x : State => { x with root := some r, ports := q }) p1
          · intro r' hr'; cases hr'; exact hp8
        cases D with
        | raise e q =>
          obtain rfl := hd.2 _ _ rfl
          exact ⟨_, hDS q hd.1, Or.inl ⟨_, by simp, rfl⟩⟩
        | ok u q => exact ⟨_, hDS q hd.1, Or.inr rfl⟩

/-- DECOMPRESS: one of its four errors, or completion. -/
theorem decompressRun_cases (s : State) : ∃ t, DecompressState s (decompressStart s) t ∧
    ((∃ e, e ∈ [ErrCode.notRecognizedFormat, .unsupportedHeaderFormat, .truncatedStream, .malformedTree]
        ∧ decompressRun s = raiseError e .decompress t) ∨
    decompressRun s
      = complete (setResults t.ports.bitsWritten 0 { t with ports := closeSequence .decompress t.ports })) := by
  obtain ⟨t, ht, ⟨e, he, h⟩ | h⟩ := decompressWork_cases s
  · exact ⟨t, ht, Or.inl ⟨e, he, by simp [decompressRun, h, decompressEnd]⟩⟩
  · exact ⟨t, ht, Or.inr (by simp [decompressRun, h, decompressEnd])⟩

/-- MEASURE waits or runs. -/
theorem exec_measure_cases {f : HdrFmt} {s t : State} (h : exec (.measure f) s = .next t) : (t = s ∧ s.supplies
    = []) ∨ (s.supplies ≠ [] ∧ t = measureRun f s) := by
  simp only [exec, execMeasure] at h
  split at h
  · rename_i hs; cases h; exact Or.inl ⟨rfl, hs⟩
  · rename_i hs; cases h; exact Or.inr ⟨by simp [hs], rfl⟩

/-- COMPRESS waits, refuses, writes nothing or runs. -/
theorem exec_compress_cases {f : Bool} {s t : State} (h : exec (.compress f) s = .next t) :
   (t = s ∧ s.supplies = [] ∧ s.measured = true) ∨ (s.measured = false ∧ t = raiseError .preconditionViolation (.compress f) (compressStart s))
   ∨ t = complete (setResults 0 0 { compressStart s with ports := closeSequence (.compress f) (compressStart s).ports })
   ∨ (s.supplies ≠ [] ∧ t = compressRun f s) := by
  simp only [exec, execCompress] at h
  split at h
  · rename_i hm; cases h; exact Or.inr (Or.inl ⟨hm, rfl⟩)
  · rename_i hm
    split at h
    · cases h; exact Or.inr (Or.inr (Or.inl rfl))
    · split at h
      · rename_i hs; cases h; exact Or.inl ⟨rfl, hs, by simpa using hm⟩
      · rename_i hs; cases h; exact Or.inr (Or.inr (Or.inr ⟨by simp [hs], rfl⟩))

/-- DECOMPRESS waits or runs. -/
theorem exec_decompress_cases {s t : State} (h : exec .decompress s = .next t) : (t = s ∧ s.supplies = []) ∨
    (s.supplies ≠ [] ∧ t = decompressRun s) := by
  simp only [exec, execDecompress] at h
  split at h
  · rename_i hs; cases h; exact Or.inl ⟨rfl, hs⟩
  · rename_i hs; cases h; exact Or.inr ⟨by simp [hs], rfl⟩

/-- DECOMPRESS behind its header, on a stream that ends with the EOS path. -/
theorem decompressBody_eq (s : State) (r : HuffTree) (paths : List (List Bool)) (syms : List Nat) (last more : List Bool) (ho : s.ports.outPend = [])
   (hx : ∀ x ∈ syms, x ≠ s.par.eos) (hp : paths.map r.follow = syms.map some) (hl : r.follow last = some s.par.eos)
   (hr : s.ports.rest = paths.flatten ++ last ++ more) (hb : s.ports.bitsWritten = 0) :
   decompressEnd (decompressBody r s) = { s with
      root := some r,
      ports := {
        rest := [], inPos := 0,
        inBits := s.ports.inBits + BitVec.ofNat 64 (paths.flatten.length + last.length), outPend := [],
        bitsWritten := BitVec.ofNat 64 (syms.length * s.par.w),
        log := s.ports.log ++ (packBytes (unitsString s.par syms)).map .byte ++ [.closeOut, .closeIn] },
      result0 := (BitVec.ofNat 64 (syms.length * s.par.w)).extractLsb' 0 32,
      result1 := (BitVec.ofNat 64 (syms.length * s.par.w)).extractLsb' 32 32,
      result2 := 0, engine := .idle, done := true } := by
  simp only [decompressBody]
  have hk : syms.length < s.ports.rest.length + 1 := by
    have := paths_length r _ paths syms last hx hp hl
    rw [hr]; simp only [List.length_append]; omega
  rw [decodeSymbols_ok s.par r _ s.ports paths syms last more hx hp hl hk hr]
  simp only [decompressEnd]
  rw [closeSequence_writeCode _ (Or.inr rfl) _ _ (h := ?hp)]
  case hp => exact ho
  rw [writeCode_bits _ _ (hp := ?hp)]
  case hp => exact ho
  simp [complete, setResults, lowWord, highWord, hb, unitsString_length]

/-- DECOMPRESS behind its header, on a stream that ends inside a walk. -/
theorem decompressBody_inside (s : State) (r : HuffTree) (paths : List (List Bool)) (syms : List Nat) (part : List Bool) (ho : s.ports.outPend = [])
   (hx : ∀ x ∈ syms, x ≠ s.par.eos) (hp : paths.map r.follow = syms.map some) (hl : r.leadsInside part = true)
   (hr : s.ports.rest = paths.flatten ++ part) (hb : s.ports.bitsWritten = 0) :
   decompressEnd (decompressBody r s) = { s with
      root := some r,
      ports := {
        rest := [], inPos := 0,
        inBits := s.ports.inBits + BitVec.ofNat 64 (paths.flatten.length + part.length), outPend := [],
        bitsWritten := BitVec.ofNat 64 (unitsString s.par syms).length,
        log := s.ports.log ++ (packBytes (unitsString s.par syms)).map .byte ++ [.closeOut, .closeIn] },
      err := some .truncatedStream, errOp := 0x32#8, engine := .idle, done := true } := by
  simp only [decompressBody]
  have hk : syms.length < s.ports.rest.length + 1 := by
    have := paths_length_inside r paths syms part hp hl
    rw [hr]; simp only [List.length_append]; omega
  rw [decodeSymbols_inside s.par r _ s.ports paths syms part hx hp hl hk hr]
  simp only [decompressEnd, raiseError]
  rw [closeSequence_writeCode _ (Or.inr rfl) _ _ (h := ?hp)]
  case hp => exact ho
  simp [hb, Instr.opcode]

/-- Different words have different numbers. -/
theorem word_toNat_ne {a b : Word} (h : a ≠ b) : a.toNat ≠ b.toNat := fun h' => h (BitVec.eq_of_toNat_eq h')

/-- DECOMPRESS up to the header, on a stream with MAGIC and a known tag. -/
theorem exec_decompress_header (s : State) (b : List Byte) (bs : List (List Byte)) (hs : s.supplies = b :: bs) (f : HdrFmt) (hl : s.par.legal = true) (more : List Bool)
   (hb : supplyBits b = bitsMsb 32 s.par.magic.toNat ++ (bitsMsb 32 (fmtTag s.par f).toNat ++ more)) :
   exec .decompress s = .next (
     match parseHeader f { s with
   supplies := bs, measured := false, root := none, ct := [], ctValid := false, nodes := { queue := [], used := 0 }, treeLen := 0, tlenMismatch := false,
   ports := { s.ports with rest := more, inPos := 64, inBits := BitVec.ofNat 64 64, bitsWritten := 0 } } with
     | .raise e s1 => raiseError e .decompress s1
     | .ok r s1 => decompressEnd (decompressBody r s1)) := by
  simp only [exec, execDecompress]
  rw [hs]
  simp only [decompressRun, decompressWork, decompressStart_eq s b bs hs]
  rw [readBits_append (a := bitsMsb 32 s.par.magic.toNat) (h := hb) (by simp)]
  simp only [bitsToNat_bitsMsb_of_lt s.par.magic.isLt]
  rw [if_neg (by simp)]
  rw [readBits_append (a := bitsMsb 32 (fmtTag s.par f).toNat) (b := more) (h := rfl) (by simp)]
  simp only [bitsToNat_bitsMsb_of_lt (fmtTag s.par f).isLt]
  have hd : decodeTag s.par (some (fmtTag s.par f).toNat) = some f := by
    have := (Params.legal_spec hl).2.2.2.2
    cases f
    · simp [decodeTag, fmtTag]
    · have := word_toNat_ne this
      simp [decodeTag, fmtTag, Ne.symm this]
  rw [hd]
  simp only [counter_add, Nat.zero_add]
  rw [show (0 : Counter) + BitVec.ofNat 64 (32 + 32) = BitVec.ofNat 64 64 by decide]
  congr 1
  split <;> (rename_i h; rw [h] <;> rfl)

/-- SAVINGS as a difference of counters (R243). -/
theorem savingsOf_eq (a b : Nat) : savingsOf a b = BitVec.ofNat 64 a - BitVec.ofNat 64 b := by
  unfold savingsOf
  apply BitVec.eq_of_toInt_eq
  rw [BitVec.toInt_sub, BitVec.toInt_ofInt, BitVec.toInt_ofNat', BitVec.toInt_ofNat']
  simp

/-! ### Host accesses (R32, R71) -/

/-- BUSY = 0 is the idle engine. -/
theorem engine_of_not_busy {s : State} (h : busy s = false) : s.engine = .idle := by
  unfold busy at h; split at h <;> simp_all

/-- A CMD write presents the word. -/
theorem memWrite_cmd (s : State) (v : Word) (hb : busy s = false) : memWrite 0x010#12 v s = presentCommand v s := by
  simp [memWrite, hb, regAt, regOfIndex, writeReg]

/-- The three words of R322. -/
theorem controlWord_iff (v : Word) : controlWord v = true ↔ v = 0x00000000#32 ∨ v = 0x01000000#32 ∨ v =
    0x02000000#32 := by
  simp [controlWord, or_assoc]

/-- A word-aligned offset. -/
theorem regAt_index (par : Params) (k : Nat) (i : Nat) (h : k = 4 * i) (hi : i < 1024) : regAt par (BitVec.ofNat
    12 k) = regOfIndex par i := by
  unfold regAt; congr 1; simp; omega

/-- A FREQ offset is that of a normal symbol. -/
theorem regAt_freq {par : Params} {a : Offset} {x : Nat} (h : regAt par a = .freq x) : x < par.alphSize := by
  unfold regAt at h
  generalize a.toNat / 4 = j at h
  unfold regOfIndex at h
  split at h
  case h_28 _ _ _ _ _ _ _ _ _ _ _ _ _ _ _ _ _ _ _ _ _ _ _ _ _ _ _ _ =>
    by_cases h1 : 32 ≤ j ∧ j < 40
    · rw [if_pos h1] at h; exact absurd h (by simp)
    · rw [if_neg h1] at h
      by_cases h2 : 256 ≤ j ∧ j < 512 ∧ j - 256 < par.alphSize
      · rw [if_pos h2] at h
        have := Reg.freq.inj h
        rw [← this]; exact h2.2.2
      · rw [if_neg h2] at h; exact absurd h (by simp)
  all_goals exact absurd h (by simp)

/-- Everything a write can do. -/
theorem memWrite_cases (a : Offset) (v : Word) (s : State) : memWrite a v s = drop s ∨ (busy s = false ∧ ((∃ e, decode v = .error e ∧ memWrite a v s = raiseIllegal v s) ∨ (∃ i, decode v = .ok i ∧ memWrite a v s = accept i s)
   ∨ memWrite a v s = { s with irqEn := v.getLsbD 0 } ∨ memWrite a v s = { s with arg0 := v } ∨ memWrite a v s = { s with ctSel := v.extractLsb' 0 9 } ∨ (∃ x, x < s.par.alphSize ∧ memWrite a v s = { s with freq := freqSet s.freq x v, measured := false }) ∨ memWrite a v s = s)) := by
  unfold memWrite
  cases hb : busy s
  · simp only [Bool.false_eq_true, if_false]
    unfold writeReg
    split
    · unfold presentCommand
      split
      · exact Or.inl rfl
      · split
        · rename_i e he; exact Or.inr ⟨trivial, Or.inl ⟨e, he, rfl⟩⟩
        · rename_i i hi; exact Or.inr ⟨trivial, Or.inr (Or.inl ⟨i, hi, rfl⟩)⟩
    · exact Or.inr ⟨trivial, Or.inr (Or.inr (Or.inl rfl))⟩
    · exact Or.inr ⟨trivial, Or.inr (Or.inr (Or.inr (Or.inl rfl)))⟩
    · exact Or.inr ⟨trivial, Or.inr (Or.inr (Or.inr (Or.inr (Or.inl rfl))))⟩
    · rename_i x hx
      refine Or.inr ⟨trivial, Or.inr (Or.inr (Or.inr (Or.inr (Or.inr (Or.inl ⟨x, ?_, rfl⟩)))))⟩
      exact regAt_freq hx
    all_goals exact Or.inr ⟨trivial, Or.inr (Or.inr (Or.inr (Or.inr (Or.inr (Or.inr rfl)))))⟩
  · exact Or.inl rfl

/-- The bus address of an offset is inside the block (R80). -/
theorem busOffset_in (par : Params) (a : Offset) : busOffset par (par.htbBase + a.toNat) = some a := by
  have := a.isLt
  unfold busOffset
  rw [if_pos (by omega), Nat.add_sub_cancel_left]; simp

/-- Any other address is another device's. -/
theorem busOffset_out {par : Params} {addr : Nat} (h : addr < par.htbBase ∨ par.htbBase + 4096 ≤ addr) :
    busOffset par addr = none := by
  unfold busOffset; rw [if_neg (by omega)]

/-- What a read leaves alone. -/
theorem memRead_frame (a : Offset) (s : State) : ∃ r d, memRead a s = { s with reads := r, draws := d } := by
  unfold memRead; split <;> exact ⟨_, _, rfl⟩

/-! ### Hardware reset (R351) -/

/-- What a COMPRESS that is to write its stream does to OUT before its close. -/
theorem compressOut_wrote {force : Bool} {s : State} (h : (s.measured && writesStream force s) = true) :
    Wrote (uncounted s.ports) (compressOut force s) := by
  unfold compressOut
  rw [if_pos h]
  split
  · exact (compressStart_out s).wrote.trans (writeHeader_wrote _ _)
  · exact (compressStart_out s).wrote.trans (emitStream_last _ _).1

/-- What a DECOMPRESS with its supply does to OUT before its close. -/
theorem decompressOut_wrote {s : State} (h : s.supplies ≠ []) : Wrote (uncounted s.ports) (decompressOut s) := by
  unfold decompressOut
  split
  · exact absurd ‹_› h
  · obtain ⟨t, ht, ⟨e, -, h⟩ | h⟩ := decompressWork_cases s <;> (rw [h]; exact ht.grew)

/-- The pending command writes to OUT before its close, BITS_WRITTEN counted from 0, or leaves the ports alone. -/
theorem outBeforeClose_wrote (s : State) :
    Wrote (uncounted s.ports) (outBeforeClose s) ∨ outBeforeClose s = s.ports := by
  have hd : Wrote (uncounted s.ports) (decompressOut s) ∨ decompressOut s = s.ports := by
    by_cases h : s.supplies = []
    · right; simp [decompressOut, h]
    · exact Or.inl (decompressOut_wrote h)
  have hc : ∀ force, Wrote (uncounted s.ports) (compressOut force s) ∨ compressOut force s = s.ports := by
    intro force
    by_cases h : (s.measured && writesStream force s) = true
    · exact Or.inl (compressOut_wrote h)
    · right; rw [compressOut, if_neg h]
  unfold outBeforeClose
  split <;> first | exact hc _ | exact hd | exact Or.inr rfl

/-- What RST may find sent is bytes. -/
theorem pendingOut_bytes (s : State) : ∃ bytes : List Byte, pendingOut s = bytes.map .byte
    ∧ (outBeforeClose s).log = s.ports.log ++ bytes.map .byte := by
  have : ∃ bytes : List Byte, (outBeforeClose s).log = s.ports.log ++ bytes.map .byte := by
    rcases outBeforeClose_wrote s with h | h
    · exact h.bytes
    · exact ⟨[], by simp [h]⟩
  obtain ⟨bytes, h⟩ := this
  exact ⟨bytes, by rw [pendingOut, h, List.drop_left], h⟩

/-! ### The WAIT loop (R107) -/

/-- What a poll of WAIT leaves alone. -/
theorem waitPoll_frame (s : State) : ∃ r sc, waitPoll s = { s with reads := r, script := sc } := by
  have h : memRead 0x00C#12 s = { s with reads := s.reads ++ [statusWord s] } := by
    simp [memRead, regAt, regOfIndex, stableReg, regValue]
  unfold waitPoll
  split <;> exact ⟨_, _, by rw [h]⟩

/-! ### A step (R359) -/

/-- Everything a step can be. -/
theorem step_cases {s t : State} (h : step s = .next t) : ∃ s', s' = { s with script := s.script.tail } ∧
   ((∃ i, s.engine = .busy i ∧ exec i s' = .next t) ∨ t = s' ∨ (∃ a, t = memRead a s') ∨ (∃ a v, t = memWrite a v s') ∨ (∃ b, t = presentSupply b s') ∨ (∃ b, t = hardReset b s') ∨ t = waitPoll s') := by
  refine ⟨_, rfl, ?_⟩
  have heng : ∀ s' : State, s'.engine = s.engine → engineStep s' = .next t → (∃ i, s.engine = .busy i ∧ exec i s' = .next t) ∨ t = s' := by
    intro s' he h
    unfold engineStep at h
    split at h
    · cases h; exact Or.inr rfl
    · rename_i i hi; exact Or.inl ⟨i, he ▸ hi, h⟩
  unfold step at h
  split at h
  · rename_i hs
    have : { s with script := s.script.tail } = s := by rw [hs]; obtain ⟨⟩ := s; simp_all
    rw [this]
    rcases heng s rfl h with h | h
    · exact Or.inl h
    · exact Or.inr (Or.inl h)
  · rename_i e es hs
    rw [hs]
    simp only [List.tail_cons]
    cases e with
    | engine =>
      rcases heng { s with script := es } rfl h with h | h
      · exact Or.inl h
      · exact Or.inr (Or.inl h)
    | read a =>
      simp only [eventStep, hostRead] at h
      split at h <;> cases h
      · exact Or.inr (Or.inr (Or.inl ⟨_, rfl⟩))
      · exact Or.inr (Or.inl rfl)
    | write a v =>
      simp only [eventStep, hostWrite] at h
      split at h <;> cases h
      · exact Or.inr (Or.inr (Or.inr (Or.inl ⟨_, _, rfl⟩)))
      · exact Or.inr (Or.inl rfl)
    | supply b => cases h; exact Or.inr (Or.inr (Or.inr (Or.inr (Or.inl ⟨_, rfl⟩))))
    | wait => cases h; exact Or.inr (Or.inr (Or.inr (Or.inr (Or.inr (Or.inr rfl)))))
    | rst b => cases h; exact Or.inr (Or.inr (Or.inr (Or.inr (Or.inr (Or.inl ⟨_, rfl⟩)))))

end Sys2Proof.Machine
end

