-- ==== Sys2Proof/Laws/Encoding.lean ====
section
/-!
SUPPORT. The fields of an encoded command word (R100).
-/

namespace Sys2Proof

open Machine

/-- The three fields of a 32-bit concatenation, at the width its parts add up to. -/
theorem fields_append (o r : BitVec 8) (m : BitVec 16) :
    (o ++ r ++ m).extractLsb' 24 8 = o ∧ (o ++ r ++ m).extractLsb' 16 8 = r ∧ (o ++ r ++ m).extractLsb' 0 16 = m := by
  refine ⟨?_, ?_, ?_⟩ <;> ext i hi <;> simp only [BitVec.getElem_extractLsb', BitVec.getLsbD_append]
  · have h1 : ¬ 24 + i < 16 := by omega
    have h2 : ¬ 24 + i - 16 < 8 := by omega
    have h3 : 24 + i - 16 - 8 = i := by omega
    simp [h1, h2, h3, BitVec.getLsbD_eq_getElem hi]
  · have h1 : ¬ 16 + i < 16 := by omega
    have h2 : 16 + i - 16 = i := by omega
    simp [h2, hi]
  · simp [hi]

/-- OP of a word put together from its three fields. -/
@[simp] theorem cmdOp_append (o r : BitVec 8) (m : BitVec 16) : cmdOp (o ++ r ++ m) = o := (fields_append o r m).1

/-- RSV of a word put together from its three fields. -/
@[simp] theorem cmdRsv_append (o r : BitVec 8) (m : BitVec 16) : cmdRsv (o ++ r ++ m) = r := (fields_append o r m).2.1

/-- IMM16 of a word put together from its three fields. -/
@[simp] theorem cmdImm_append (o r : BitVec 8) (m : BitVec 16) : cmdImm (o ++ r ++ m) = m := (fields_append o r m).2.2

@[simp] theorem cmdOp_encode (i : Instr) : cmdOp (encode i) = i.opcode := cmdOp_append _ _ _

@[simp] theorem cmdRsv_encode (i : Instr) : cmdRsv (encode i) = 0 := cmdRsv_append _ _ _

@[simp] theorem cmdImm_encode (i : Instr) : cmdImm (encode i) = i.imm := cmdImm_append _ _ _

/-- A word is the three fields it is made of (R100). -/
theorem word_eq_fields (v : Word) : cmdOp v ++ cmdRsv v ++ cmdImm v = v := by
  have h : v.extractLsb' 24 8 ++ v.extractLsb' 16 8 ++ v.extractLsb' 0 16 = (v : BitVec (8 + 8 + 16)) := by
    apply BitVec.eq_of_getLsbD_eq
    intro i hi
    simp only [BitVec.getLsbD_append, BitVec.getLsbD_extractLsb']
    by_cases h1 : i < 16
    · simp [h1]
    · by_cases h2 : i - 16 < 8
      · have h3 : 16 + (i - 16) = i := by omega
        simp [h1, h2, h3]
      · have h3 : 24 + (i - 16 - 8) = i := by omega
        have h4 : i - 16 - 8 < 8 := by omega
        simp [h1, h2, h3, h4]
  exact h

/-- Every opcode of a command is one of R102, with the immediate bits R101 gives it. -/
theorem immMask_opcode (i : Instr) : ∃ m, immMask i.opcode = some m ∧ i.imm &&& ~~~m = 0 := by
  cases i with
  | qEnqLeaf sym =>
    refine ⟨0xFFFF#16, rfl, ?_⟩
    have h : ~~~(0xFFFF#16) = 0#16 := by decide
    rw [h]
    exact BitVec.and_zero
  | measure f => cases f <;> exact ⟨0x0001#16, rfl, by decide⟩
  | compress b => cases b <;> exact ⟨0x0001#16, rfl, by decide⟩
  | _ => exact ⟨0#16, rfl, by decide⟩

/-! ### Decoding a word field by field (R100 to R104) -/

/-- The word of Q_ENQ_LEAF, symbol in IMM16 (R102). -/
theorem encode_qEnqLeaf (sym : Symbol) : encode (.qEnqLeaf sym) = 0x1100#16 ++ sym := by
  have h : ((0x11#8 ++ 0#8 : BitVec 16)) = 0x1100#16 := by decide
  show (0x11#8 ++ 0#8) ++ sym = _
  rw [h]

/-- A command without operand decodes only from RSV = 0 and IMM16 = 0 (R103). -/
theorem decodePlain_ok {v : Word} {i j} (h : decodePlain v i = .ok j) : cmdRsv v = 0 ∧ cmdImm v = 0 ∧ i = j := by
  unfold decodePlain at h
  split at h; · cases h
  split at h; · cases h
  simp_all

/-- A command with one operand bit decodes only from RSV = 0 and IMM16 = that bit (R103). -/
theorem decodeBit_ok {v : Word} {mk : Bool → Instr} {j} (h : decodeBit v mk = .ok j) : cmdRsv v = 0 ∧ (∃ b,
    cmdImm v = (BitVec.ofBool b).zeroExtend 16 ∧ j = mk b) := by
  unfold decodeBit at h
  split at h; · cases h
  split at h; · cases h
  rename_i h1 h2
  have key : ∀ m : BitVec 16, m.extractLsb' 1 15 = 0 → m = (BitVec.ofBool (m.getLsbD 0)).zeroExtend 16 := by
    intro m hm
    apply BitVec.eq_of_getLsbD_eq
    intro i hi
    by_cases h0 : i = 0
    · subst h0; simp
    · have h3 := congrArg (fun x => x.getLsbD (i - 1)) hm
      have h4 : 1 + (i - 1) = i := by omega
      have h5 : i - 1 < 15 := by omega
      simp [h4, h5] at h3
      have h6 : m.getLsbD i = false := by simpa [BitVec.getLsbD_eq_getElem hi] using h3
      rw [h6]
      simp
      omega
  refine ⟨by simpa using h1, (cmdImm v).getLsbD 0, key _ (by simpa using h2), ?_⟩
  simpa using h.symm

/-- An opcode is known by its number. -/
theorem cmdOp_of_toNat {v : Word} {n : Nat} (h : (cmdOp v).toNat = n) : cmdOp v = BitVec.ofNat 8 n := by
  subst h; simp

/-- A word is its two halves. -/
theorem word_halves (v : Word) : v.extractLsb' 16 16 ++ v.extractLsb' 0 16 = v := by
  have h : v.extractLsb' 16 16 ++ v.extractLsb' 0 16 = (v : BitVec (16 + 16)) := by
    apply BitVec.eq_of_getLsbD_eq
    intro i hi
    simp only [BitVec.getLsbD_append, BitVec.getLsbD_extractLsb']
    by_cases h1 : i < 16
    · simp [h1]
    · have h3 : 16 + (i - 16) = i := by omega
      have h4 : i - 16 < 16 := by omega
      simp [h1, h3, h4]
  exact h

end Sys2Proof
end

