-- ==== Sys2Proof/Laws/Invariants.lean ====
section
/-!
SUPPORT. Building blocks for the invariants of Safety.lean: what is enough for each to hold of a new state.
-/

namespace Sys2Proof.Machine

/-! ### The node store -/

/-- The store sound where nothing of it changed. -/
theorem StoreSound.congr {s t : State} (h : StoreSound s) (hp : t.par = s.par) (hn : t.nodes
    = s.nodes) (hr : t.root = s.root) : StoreSound t := by
  have hh : t.heldTrees = s.heldTrees := by unfold State.heldTrees; rw [hn, hr]
  exact ⟨hp ▸ h.legal, hn ▸ h.sorted, by rw [hn, hp]; exact h.queueFits, by rw [hn, hp]; exact h.storeFits, by rw [hn, hh]; exact h.counted, by rw [hh, hp]; exact h.symbols, by rw [hh]; exact h.weights⟩

/-- The store sound where it was emptied. -/
theorem StoreSound.fresh {s t : State} (h : StoreSound s) (hp : t.par = s.par) (hn : t.nodes = { queue := [], used := 0 }) (hr : t.root = none) : StoreSound t := by
  have hh : t.heldTrees = [] := by unfold State.heldTrees; rw [hn, hr]; rfl
  exact ⟨hp ▸ h.legal, by rw [hn]; exact List.Pairwise.nil, by rw [hn]; exact Nat.zero_le _, by rw [hn]; exact Nat.zero_le _, by rw [hn, hh]; exact Nat.le_refl _, (by rw [hh]; intro t ht; cases ht), (by rw [hh]; intro t ht; cases ht)⟩

/-- The store sound with an empty queue and a root. -/
theorem StoreSound.withRoot {s t : State} (hl : s.par.legal = true) (hp : t.par = s.par) {r :
    HuffTree} (hn : t.nodes.queue = []) (hr : t.root = some r) (hu : t.nodes.used ≤ s.par.nodeCap) (hs : r.size
    ≤ t.nodes.used) (hy : r.symbolsLegal s.par = true) (hw : r.weightsExact = true) : StoreSound t := by
  have hh : t.heldTrees = [r] := by unfold State.heldTrees; rw [hn, hr]; rfl
  refine ⟨hp ▸ hl, by rw [hn]; exact List.Pairwise.nil, by rw [hn]; exact Nat.zero_le _, by rw [hp]; exact hu, by rw [hh]; simpa using hs, ?_, ?_⟩
  · rw [hh, hp]; simpa using hy
  · rw [hh]; simpa using hw

/-- The queued nodes are counted. -/
theorem StoreSound.queue_size {s : State} (h : StoreSound s) : (s.nodes.queue.map HuffTree.size).sum ≤ s.nodes.used := by
  have := h.counted
  unfold State.heldTrees at this
  rw [List.map_append, List.sum_append] at this; omega

/-- The store after a tree was built from the queue. -/
theorem StoreSound.ofBuildTree {s : State} (h : StoreSound s) {r st} (hb : buildTree s.nodes = some (r, st)) (hc :
    s.nodes.used + s.nodes.queue.length - 1 ≤ s.par.nodeCap) (t : State) (hp : t.par = s.par) (hn : t.nodes =
    st) (hr : t.root = some r) : StoreSound t := by
  obtain ⟨hne, rfl, hq⟩ := buildTree_eq_some hb
  have hl : 0 < s.nodes.queue.length := List.length_pos_iff.2 hne
  have hs := StoreSound.queue_size h
  have hms := mergeLoop_sound s.par h.legal (s.nodes.queue.length - 1) s.nodes ⟨by omega, fun t ht => ⟨h.weights t (by simp [State.heldTrees, ht]), h.symbols t (by simp [State.heldTrees, ht])⟩⟩
  have hsz := mergeLoop_size (s.nodes.queue.length - 1) s.nodes (by omega)
  rw [hq] at hms hsz
  have hr' := hms.2 r (by simp)
  simp at hsz
  exact StoreSound.withRoot h.legal hp (by rw [hn]) hr (by rw [hn]; simp only; omega) (by rw [hn]; simp only; omega) hr'.2 hr'.1

/-- The store after LoadFreq. -/
theorem StoreSound.ofLoadFreq {s : State} (hl : s.par.legal = true) (t : State) (hp : t.par = s.par) (m : Memory) (hn
    : t.nodes = loadFreq s.par m) (hr : t.root = none) : StoreSound t := by
  obtain ⟨h1, h2, h3⟩ := loadFreq_spec s.par m
  have hlen := freqLeaves_length_le s.par m
  have hh : t.heldTrees = (loadFreq s.par m).queue := by unfold State.heldTrees; rw [hn, hr]; simp
  refine ⟨hp ▸ hl, by rw [hn]; exact h3, by rw [hn, hp, h1.length_eq]; exact hlen, ?_, ?_, ?_, ?_⟩
  · rw [hn, hp, h2]; unfold Params.nodeCap; unfold Params.qcap at *; omega
  · rw [hh, hn, h2, (h1.map _).sum_eq]
    rw [freqLeaves_eq]; simp [HuffTree.size, Function.comp_def]
  · rw [hh, hp]
    intro x hx
    have ha := Params.alphSize_bounds hl
    have heos : s.par.eos = s.par.alphSize := rfl
    rw [h1.mem_iff, freqLeaves_eq] at hx
    simp only [List.mem_append, List.mem_map, List.mem_filter, List.mem_range, List.mem_singleton] at hx
    rcases hx with ⟨y, ⟨hy, _⟩, rfl⟩ | rfl <;> simp [HuffTree.symbolsLegal, HuffTree.leaves] <;> omega
  · rw [hh]; intro x hx; exact freqLeaves_exact (h1.mem_iff.1 hx)

/-! ### Control state and session -/

/-- The control state sound, part by part. -/
theorem ControlSound.mkFrom {s t : State} (hs : ControlSound s) (hp : t.par = s.par) (he : (t.err = s.err ∧ t.errOp =
    s.errOp) ∨ (t.err = none ∧ t.errOp = 0) ∨ t.err ≠ none) (hb : t.engine = .idle ∨ (t.engine = s.engine ∧
    t.done = s.done) ∨ t.done = false) (hf : Memory.wf s.par.alphSize t.freq = true) (hc : codeTableWf t.ct =
    true) (hq : t.ports.outPend = [] ∧ t.ports.rest = [] ∧ t.ports.inPos = 0) : ControlSound t := by
  refine ⟨hp ▸ hs.legal, ?_, ?_, hp ▸ hf, hc, hq.1, hq.2⟩
  · intro h
    rcases he with ⟨h1, h2⟩ | ⟨_, h2⟩ | h1
    · rw [h2]; exact hs.errOp (h1 ▸ h)
    · exact h2
    · exact absurd h h1
  · intro h
    rcases hb with h1 | ⟨h1, h2⟩ | h1
    · unfold busy at h; rw [h1] at h; cases h
    · rw [h2]; apply hs.notBoth; unfold busy at *; rw [← h1]; exact h
    · exact h1

/-- The session sound where it was kept or only MEASURED cleared. -/
theorem SessionSound.mkFrom {s t : State} (hs : SessionSound s) (hp : t.par = s.par) (hf : t.freq = s.freq) (hr : t.root
    = s.root) (hc : t.ct = s.ct) (hv : t.ctValid = s.ctValid) (hm : t.measured = false ∨ (t.measured =
    s.measured ∧ t.origBits = s.origBits ∧ t.treeLen = s.treeLen ∧ t.acctBits = s.acctBits ∧ t.savings =
    s.savings ∧ t.hdrFmt = s.hdrFmt)) : SessionSound t := by
  refine ⟨hp ▸ hs.legal, by rw [hp, hf]; exact hs.freqWf, by rw [hv, hr, hc]; exact hs.table, by rw [hv, hc]; exact hs.noTable, ?_⟩
  intro h
  rcases hm with h1 | ⟨h1, h2, h3, h4, h5, h6⟩
  · rw [h1] at h; cases h
  · rw [hv, hp, hf, hr, h2, h3, h4, h5, h6]; exact hs.measured (h1 ▸ h)

/-- The session sound where it was dropped. -/
theorem SessionSound.fresh {s t : State} (hs : SessionSound s) (hp : t.par = s.par) (hf : Memory.wf s.par.alphSize
    t.freq = true) (hc : t.ct = []) (hv : t.ctValid = false) (hm : t.measured = false) : SessionSound t := by
  refine ⟨hp ▸ hs.legal, by rw [hp]; exact hf, (by rw [hv]; intro h; cases h), fun _ => hc, (by rw [hm]; intro h; cases h)⟩

end Sys2Proof.Machine
end

