-- ==== Sys2Proof/Laws/PerInstr.lean ====
section
/-!
SUPPORT. One lemma for each command about its encoding: the word it is written to CMD as has the command's opcode, a
reserved field of 0 and no stray immediate bit, so that R103 calls it well-formed.
-/

namespace Sys2Proof

/-- The command's word is well-formed by R103's three checks and carries the command's opcode (R100 to R103). -/
def Laws.EncodedWord.Statement (i : Instr) : Prop :=
  wellFormed (encode i) = true ∧ Machine.cmdOp (encode i) = i.opcode

/-- The checks of R103 on an encoded word, for any command. -/
theorem wellFormed_encode (i : Instr) : Laws.EncodedWord.Statement i := by
  refine ⟨?_, cmdOp_encode i⟩
  obtain ⟨m, hm, hi⟩ := immMask_opcode i
  simp [wellFormed, illFormed, hm, hi]

theorem Laws.EncodedWord.nop : Laws.EncodedWord.Statement .nop := wellFormed_encode _

theorem Laws.EncodedWord.sessionReset : Laws.EncodedWord.Statement .sessionReset := wellFormed_encode _

theorem Laws.EncodedWord.clearError : Laws.EncodedWord.Statement .clearError := wellFormed_encode _

theorem Laws.EncodedWord.qClear : Laws.EncodedWord.Statement .qClear := wellFormed_encode _

theorem Laws.EncodedWord.qEnqLeaf (sym : Symbol) : Laws.EncodedWord.Statement (.qEnqLeaf sym) := wellFormed_encode _

theorem Laws.EncodedWord.qPeek : Laws.EncodedWord.Statement .qPeek := wellFormed_encode _

theorem Laws.EncodedWord.qDequeue : Laws.EncodedWord.Statement .qDequeue := wellFormed_encode _

theorem Laws.EncodedWord.qMerge : Laws.EncodedWord.Statement .qMerge := wellFormed_encode _

theorem Laws.EncodedWord.qLoadFreq : Laws.EncodedWord.Statement .qLoadFreq := wellFormed_encode _

theorem Laws.EncodedWord.treeBuild : Laws.EncodedWord.Statement .treeBuild := wellFormed_encode _

theorem Laws.EncodedWord.ctDerive : Laws.EncodedWord.Statement .ctDerive := wellFormed_encode _

theorem Laws.EncodedWord.measure (fmt : HdrFmt) : Laws.EncodedWord.Statement (.measure fmt) := wellFormed_encode _

theorem Laws.EncodedWord.compress (force : Bool) : Laws.EncodedWord.Statement (.compress force) := wellFormed_encode _

theorem Laws.EncodedWord.decompress : Laws.EncodedWord.Statement .decompress := wellFormed_encode _

end Sys2Proof
end

