-- ==== Sys2Proof/Tests/Slice0.lean ====
section
/-!
SUPPORT. Tests: the WellFormed checks on ill-formed words, one word written out for each command, one step for each
command with the numbers of spec/95_test_vectors.md, and a witness for the hypotheses of each statement.
-/

namespace Sys2Proof.Machine.Tests

-- One theorem at a time: each waits for the kernel, and many waiting at once take much memory.
set_option Elab.async false

/-! ### Helpers -/

/-- The default machine after reset (W = 8). -/
def r8 : State := State.reset

/-- A machine with W = 1: two normal symbols, EOS = 2, QCAP = 3, NODE_CAP = 5 (R7). -/
def p1 : Params := { Params.default with w := 1 }

/-- The W = 1 machine after reset. -/
def r1 : State := State.resetWith p1

/-- The W = 4 machine of vector WV1 after reset. -/
def r4 : State := State.resetWith { Params.default with w := 4 }

/-- The state a step or a command answers with; reset where it answers with none. -/
def after (o : Host.Outcome State Fault Refusal) : State :=
  match o with
  | .next t => t
  | .fault _ => State.reset
  | .refused _ => State.reset

/-- The bytes the collaborator has seen on OUT. -/
def outBytes (s : State) : List Byte :=
  s.ports.log.filterMap (fun e => match e with
    | .byte b => some b
    | .closeOut => none
    | .closeIn => none)

/-- A leaf. -/
def lf (s w : Nat) : HuffTree := .leaf (BitVec.ofNat 16 s) (BitVec.ofNat 64 w)

/-- An internal node. -/
def nd (w : Nat) (l r : HuffTree) : HuffTree := .node (BitVec.ofNat 64 w) l r

/-- A machine state with a queue and NODES_USED. -/
def withQueue (s : State) (q : List HuffTree) (used : Nat) : State := { s with nodes := { queue := q, used := used } }

/-- The queue of vector QV1. -/
def qv1 : State := withQueue r8 [lf 5 1, lf 2 3, lf 4 3, lf 1 5, lf 3 5] 5

/-- The tree of vector TV1. -/
def tv1 : HuffTree := nd 17 (nd 7 (lf 4 3) (nd 4 (lf 5 1) (lf 2 3))) (nd 10 (lf 1 5) (lf 3 5))

/-! ### WellFormed: an ill-formed word for each check (R103) -/

theorem test_wf_opcode : illFormed 0x03000000#32 = some .undefinedOpcode := by decide

theorem test_wf_reserved : illFormed 0x20010000#32 = some .reservedField := by decide

theorem test_wf_immediate : illFormed 0x10000001#32 = some .strayImmediate := by decide

theorem test_wf_bit_one : illFormed 0x30000002#32 = some .strayImmediate := by decide

theorem test_wf_accepts : (illFormed 0x1100FFFF#32, illFormed 0x30000001#32, illFormed 0x32000000#32) = (none, none, none) := by
  decide

/-! ### Decode: OP, RSV and IMM16 written out from R100 to R102 for each command -/

theorem test_decode_nop : decode (0b00000000#8 ++ 0b00000000#8 ++ 0b0000000000000000#16) = .ok .nop := by decide

theorem test_decode_sessionReset :
    decode (0b00000001#8 ++ 0b00000000#8 ++ 0b0000000000000000#16) = .ok .sessionReset := by decide

theorem test_decode_clearError :
    decode (0b00000010#8 ++ 0b00000000#8 ++ 0b0000000000000000#16) = .ok .clearError := by decide

theorem test_decode_qClear : decode (0b00010000#8 ++ 0b00000000#8 ++ 0b0000000000000000#16) = .ok .qClear := by decide

theorem test_decode_qEnqLeaf :
    decode (0b00010001#8 ++ 0b00000000#8 ++ 0b1000000101000001#16) = .ok (.qEnqLeaf 0x8141#16) := by decide

theorem test_decode_qPeek : decode (0b00010010#8 ++ 0b00000000#8 ++ 0b0000000000000000#16) = .ok .qPeek := by decide

theorem test_decode_qDequeue : decode (0b00010011#8 ++ 0b00000000#8 ++ 0b0000000000000000#16) = .ok .qDequeue := by
  decide

theorem test_decode_qMerge : decode (0b00010100#8 ++ 0b00000000#8 ++ 0b0000000000000000#16) = .ok .qMerge := by decide

theorem test_decode_qLoadFreq : decode (0b00010101#8 ++ 0b00000000#8 ++ 0b0000000000000000#16) = .ok .qLoadFreq := by
  decide

theorem test_decode_treeBuild : decode (0b00010110#8 ++ 0b00000000#8 ++ 0b0000000000000000#16) = .ok .treeBuild := by
  decide

theorem test_decode_ctDerive : decode (0b00100000#8 ++ 0b00000000#8 ++ 0b0000000000000000#16) = .ok .ctDerive := by
  decide

theorem test_decode_measure_counts :
    decode (0b00110000#8 ++ 0b00000000#8 ++ 0b0000000000000000#16) = .ok (.measure .counts) := by decide

theorem test_decode_measure_tree :
    decode (0b00110000#8 ++ 0b00000000#8 ++ 0b0000000000000001#16) = .ok (.measure .tree) := by decide

theorem test_decode_compress :
    decode (0b00110001#8 ++ 0b00000000#8 ++ 0b0000000000000000#16) = .ok (.compress false) := by decide

theorem test_decode_compress_force :
    decode (0b00110001#8 ++ 0b00000000#8 ++ 0b0000000000000001#16) = .ok (.compress true) := by decide

theorem test_decode_decompress : decode (0b00110010#8 ++ 0b00000000#8 ++ 0b0000000000000000#16) = .ok .decompress := by
  decide

/-! ### One step for each command (spec/95_test_vectors.md) -/

/-- KV1, first row. -/
theorem test_nop_status : statusWord (after (exec .nop r8)) = 0x00000002#32 := by decide +kernel

/-- P3, last line: ARG0 is reset, CTRL is kept. -/
theorem test_sessionReset :
    let t := after (exec .sessionReset { r8 with irqEn := true, arg0 := 7, err := some .preconditionViolation, errOp := 0x31 })
    (statusWord t, t.arg0, t.irqEn) = (0x00000202#32, 0#32, true) := by decide +kernel

/-- KV1, fourth row. -/
theorem test_clearError :
    statusWord (after (exec .clearError { r8 with err := some .emptyQueue, errOp := 0x12, dropped := true, done := true }))
      = 0x00000002#32 := by decide +kernel

/-- QV4, last row. -/
theorem test_qClear : (after (exec .qClear qv1)).nodes = { queue := [], used := 0 } := by decide +kernel

/-- QV1, third line: behind the node of equal weight. -/
theorem test_qEnqLeaf_tie :
    let t := after (exec (.qEnqLeaf 3) { withQueue r8 [lf 2 3, lf 1 5] 2 with arg0 := 5 })
    (t.nodes.queue, t.result0) = ([lf 2 3, lf 1 5, lf 3 5], 3#32) := by decide +kernel

/-- QV4: a symbol above EOS is BAD_ARGUMENT. -/
theorem test_qEnqLeaf_symbol :
    statusWord (after (exec (.qEnqLeaf 0x101) { r8 with arg0 := 1 })) = 0x11150006#32 := by decide +kernel

/-- QV2. -/
theorem test_qPeek :
    let t := after (exec .qPeek qv1)
    (t.result0, t.result1, t.result2, t.nodes.queue.length) = (1#32, 0#32, 0x80000005#32, 5) := by decide +kernel

/-- KV1, second row. -/
theorem test_qPeek_empty : statusWord (after (exec .qPeek r8)) = 0x12010006#32 := by decide +kernel

/-- QV2: NODES_USED stays 5. -/
theorem test_qDequeue :
    let t := after (exec .qDequeue qv1)
    (t.result0, t.result2, t.nodes.queue.length, t.nodes.used) = (1#32, 0x80000005#32, 4, 5) := by decide +kernel

/-- TV1, first line. -/
theorem test_qMerge :
    let t := after (exec .qMerge qv1)
    (t.nodes.queue, t.result0, t.result2) = ([lf 4 3, nd 4 (lf 5 1) (lf 2 3), lf 1 5, lf 3 5], 4#32, 0#32) := by
  decide +kernel

/-- TV2: with one node queued EMPTY_QUEUE, and the node stays. -/
theorem test_qMerge_single :
    let t := after (exec .qMerge (withQueue r8 [lf 1 5] 1))
    (t.err, t.nodes.queue) = (some .emptyQueue, [lf 1 5]) := by decide +kernel

/-- TV3. -/
theorem test_qLoadFreq_zero :
    let t := after (exec .qLoadFreq r8)
    (t.nodes.queue, t.result0) = ([lf 256 1], 1#32) := by decide +kernel

/-- TV1, last line. -/
theorem test_treeBuild :
    let t := after (exec .treeBuild qv1)
    (t.root, t.result0, t.result2, t.nodes.queue, t.nodes.used) = (some tv1, 17#32, 0#32, [], 9) := by decide +kernel

/-- TV6: 258 + 256 > 513; here with two nodes and a full store. -/
theorem test_treeBuild_capacity :
    (after (exec .treeBuild (withQueue r8 [lf 1 1, lf 2 1] 513))).err = some .capacity := by decide +kernel

/-- CV2. -/
theorem test_ctDerive :
    let t := after (exec .ctDerive { r8 with root := some tv1 })
    (t.result0, t.result1, codeGet t.ct 5, codeGet t.ct 2, codeGet t.ct 3)
      = (5#32, 3#32, some [false, true, false], some [false, true, true], some [true, true]) := by decide +kernel

/-- CV4: of two leaves of one symbol the last visited gives the code. -/
theorem test_ctDerive_duplicates :
    codeGet (after (exec .ctDerive { r8 with root := some (nd 2 (lf 0x41 1) (lf 0x41 1)) })).ct 0x41 = some [true] := by
  decide +kernel

/-- EV1: the input "A", format TREE. -/
theorem test_measure_A :
    let t := after (exec (.measure .tree) { r8 with supplies := [[0x41]] })
    (statusWord t, t.result0, t.result1, t.treeLen, t.acctBits, t.nodes.used)
      = (0x0000007A#32, 0xFFFFFF91#32, 0xFFFFFFFF#32, 21#32, 119#64, 3) := by decide +kernel

/-- WV1: two symbols in one byte at W = 4. -/
theorem test_measure_w4 :
    let t := after (exec (.measure .tree) { r4 with supplies := [[0x12]] })
    (t.root, t.origBits, t.acctBits) = (some (nd 3 (lf 16 1) (nd 2 (lf 1 1) (lf 2 1))), 8#64, 121#64) := by
  decide +kernel

/-- The session of EV1, as MEASURE leaves it. -/
def ev1 : State := after (exec (.measure .tree) { r8 with supplies := [[0x41]] })

/-- EV3. -/
theorem test_compress_force :
    let t := after (exec (.compress true) { ev1 with supplies := [[0x41]] })
    (outBytes t, t.result0, t.ports.inBits)
      = ([0xFA, 0xCE, 0x82, 0x00, 0x74, 0x72, 0x65, 0x65, 0x00, 0x00, 0x00, 0x15, 0x48, 0x38, 0x02], 119#32, 8#64) := by
  decide +kernel

/-- EV8, second part: NO_CODE after 117 header bits. -/
theorem test_compress_noCode :
    let t := after (exec (.compress true) { ev1 with supplies := [[0x42]] })
    (t.err, outBytes t, t.ports.bitsWritten)
      = (some .noCode,
        [0xFA, 0xCE, 0x82, 0x00, 0x74, 0x72, 0x65, 0x65, 0x00, 0x00, 0x00, 0x15, 0x48, 0x38, 0x00], 117#64) := by
  decide +kernel

/-- DV1: the length field 22 beside a tree of 21 bits. -/
theorem test_decompress_mismatch :
    let t := after (exec .decompress { r8 with
      supplies := [[0xFA, 0xCE, 0x82, 0x00, 0x74, 0x72, 0x65, 0x65, 0x00, 0x00, 0x00, 0x16, 0x48, 0x38, 0x02]] })
    (outBytes t, t.err, t.tlenMismatch, t.ports.inBits) = ([0x41], none, true, 119#64) := by decide +kernel

/-- DV1: leaf value 0x1FF above EOS is MALFORMED_TREE, TREE_LEN holds the field. -/
theorem test_decompress_malformed :
    let t := after (exec .decompress { r8 with
      supplies := [[0xFA, 0xCE, 0x82, 0x00, 0x74, 0x72, 0x65, 0x65, 0x00, 0x00, 0x00, 0x0A, 0xFF, 0xC0]] })
    (t.err, outBytes t, t.treeLen, t.ports.inBits) = (some .malformedTree, [], 10#32, 106#64) := by decide +kernel

/-- DV1, last row: a tree with no EOS leaf decodes until the supply ends. -/
theorem test_decompress_truncated :
    let t := after (exec .decompress { r8 with
      supplies := [[0xFA, 0xCE, 0x82, 0x00, 0x74, 0x72, 0x65, 0x65, 0x00, 0x00, 0x00, 0x15, 0x48, 0x32, 0x12]] })
    (t.err, outBytes t, t.ports.inBits) = (some .truncatedStream, [0x41, 0x42, 0x41], 120#64) := by decide +kernel

/-! ### The host's side -/

/-- R107: a WAIT on a stream command whose supply is not there polls again after the engine's turn. -/
theorem test_wait_polls :
    let s := { r8 with engine := .busy .decompress, script := [.wait] }
    (after (step (after (step s)))).script = [.wait] := rfl

/-- KV1, third row: Q_CLEAR while an error is pending is dropped. -/
theorem test_dropped :
    statusWord (memWrite 0x010 0x10000000 { r8 with err := some .emptyQueue, errOp := 0x12, done := true })
      = 0x12010086#32 := by decide +kernel

/-- CV1: CT_SEL = 0x44 selects the code 1111 of D. -/
theorem test_window :
    let s := { r8 with ct := [(0x44, [true, true, true, true])], ctValid := true, ctSel := 0x44 }
    (regValue s (regAt s.par 0x068), regValue s (regAt s.par 0x080)) = (0x80000004#32, 0xF0000000#32) := by
  decide +kernel

/-- A FREQ write ends the session (R40, R71). -/
theorem test_write_freq :
    let t := memWrite 0x504 1 { ev1 with freq := [] }
    (t.freq, t.measured) = ([(0x41, 1#32)], false) := by decide +kernel

/-- The bit order of the ports (R73, R76): reading 4 bits of 0x12 gives 1. -/
theorem test_readBits : (readBits 4 (openSupply [0x12] Ports.reset)).1 = some 1 := by decide

/-- A placed word is the next step's command, as the first step after reset. -/
theorem test_fetch_word :
    step (State.reset.withFetchWord 32 0x32000000)
      = exec .decompress { State.reset with engine := .busy .decompress, supplies := [[]] } := rfl

/-- A placed ill-formed word raises ILLEGAL_COMMAND in the next step (KV1). -/
theorem test_fetch_illegal : statusWord (after (step (State.reset.withFetchWord 32 0x33000000))) = 0x33140006#32 := by
  decide +kernel

/-- FREQ is in canonical form after reset. -/
theorem test_reset_memory : Memory.wf State.reset.par.alphSize State.reset.freq = true := by decide

/-! ### Witnesses: each statement with hypotheses, and each of its clauses, has a case that meets them

Each theorem lists the hypotheses of the statement it names on concrete values. -/

/-- An idle machine with an error pending. -/
def failed : State := { r8 with err := some .emptyQueue, errOp := 0x12, done := true }

/-- A machine with a pending command. -/
def pending (i : Instr) (s : State) : State := { s with engine := .busy i }

theorem witness_CommandWordsDecode :
    (0x33000000#32).extractLsb' 24 8 ∉ [0x00#8, 0x01#8, 0x02#8, 0x10#8, 0x11#8, 0x12#8, 0x13#8, 0x14#8, 0x15#8, 0x16#8,
      0x20#8, 0x30#8, 0x31#8, 0x32#8] ∧ decode 0x33000000#32 = .error .undefinedOpcode := by decide

theorem witness_EncodeOfDecode : decode 0x1100FFFF#32 = .ok (.qEnqLeaf 0xFFFF) ∧ encode (.qEnqLeaf 0xFFFF) = 0x1100FFFF#32 := by
  decide

theorem witness_IllFormedWords_raise :
    decode 0x30000002#32 = .error .strayImmediate ∧ busy r8 = false ∧ r8.err = none := by decide

theorem witness_IllFormedWords_drop :
    decode 0x32010000#32 = .error .reservedField ∧ busy failed = false ∧ failed.err = some .emptyQueue := by decide

/-- The first symbol above EOS. -/
theorem witness_IllFormedWords_symbol : (0x0101#16).toNat > r8.par.eos ∧ ¬ (0x0100#16).toNat > r8.par.eos := by decide

theorem witness_OpcodeTableAgrees :
    decode 0x31000001#32 = .ok (.compress true) ∧ decode 0x31000002#32 = .error .strayImmediate := by decide

theorem witness_PresentedCommand :
    busy r8 = false ∧ busy failed = false ∧ (pending .qPeek r8).engine = .busy .qPeek ∧ (pending .qPeek r8).script = [] := by
  decide

/-- A well-formed word of no error, and a control word of a pending error. -/
theorem witness_PendingCommandRuns :
    (busy r8 = false ∧ decode 0x12000000#32 = .ok .qPeek ∧ r8.err = none
      ∧ ({ r8 with script := [.write 0x010 0x12000000, .engine] } : State).script
          = .write (r8.par.htbBase + 0x010) 0x12000000 :: .engine :: [])
    ∧ (busy failed = false ∧ decode 0x02000000#32 = .ok .clearError
      ∧ 0x02000000#32 ∈ [0x00000000#32, 0x01000000#32, 0x02000000#32]) := by decide

/-- The register before CMD and the one behind it are outside the CMD clause. -/
theorem witness_ErrorLatch :
    busy failed = false ∧ failed.err = some .emptyQueue
      ∧ 0x00000001#32 ∉ [0x00000000#32, 0x01000000#32, 0x02000000#32]
      ∧ (0x00F#12).toNat / 4 ≠ 4 ∧ (0x014#12).toNat / 4 ≠ 4 := by decide

theorem witness_BusyHostSteps_read :
    let s := { pending .qPeek r8 with script := [.read 0x024] }
    busy s = true ∧ s.script = .read 0x024 :: [] ∧ step s = .next (after (step s)) := ⟨rfl, rfl, rfl⟩

theorem witness_BusyHostSteps_write :
    let s := { pending .qPeek r8 with script := [.write 0x014 7] }
    busy s = true ∧ step s = .next (after (step s)) ∧ (after (step s)).arg0 = 0 ∧ (after (step s)).dropped = true :=
  ⟨rfl, rfl, rfl, rfl⟩

theorem witness_BusyHostSteps_supply :
    let s := { pending .decompress r8 with script := [.supply [0x41]] }
    busy s = true ∧ step s = .next (after (step s)) ∧ (after (step s)).supplies = [[0x41]] := ⟨rfl, rfl, rfl⟩

/-- WAIT while Q_PEEK is pending and while nothing is. -/
theorem witness_BusyHostSteps_wait :
    busy (pending .qPeek r8) = true ∧ busy r8 = false
      ∧ (after (step { pending .qPeek r8 with script := [.wait] })).script = [.engine, .wait]
      ∧ (after (step { r8 with script := [.wait] })).script = [] := ⟨rfl, rfl, rfl, rfl⟩

/-- A reserved word and CMD, a register that changes while BUSY, and one that does not; the first and the last FREQ
word; the word behind FREQ at W = 4. -/
theorem witness_HostAccessEffects :
    regAt r8.par 0x06C = .reserved ∧ regAt r8.par 0x010 = .cmd
      ∧ (busy (pending .qPeek r8) = true ∧ regAt r8.par 0x024 = .qsize)
      ∧ (busy (pending .qPeek r8) = true ∧ regAt r8.par 0x00C = .status) ∧ busy r8 = false
      ∧ regAt r8.par (BitVec.ofNat 12 (0x400 + 4 * 0)) = .freq 0 ∧ 255 < 256 ∧ 255 < r8.par.alphSize
      ∧ regAt r4.par 0x440 = .reserved := by decide

/-- A machine whose HTB_BASE is 0x10000. -/
def based : State := State.resetWith { Params.default with htbBase := 0x10000 }

/-- The first and the last address of the block, and the ones before and behind it; a supply presented while idle. -/
theorem witness_HostAccessEffects_events :
    (let s := { based with script := [.read 0x10000] }
     s.script = .read (s.par.htbBase + (0x000#12).toNat) :: [] ∧ (after (step s)).reads = [0x48544231#32])
    ∧ (let s := { based with script := [.write 0x10FFF 1] }
       s.script = .write (s.par.htbBase + (0xFFF#12).toNat) 1 :: [])
    ∧ (let s := { based with script := [.write 0x10014 7] }
       s.script = .write (s.par.htbBase + (0x014#12).toNat) 7 :: [] ∧ (after (step s)).arg0 = 7)
    ∧ 0x0FFFF < based.par.htbBase ∧ based.par.htbBase + 4096 ≤ 0x11000
    ∧ (after (step { r8 with script := [.supply [0x41]], supplies := [[0x40]] })).supplies = [[0x40], [0x41]] := by
  decide +kernel

/-- The ends of the reserved ranges; the last CT_BITS word; the last FREQ word at W = 8, and the first word behind FREQ
at W = 4. -/
theorem witness_RegisterMapAtReset :
    regAt r8.par 0x06C = .reserved ∧ regAt r8.par 0x07F = .reserved ∧ regAt r8.par 0x080 = .ctBits 0
      ∧ regAt r8.par 0x3FF = .reserved ∧ regAt r8.par 0x400 = .freq 0 ∧ regAt r8.par 0x800 = .reserved
      ∧ regAt r8.par 0xFFC = .reserved ∧ regAt r8.par 0x09C = .ctBits 7 ∧ regAt r8.par 0x0A0 = .reserved ∧ regAt r8.par 0x7FC = .freq 255
      ∧ regAt r4.par 0x43C = .freq 15 ∧ regAt r4.par 0x440 = .reserved := by decide

/-- The first and the last code of R320. -/
theorem witness_StatusWordFields :
    failed.err = some .emptyQueue ∧ ({ failed with err := some .badArgument } : State).err = some .badArgument := by decide

/-- The window at the last symbol EOS, above it, and on a symbol without a code. -/
theorem witness_CodeTableWindow :
    (let s := { r8 with ctSel := 256, ct := [(256, [true, false])] }
     s.ctSel.toNat ≤ s.par.eos ∧ codeGet s.ct s.ctSel.toNat = some [true, false])
    ∧ ({ r8 with ctSel := 257 } : State).ctSel.toNat > r8.par.eos
    ∧ codeGet ({ r8 with ctSel := 0 } : State).ct 0 = none ∧ busy r8 = false := by decide

theorem witness_InterruptLine :
    busy r8 = false ∧ r8.err = none ∧ decode 0x00000000#32 = .ok .nop ∧ decode 0x33000000#32 = .error .undefinedOpcode
      ∧ busy failed = false ∧ failed.err = some .emptyQueue
      ∧ 0x10000000#32 ∉ [0x00000000#32, 0x01000000#32, 0x02000000#32] := by decide

/-- The tree and the codes of EV1. -/
def ev1Tree : HuffTree := nd 2 (lf 65 1) (lf 256 1)

/-- A measured session of "A" in the form the COMPRESS clauses ask for. -/
def ev1State (savings : Counter) (bs : List (List Byte)) : State :=
  { r8 with
    measured := true, root := some ev1Tree, ct := [(65, [false]), (256, [true])], ctValid := true,
    hdrFmt := .tree, freq := [(65, 1#32)], savings := savings, supplies := bs }

/-- EV1 with COMPRESS FORCE pending: its supply is there, or it waits with its header written. -/
def rstState (sent : Nat) (bs : List (List Byte)) : State :=
  { pending (.compress true) (ev1State 0 bs) with script := [.rst sent] }

/-- RST in the middle of COMPRESS FORCE of EV1 (EV3's stream of 15 bytes): the first byte, and every whole byte (the
last is partial). -/
theorem witness_HardwareReset_compress :
    (rstState 1 [[0x41]]).script = .rst 1 :: [] ∧ (rstState 1 [[0x41]]).ports.outPend = []
      ∧ outBytes (after (step (rstState 1 [[0x41]]))) = [0xFA] ∧ (after (step (rstState 1 [[0x41]]))).supplies = []
      ∧ outBytes (after (step (rstState 99 [[0x41]])))
          = [0xFA, 0xCE, 0x82, 0x00, 0x74, 0x72, 0x65, 0x65, 0x00, 0x00, 0x00, 0x15, 0x48, 0x38] := by decide +kernel

/-- RST in the middle of MEASURE: its supply is gone and nothing was sent; and of DECOMPRESS of DV1's first row behind
magic and tag, with one byte decoded. -/
theorem witness_HardwareReset_measure_decompress :
    let b : List Byte := [0xFA, 0xCE, 0x82, 0x00, 0x74, 0x72, 0x65, 0x65, 0x00, 0x00, 0x00, 0x16, 0x48, 0x38, 0x02]
    let s := { pending (.measure .tree) r8 with script := [.rst 5], supplies := [[0x41], [0x42]] }
    let t := { pending .decompress r8 with script := [.rst 5], supplies := [b] }
    s.ports.outPend = [] ∧ s.supplies ≠ [] ∧ outBytes (after (step s)) = [] ∧ (after (step s)).supplies = [[0x42]]
      ∧ t.ports.outPend = [] ∧ t.supplies ≠ [] ∧ outBytes (after (step t)) = [0x41] ∧ (after (step t)).supplies = [] := by
  decide +kernel

/-- While COMPRESS waits for its supply the header is all it has written: 117 bits, 14 whole bytes. -/
theorem witness_HardwareReset_wait :
    (rstState 99 []).supplies = [] ∧ (rstState 99 []).root = some ev1Tree
      ∧ (headerString r8.par .tree [(65, 1#32)] ev1Tree).length = 117
      ∧ (outBytes (after (step (rstState 99 [])))).length = 14 := by decide +kernel

/-- A COMPRESS that is to write nothing, a DECOMPRESS without a supply, and an idle machine have sent nothing. -/
theorem witness_HardwareReset_nothing :
    outBytes (after (step { pending (.compress true) r8 with script := [.rst 9], supplies := [[0x41]] })) = []
      ∧ outBytes (after (step { pending (.compress false) (ev1State 0 [[0x41]]) with script := [.rst 9] })) = []
      ∧ outBytes (after (step { pending .decompress r8 with script := [.rst 9] })) = []
      ∧ outBytes (after (step { r8 with script := [.rst 9] })) = [] := by decide +kernel

theorem witness_NopCommand :
    busy r8 = false ∧ (0x00000001#32).extractLsb' 24 8 = 0x00#8 ∧ 0x00000001#32 ≠ 0x00000000#32 := by decide

theorem witness_SessionResetCommand_ClearErrorCommand : busy failed = false := by decide

theorem witness_QPeek_QDequeue :
    r8.nodes.queue = [] ∧ qv1.nodes.queue = lf 5 1 :: [lf 2 3, lf 4 3, lf 1 5, lf 3 5] := by decide

/-- At W = 1: no count, and every count. -/
theorem witness_QLoadFreq :
    (∀ x, x < p1.alphSize → freqGet [] x = 0) ∧ (∀ x, x < p1.alphSize → freqGet [(0, 1#32), (1, 7#32)] x ≠ 0)
      ∧ (loadFreq p1 [(0, 1#32), (1, 7#32)]).queue = [lf 0 1, lf 2 1, lf 1 7] := by decide +kernel

/-- One node is too few, two are enough. -/
theorem witness_QMerge :
    (withQueue r8 [lf 1 5] 1).nodes.queue.length < 2
      ∧ (withQueue r8 [lf 1 5, lf 2 6] 2).nodes.queue = lf 1 5 :: lf 2 6 :: [] := by decide

/-- QV1's queue is sorted, and enqueuing weight 3 puts the node before the fives (R131). -/
theorem witness_EnqueuePosition :
    queueSorted qv1.nodes.queue
      ∧ enqueue (lf 9 3) qv1.nodes.queue = [lf 5 1, lf 2 3, lf 4 3, lf 9 3, lf 1 5, lf 3 5] := by
  unfold queueSorted; decide +kernel

theorem witness_FifoAmongTies :
    queueSorted qv1.nodes.queue
      ∧ dequeue qv1.nodes = some (lf 5 1, { queue := [lf 2 3, lf 4 3, lf 1 5, lf 3 5], used := 5 }) := by
  unfold queueSorted; decide +kernel

/-- At W = 1 (NODE_CAP = 5): two nodes queued with 4 used are at the capacity, with 5 above it. -/
theorem witness_TreeBuild :
    (withQueue r1 [lf 0 1, lf 1 1] 4).nodes.queue ≠ [] ∧ 4 + 2 - 1 ≤ r1.par.nodeCap
      ∧ (withQueue r1 [lf 0 1, lf 1 1] 5).nodes.queue ≠ [] ∧ 5 + 2 - 1 > r1.par.nodeCap ∧ r1.nodes.queue = []
      ∧ (withQueue r1 [lf 0 1] 5).nodes.queue = [lf 0 1] ∧ (withQueue r1 [lf 0 1] 5).nodes.used ≤ r1.par.nodeCap := by
  decide

theorem witness_BuildTreeFromQueue : qv1.nodes.queue ≠ [] := by decide

theorem witness_TreeFromFrequencies : r8.par.legal = true ∧ r1.par.legal = true := by decide

theorem witness_CtDerive : r8.root = none ∧ ({ r8 with root := some tv1 } : State).root = some tv1 := ⟨rfl, rfl⟩

theorem witness_CodesPrefixFree :
    codeGet (deriveCodes tv1) 4 = some [false, false] ∧ codeGet (deriveCodes tv1) 5 = some [false, true, false]
      ∧ (4 : Nat) ≠ 5 ∧ 2 ≤ tv1.leafCount ∧ (tv1.leaves.map (fun e => e.1.toNat)).Nodup := by decide +kernel

/-- A sound store: two nodes queued, a tree at ROOT, a merge pending. -/
def storeState : State :=
  { withQueue (pending .qMerge r8) [lf 1 1, lf 2 1] 7 with root := some (nd 5 (lf 256 1) (lf 65 4)) }

theorem witness_StoreSound : StoreSound storeState :=
  ⟨by decide, by unfold queueSorted; decide, by decide, by decide, by decide, by decide, by decide⟩

theorem witness_CodeLengthBound : StoreSound storeState ∧ storeState.root = some (nd 5 (lf 256 1) (lf 65 4)) :=
  ⟨witness_StoreSound, rfl⟩

theorem witness_StepKeepsStoreSound : StoreSound storeState ∧ step storeState = .next (after (step storeState)) :=
  ⟨witness_StoreSound, rfl⟩

/-- The EOS-only tree and a two-leaf tree at the full store of W = 1. -/
theorem witness_TreePayloadRoundTrip :
    let t := nd 2 (lf 0 1) (lf 2 1)
    p1.legal = true ∧ t.symbolsLegal p1 = true ∧ 2 + t.size ≤ p1.nodeCap ∧ t.depth < 2
      ∧ ({ Ports.reset with rest := treeString p1 t ++ [true] } : Ports).rest = treeString p1 t ++ [true] := by decide

theorem witness_CountsPayloadRoundTrip :
    Memory.wf p1.alphSize [(1, 5#32)] = true
      ∧ ({ Ports.reset with rest := countsString p1 [(1, 5#32)] ++ [true] } : Ports).rest
          = countsString p1 [(1, 5#32)] ++ [true] := by decide

/-- Seven, eight and nine bits: one, one and two bytes. -/
theorem witness_BitPacking :
    Ports.reset.outPend = [] ∧ packBytes (List.replicate 7 true) = [0xFE] ∧ packBytes (List.replicate 8 true) = [0xFF]
      ∧ packBytes (List.replicate 9 true) = [0xFF, 0x80] := by decide

theorem witness_StreamCommandsClosePorts :
    let s := { r1 with supplies := [[0x40]] }
    (Instr.measure .tree).isStream = true ∧ exec (.measure .tree) s = .next (after (exec (.measure .tree) s))
      ∧ after (exec (.measure .tree) s) ≠ s ∧ s.ports.outPend = [] :=
  ⟨rfl, rfl, fun h => absurd (congrArg State.done h) (by decide), rfl⟩

/-- SAVINGS just above 0, and FORCE. -/
theorem witness_StreamCommandsWaitForSupply :
    let s := { r8 with measured := true, savings := 1 }
    s.supplies = [] ∧ s.measured = true ∧ (0 < s.savings.toInt ∨ false = true) ∧ (0 < r8.savings.toInt ∨ true = true) := by
  decide

theorem witness_MeasureCommand :
    let s := { r8 with supplies := [[0x41]] }
    s.par.legal = true ∧ s.supplies = [0x41] :: [] ∧ ∀ u, (inputSymbols s.par [0x41]).count u < 2 ^ 32 := by
  refine ⟨by decide, rfl, fun u => lt_of_le_of_lt List.count_le_length ?_⟩
  rw [inputSymbols_length]
  decide

/-- 2^32 copies of one byte at W = 8. -/
theorem witness_MeasureCommand_overflow :
    let b : List Byte := List.replicate (2 ^ 32 - 1 + 1) 0x41#8
    let s := { r8 with supplies := [b] }
    s.par.legal = true ∧ s.supplies = b :: []
      ∧ inputSymbols s.par b = List.replicate (2 ^ 32 - 1) 0x41 ++ 0x41 :: []
      ∧ (∀ v, (List.replicate (2 ^ 32 - 1) 0x41).count v < 2 ^ 32)
      ∧ (List.replicate (2 ^ 32 - 1) 0x41).count 0x41 = 2 ^ 32 - 1 := by
  refine ⟨by decide, rfl, ?_, fun v => lt_of_le_of_lt List.count_le_length ?_, ?_⟩
  · rw [inputSymbols_w8 rfl, List.map_replicate, List.replicate_succ']
    rfl
  · rw [List.length_replicate]; omega
  · exact List.count_replicate_self

theorem witness_CompressCommand_unmeasured : r8.ports.outPend = [] ∧ r8.measured = false := by decide

/-- SAVINGS 0 is not enough. -/
theorem witness_CompressCommand_noSavings :
    (ev1State 0 [[0x41]]).ports.outPend = [] ∧ (ev1State 0 [[0x41]]).measured = true
      ∧ ¬ 0 < (ev1State 0 [[0x41]]).savings.toInt := by decide

/-- SAVINGS 1 is. -/
theorem witness_CompressCommand_stream :
    let s := ev1State 1 [[0x41]]
    s.par.legal = true ∧ s.ports.outPend = [] ∧ s.measured = true ∧ (0 < s.savings.toInt ∨ false = true)
      ∧ s.root = some ev1Tree ∧ s.supplies = [0x41] :: [] ∧ ∀ u ∈ inputSymbols s.par [0x41], codeGet s.ct u ≠ none := by
  decide +kernel

/-- The second symbol, "B", has no code. -/
theorem witness_CompressCommand_noCode :
    let s := ev1State 0 [[0x41, 0x42]]
    s.par.legal = true ∧ s.ports.outPend = [] ∧ s.measured = true ∧ (0 < s.savings.toInt ∨ true = true)
      ∧ s.root = some ev1Tree ∧ s.supplies = [0x41, 0x42] :: []
      ∧ inputSymbols s.par [0x41, 0x42] = [0x41] ++ 0x42 :: []
      ∧ (∀ v ∈ [0x41], codeGet s.ct v ≠ none) ∧ codeGet s.ct 0x42 = none := by decide +kernel

theorem witness_WrittenEqualsAccounted_RoundTrip :
    let s := { r8 with supplies := [[0x41], [0x41]] }
    s.par.legal = true ∧ s.ports.outPend = [] ∧ s.err = none ∧ s.supplies = [0x41] :: [0x41] :: []
      ∧ ∀ u, (inputSymbols s.par [0x41]).count u < 2 ^ 32 := by
  refine ⟨by decide, rfl, rfl, rfl, fun u => lt_of_le_of_lt List.count_le_length ?_⟩
  rw [inputSymbols_length]
  decide

/-- N = 2, and the first N for which plain COMPRESS writes. -/
theorem witness_SkewedInput :
    r8.par.legal = true ∧ r8.par.w = 8 ∧ r8.ports.outPend = [] ∧ 2 ≤ 2 ∧ 2 < 2 ^ 32 ∧ 17 < 2 ^ 32
      ∧ ({ r8 with supplies := [[0x41, 0x41], [0x41, 0x41]] } : State).supplies
          = List.replicate 2 0x41 :: List.replicate 2 0x41 :: [] := by decide

/-- DV1's row with the length field 22, decoded as "A" and then EOS. -/
theorem witness_DecompressTreeStream :
    let b : List Byte := [0xFA, 0xCE, 0x82, 0x00, 0x74, 0x72, 0x65, 0x65, 0x00, 0x00, 0x00, 0x16, 0x48, 0x38, 0x02]
    let s := { r8 with supplies := [b] }
    s.par.legal = true ∧ s.ports.outPend = [] ∧ s.supplies = b :: [] ∧ ev1Tree.symbolsLegal s.par = true
      ∧ ev1Tree.size ≤ s.par.nodeCap ∧ 22 < 2 ^ 32 ∧ (∀ x ∈ [65], x ≠ s.par.eos)
      ∧ [[false]].map ev1Tree.follow = [65].map some ∧ ev1Tree.follow [true] = some s.par.eos
      ∧ supplyBits b = bitsMsb 32 s.par.magic.toNat ++ bitsMsb 32 s.par.tagTree.toNat ++ bitsMsb 32 22
          ++ treeString s.par ev1Tree ++ [[false]].flatten ++ [true] ++ [false] := by decide +kernel

/-- The bytes of the magic number and TAG_TREE. -/
def treeHead : List Byte := [0xFA, 0xCE, 0x82, 0x00, 0x74, 0x72, 0x65, 0x65]

/-- At W = 1 the bits of `treeHead` and of a length field 9. -/
def treeHeadBits : List Bool := bitsMsb 32 p1.magic.toNat ++ bitsMsb 32 p1.tagTree.toNat ++ bitsMsb 32 9

/-- The bits of `treeHead`, a length field 9 and more bytes. -/
def treeSupply (more : List Byte) : List Bool := supplyBits (treeHead ++ [0, 0, 0, 9] ++ more)

/-- What the TREE error clauses share, at W = 1: VW = 2, EOS = 2, NODE_CAP = 5. -/
theorem witness_DecompressTree_common :
    p1.legal = true ∧ r1.ports.outPend = [] ∧ 9 < 2 ^ 32 ∧ p1.vw = 2 ∧ p1.eos = 2 ∧ p1.nodeCap = 5
      ∧ ({ r1 with supplies := [treeHead] } : State).supplies = treeHead :: [] := by decide

/-- No bit and 24 bits of the length field. -/
theorem witness_DecompressTree_field :
    supplyBits treeHead = bitsMsb 32 p1.magic.toNat ++ bitsMsb 32 p1.tagTree.toNat ++ []
      ∧ supplyBits (treeHead ++ [0, 0, 0])
          = bitsMsb 32 p1.magic.toNat ++ bitsMsb 32 p1.tagTree.toNat ++ List.replicate 24 false
      ∧ (List.replicate 24 false).length < 32 := by decide +kernel

/-- The place behind two finished left children of symbol 1. -/
def placeRight : ParsePlace := [some (lf 1 0), some (lf 1 0)]

/-- The place in the right child of the third internal node down: four nodes. -/
def placeFour : ParsePlace := [none, none, some (lf 0 0)]

/-- One internal node more: the store of W = 1 is full. -/
def placeFull : ParsePlace := [none, none, none, some (lf 0 0)]

/-- The supply ends before the root, before a node below it, and in a leaf's value behind one bit and behind none. -/
theorem witness_DecompressTree_truncated :
    (treeSupply [] = treeHeadBits ++ ParsePlace.bits p1 [] ++ [] ∧ ParsePlace.legal p1 [] = true)
    ∧ (treeSupply [0x55] = treeHeadBits ++ placeRight.bits p1 ++ [] ∧ placeRight.legal p1 = true
      ∧ placeRight.nodes ≤ p1.nodeCap)
    ∧ (treeSupply [0x12] = treeHeadBits ++ placeFour.bits p1 ++ true :: [false] ∧ placeFour.legal p1 = true
      ∧ placeFour.nodes ≤ p1.nodeCap)
    ∧ (treeSupply [0x09] = treeHeadBits ++ placeFull.bits p1 ++ true :: [] ∧ placeFull.legal p1 = true
      ∧ placeFull.nodes = p1.nodeCap) := by decide +kernel

/-- Leaf value 3, the first above EOS, at the root. -/
theorem witness_DecompressTree_value :
    treeSupply [0xE0] = treeHeadBits ++ ParsePlace.bits p1 [] ++ (true :: bitsMsb p1.vw 3 ++ List.replicate 5 false)
      ∧ p1.eos < 3 ∧ 3 < 2 ^ p1.vw := by decide +kernel

/-- A leaf of EOS, the last legal value, and an internal node, each with the store full. -/
theorem witness_DecompressTree_full :
    treeSupply [0x09, 0x80] = treeHeadBits ++ placeFull.bits p1 ++ (true :: bitsMsb p1.vw 2 ++ List.replicate 6 false)
      ∧ 2 ≤ p1.eos ∧ treeSupply [0x08] = treeHeadBits ++ placeFull.bits p1 ++ false :: []
      ∧ placeFull.nodes = p1.nodeCap := by decide +kernel

/-- A root that is a leaf of symbol 1, the last below EOS. -/
theorem witness_DecompressTree_leafRoot :
    treeSupply [0xA0] = treeHeadBits ++ true :: bitsMsb p1.vw 1 ++ List.replicate 5 false ∧ 1 < p1.eos := by
  decide +kernel

/-- Symbols 0 and 1, then one bit of a walk that needs two. -/
theorem witness_DecompressTree_walk :
    let t := nd 0 (nd 0 (lf 0 0) (lf 1 0)) (lf 2 0)
    t.symbolsLegal p1 = true ∧ t.size ≤ p1.nodeCap ∧ (∀ x ∈ [0, 1], x ≠ p1.eos)
      ∧ [[false, false], [false, true]].map t.follow = [0, 1].map some ∧ t.leadsInside [false] = true
      ∧ treeSupply [0x25, 0xC2] = treeHeadBits ++ treeString p1 t ++ [[false, false], [false, true]].flatten ++ [false] := by
  decide +kernel

/-- At W = 1: counts 0 and 1, then the code of symbol 1 and of EOS. -/
theorem witness_DecompressCountsStream :
    let b : List Byte := [0xFA, 0xCE, 0x82, 0x00, 0x63, 0x74, 0x20, 0x20, 0, 0, 0, 0, 0, 0, 0, 1, 0x40]
    let s := { r1 with supplies := [b] }
    let t := nd 2 (lf 1 1) (lf 2 1)
    s.par.legal = true ∧ s.ports.outPend = [] ∧ s.supplies = b :: [] ∧ Memory.wf s.par.alphSize [(1, 1#32)] = true
      ∧ buildTree (loadFreq s.par [(1, 1#32)]) = some (t, { queue := [], used := 3 }) ∧ (∀ x ∈ [1], x ≠ s.par.eos)
      ∧ [[false]].map t.follow = [1].map some ∧ t.follow [true] = some s.par.eos
      ∧ supplyBits b = bitsMsb 32 s.par.magic.toNat ++ bitsMsb 32 s.par.tagCounts.toNat
          ++ countsString s.par [(1, 1#32)] ++ [[false]].flatten ++ [true] ++ List.replicate 6 false := by decide +kernel

/-- The bytes of the magic number and TAG_COUNTS. -/
def countsHead : List Byte := [0xFA, 0xCE, 0x82, 0x00, 0x63, 0x74, 0x20, 0x20]

/-- At W = 1, two counts: none is there, and the first and 24 bits of the second. -/
theorem witness_DecompressCounts_truncated :
    (supplyBits countsHead = bitsMsb 32 p1.magic.toNat ++ bitsMsb 32 p1.tagCounts.toNat
        ++ (List.range 0).flatMap (fun x => bitsMsb 32 (freqGet [] x).toNat) ++ []
      ∧ Memory.wf 0 [] = true ∧ 0 < p1.alphSize)
    ∧ (supplyBits (countsHead ++ [0, 0, 0, 5, 0, 0, 0]) = bitsMsb 32 p1.magic.toNat ++ bitsMsb 32 p1.tagCounts.toNat
        ++ (List.range 1).flatMap (fun x => bitsMsb 32 (freqGet [(0, 5#32)] x).toNat) ++ List.replicate 24 false
      ∧ Memory.wf 1 [(0, 5#32)] = true ∧ 1 < p1.alphSize ∧ (List.replicate 24 false).length < 32) := by decide +kernel

/-- At W = 1: counts 0 and 1, the code of symbol 1 eight times and no bit more. -/
theorem witness_DecompressCounts_walk :
    let t := nd 2 (lf 1 1) (lf 2 1)
    Memory.wf p1.alphSize [(1, 1#32)] = true
      ∧ buildTree (loadFreq p1 [(1, 1#32)]) = some (t, { queue := [], used := 3 })
      ∧ (∀ x ∈ List.replicate 8 1, x ≠ p1.eos)
      ∧ (List.replicate 8 [false]).map t.follow = (List.replicate 8 1).map some ∧ t.leadsInside [] = true
      ∧ supplyBits (countsHead ++ [0, 0, 0, 0, 0, 0, 0, 1, 0]) = bitsMsb 32 p1.magic.toNat
          ++ bitsMsb 32 p1.tagCounts.toNat ++ countsString p1 [(1, 1#32)] ++ (List.replicate 8 [false]).flatten ++ [] := by
  decide +kernel

/-- DV1: a wrong last magic bit, and a tag that is cut short. -/
theorem witness_DecompressHeaderErrors :
    let s := r8
    s.ports.outPend = [] ∧ (supplyBits [0xFA, 0xCE, 0x82, 0x01]).take 32 ≠ bitsMsb 32 s.par.magic.toNat
      ∧ (supplyBits [0xFA, 0xCE, 0x82, 0x00, 0x74, 0x72]).take 32 = bitsMsb 32 s.par.magic.toNat
      ∧ ((supplyBits [0xFA, 0xCE, 0x82, 0x00, 0x74, 0x72]).drop 32).take 32
          ∉ [bitsMsb 32 s.par.tagCounts.toNat, bitsMsb 32 s.par.tagTree.toNat] := by decide +kernel

theorem witness_DecompressFrame :
    let s := { r8 with supplies := [[0xFA]] }
    s.supplies = [0xFA] :: [] ∧ exec .decompress s = .next (after (exec .decompress s))
      ∧ (supplyBits [0xFA]).take 64 ≠ bitsMsb 32 s.par.magic.toNat ++ bitsMsb 32 s.par.tagCounts.toNat :=
  ⟨rfl, rfl, by decide⟩

/-- Of CommandsRaiseOnlyTheirErrors, ErrorsKeepResults and PlainErrorsArePrecise. -/
theorem witness_errors :
    Instr.qPeek.isStream = false ∧ r8.err = none ∧ exec .qPeek r8 = .next (after (exec .qPeek r8))
      ∧ (after (exec .qPeek r8)).err = some .emptyQueue := ⟨rfl, rfl, rfl, rfl⟩

/-- Of CommandsRaiseOnlyTheirErrors and ErrorsKeepResults, for a stream command. -/
theorem witness_errors_stream :
    let s := { r8 with supplies := [[0xFA]] }
    s.err = none ∧ exec .decompress s = .next (after (exec .decompress s))
      ∧ (after (exec .decompress s)).err = some .notRecognizedFormat := ⟨rfl, rfl, by decide +kernel⟩

/-- A measured session on the small machine. -/
def measured1 : State := after (exec (.measure .tree) { r1 with supplies := [[0x40]] })

theorem witness_MeasuredOnlyByMeasure :
    exec (.measure .tree) { r1 with supplies := [[0x40]] } = .next measured1 ∧ measured1.measured = true
      ∧ exec .qClear measured1 = .next (after (exec .qClear measured1))
      ∧ exec .ctDerive measured1 = .next (after (exec .ctDerive measured1))
      ∧ (after (exec .ctDerive measured1)).measured = true := ⟨rfl, by decide +kernel, rfl, rfl, by decide +kernel⟩

/-- TREE_BUILD and DECOMPRESS of that rule, each from a measured state. -/
theorem witness_MeasuredOnlyByMeasure_clears :
    let s := { withQueue measured1 [lf 0 1] 1 with supplies := [[0xFA]] }
    s.err = none ∧ s.measured = true ∧ (after (exec .treeBuild s)).err = none
      ∧ (after (exec .treeBuild s)).measured = false ∧ (after (exec .decompress s)).measured = false := by decide +kernel

theorem witness_HostRegistersKept_ParametersNeverChange :
    exec .nop r8 = .next (after (exec .nop r8)) ∧ step r8 = .next r8 := ⟨rfl, rfl⟩

theorem witness_StepKeepsControlSound :
    let s := { r8 with script := [.write 0x410 5] }
    ControlSound s ∧ step s = .next (after (step s)) ∧ (after (step s)).freq = [(4, 5#32)] :=
  ⟨⟨by decide, fun _ => rfl, fun h => absurd h (by decide), by decide, by decide, rfl, rfl, rfl⟩, rfl, by decide +kernel⟩

/-- A measured session is sound, and a step takes it on. -/
theorem witness_StepKeepsSessionSound :
    SessionSound measured1 ∧ measured1.measured = true ∧ step measured1 = .next (after (step measured1)) := by
  refine ⟨⟨by decide +kernel, by decide +kernel, fun _ => ?_, fun h => absurd h (by decide +kernel), fun _ => ?_⟩,
    by decide +kernel, rfl⟩
  · exact ⟨measured1.root.getD (lf 0 0), by decide +kernel, by decide +kernel⟩
  · refine ⟨by decide +kernel, measured1.root.getD (lf 0 0), measured1.nodes, ?_, ?_, ?_, ?_, ?_, ?_⟩ <;> decide +kernel

theorem witness_ResetIsSound : p1.legal = true ∧ Params.default.legal = true := by decide

end Sys2Proof.Machine.Tests
end

section
/-!
PROOFS. What each queue, tree and code table command can do (R136 to R138, R161, R165, R191), the parameters under every
operation of the machine, and the statements of spec/00_scope.md.
-/

namespace Sys2Proof.Machine

/-! ### The commands that can raise an error and use no port -/

/-- Q_ENQ_LEAF raises BAD_ARGUMENT, raises CAPACITY or enqueues. -/
theorem exec_qEnqLeaf_cases {sym : Symbol} {s t : State} (h : exec (.qEnqLeaf sym) s = .next t) :
    ((symbolOperand sym > s.par.eos ∨ weightOperand s = 0) ∧ t = raiseError .badArgument (.qEnqLeaf sym) s)
    ∨ ((s.nodes.queue.length = s.par.qcap ∨ s.nodes.used = s.par.nodeCap)
        ∧ symbolOperand sym ≤ s.par.eos ∧ weightOperand s ≠ 0 ∧ t = raiseError .capacity (.qEnqLeaf sym) s)
    ∨ (symbolOperand sym ≤ s.par.eos ∧ weightOperand s ≠ 0 ∧ s.nodes.queue.length ≠ s.par.qcap
        ∧ s.nodes.used ≠ s.par.nodeCap
        ∧ t = complete
          { s with
            nodes := allocEnqueue s.nodes (.leaf sym (weightOperand s)),
            result0 := BitVec.ofNat 32 (allocEnqueue s.nodes (.leaf sym (weightOperand s))).queue.length }) := by
  simp only [exec, execQEnqLeaf] at h
  split at h
  · rename_i hsym; cases h; exact .inl ⟨.inl hsym, rfl⟩
  · rename_i hsym
    split at h
    · rename_i hw; cases h; exact .inl ⟨.inr hw, rfl⟩
    · rename_i hw
      split at h
      · rename_i hq; cases h; exact .inr (.inl ⟨.inl hq, not_lt.1 hsym, hw, rfl⟩)
      · rename_i hq
        split at h
        · rename_i hn; cases h; exact .inr (.inl ⟨.inr hn, not_lt.1 hsym, hw, rfl⟩)
        · rename_i hn; cases h; exact .inr (.inr ⟨not_lt.1 hsym, hw, hq, hn, rfl⟩)

/-- Q_PEEK raises EMPTY_QUEUE or reports the head. -/
theorem exec_qPeek_cases {s t : State} (h : exec .qPeek s = .next t) :
    (s.nodes.queue = [] ∧ t = raiseError .emptyQueue .qPeek s)
    ∨ ∃ n q, s.nodes.queue = n :: q ∧ t = complete (setNodeResults n s) := by
  simp only [exec, execQPeek] at h
  split at h
  · rename_i hq; cases h; exact .inl ⟨hq, rfl⟩
  · rename_i n q hq; cases h; exact .inr ⟨n, q, hq, rfl⟩

/-- Q_DEQUEUE raises EMPTY_QUEUE or takes the head off. -/
theorem exec_qDequeue_cases {s t : State} (h : exec .qDequeue s = .next t) :
    (dequeue s.nodes = none ∧ t = raiseError .emptyQueue .qDequeue s)
    ∨ ∃ n st, dequeue s.nodes = some (n, st) ∧ t = complete (setNodeResults n { s with nodes := st }) := by
  simp only [exec, execQDequeue] at h
  split at h
  · rename_i hd; cases h; exact .inl ⟨hd, rfl⟩
  · rename_i n st hd; cases h; exact .inr ⟨n, st, hd, rfl⟩

/-- Q_MERGE raises EMPTY_QUEUE, raises CAPACITY or merges. -/
theorem exec_qMerge_cases {s t : State} (h : exec .qMerge s = .next t) :
    (merge s.nodes = none ∧ t = raiseError .emptyQueue .qMerge s)
    ∨ ∃ n st, merge s.nodes = some (n, st) ∧
      ((s.nodes.used = s.par.nodeCap ∧ t = raiseError .capacity .qMerge s)
        ∨ (s.nodes.used ≠ s.par.nodeCap ∧ t = complete (setNodeResults n { s with nodes := st }))) := by
  simp only [exec, execQMerge] at h
  split at h
  · rename_i hm; cases h; exact .inl ⟨hm, rfl⟩
  · rename_i n st hm
    refine .inr ⟨n, st, hm, ?_⟩
    split at h
    · rename_i hc; cases h; exact .inl ⟨hc, rfl⟩
    · rename_i hc; cases h; exact .inr ⟨hc, rfl⟩

/-- TREE_BUILD raises EMPTY_QUEUE, raises CAPACITY or sets ROOT. -/
theorem exec_treeBuild_cases {s t : State} (h : exec .treeBuild s = .next t) :
    (buildTree s.nodes = none ∧ t = raiseError .emptyQueue .treeBuild s)
    ∨ ∃ r st, buildTree s.nodes = some (r, st) ∧
      ((s.nodes.used + s.nodes.queue.length - 1 > s.par.nodeCap ∧ t = raiseError .capacity .treeBuild s)
        ∨ (s.nodes.used + s.nodes.queue.length - 1 ≤ s.par.nodeCap
          ∧ t = complete (setNodeResults r { clearCodeTable s with nodes := st, root := some r, measured := false }))) := by
  simp only [exec, execTreeBuild] at h
  split at h
  · rename_i hb; cases h; exact .inl ⟨hb, rfl⟩
  · rename_i r st hb
    refine .inr ⟨r, st, hb, ?_⟩
    split at h
    · rename_i hc; cases h; exact .inl ⟨hc, rfl⟩
    · rename_i hc; cases h; exact .inr ⟨not_lt.1 hc, rfl⟩

/-- CT_DERIVE raises PRECONDITION_VIOLATION or derives the table of ROOT. -/
theorem exec_ctDerive_cases {s t : State} (h : exec .ctDerive s = .next t) :
    (s.root = none ∧ t = raiseError .preconditionViolation .ctDerive s)
    ∨ ∃ r, s.root = some r ∧ t = complete
      { s with
        ct := deriveCodes r, ctValid := true,
        result0 := BitVec.ofNat 32 r.leafCount, result1 := BitVec.ofNat 32 r.depth, result2 := 0 } := by
  simp only [exec, execCtDerive] at h
  split at h
  · rename_i hr; cases h; exact .inl ⟨hr, rfl⟩
  · rename_i r hr; cases h; exact .inr ⟨r, hr, rfl⟩

/-! ### The parameters under the stream commands -/

@[simp] theorem measureRun_par (f : HdrFmt) (s : State) : (measureRun f s).par = s.par := by
  obtain ⟨m, q, -, -, h | ⟨r, st, -, h⟩⟩ := measureRun_cases f s
  · rw [h]; rfl
  · rw [h]; rfl

@[simp] theorem compressRun_par (force : Bool) (s : State) : (compressRun force s).par = s.par := by
  obtain ⟨q, -, h | h⟩ := compressRun_cases force s
  · rw [h]; rfl
  · rw [h]; rfl

theorem DecompressState.par {s t : State} (h : DecompressState s (decompressStart s) t) : t.par = s.par :=
  (congrArg State.par h.frame).trans rfl

@[simp] theorem decompressRun_par (s : State) : (decompressRun s).par = s.par := by
  obtain ⟨t, ht, ⟨e, -, h⟩ | h⟩ := decompressRun_cases s
  · rw [h]; exact ht.par
  · rw [h]; exact ht.par

/-! ### The parameters under a command, a host access and hardware reset -/

/-- No command writes a parameter. -/
theorem exec_par {i : Instr} {s t : State} (h : exec i s = .next t) : t.par = s.par := by
  cases i with
  | nop | sessionReset | clearError | qClear | qLoadFreq => cases h; rfl
  | qEnqLeaf sym => obtain ⟨-, rfl⟩ | ⟨-, -, -, rfl⟩ | ⟨-, -, -, -, rfl⟩ := exec_qEnqLeaf_cases h <;> rfl
  | qPeek => obtain ⟨-, rfl⟩ | ⟨n, q, -, rfl⟩ := exec_qPeek_cases h <;> rfl
  | qDequeue => obtain ⟨-, rfl⟩ | ⟨n, st, -, rfl⟩ := exec_qDequeue_cases h <;> rfl
  | qMerge => obtain ⟨-, rfl⟩ | ⟨n, st, -, ⟨-, rfl⟩ | ⟨-, rfl⟩⟩ := exec_qMerge_cases h <;> rfl
  | treeBuild => obtain ⟨-, rfl⟩ | ⟨r, st, -, ⟨-, rfl⟩ | ⟨-, rfl⟩⟩ := exec_treeBuild_cases h <;> rfl
  | ctDerive => obtain ⟨-, rfl⟩ | ⟨r, -, rfl⟩ := exec_ctDerive_cases h <;> rfl
  | measure f =>
    obtain ⟨rfl, -⟩ | ⟨-, rfl⟩ := exec_measure_cases h
    · rfl
    · exact measureRun_par f s
  | compress force =>
    obtain ⟨rfl, -⟩ | ⟨-, rfl⟩ | rfl | ⟨-, rfl⟩ := exec_compress_cases h
    · rfl
    · rfl
    · rfl
    · exact compressRun_par force s
  | decompress =>
    obtain ⟨rfl, -⟩ | ⟨-, rfl⟩ := exec_decompress_cases h
    · rfl
    · exact decompressRun_par s

@[simp] theorem memRead_par (a : Offset) (s : State) : (memRead a s).par = s.par := by
  obtain ⟨r, d, h⟩ := memRead_frame a s
  rw [h]

@[simp] theorem memWrite_par (a : Offset) (v : Word) (s : State) : (memWrite a v s).par = s.par := by
  obtain h | ⟨-, ⟨e, -, h⟩ | ⟨i, -, h⟩ | h | h | h | ⟨x, -, h⟩ | h⟩ := memWrite_cases a v s <;> simp [h]

@[simp] theorem presentSupply_par (bs : List Byte) (s : State) : (presentSupply bs s).par = s.par := rfl

@[simp] theorem hardReset_par (sent : Nat) (s : State) : (hardReset sent s).par = s.par := rfl

@[simp] theorem waitPoll_par (s : State) : (waitPoll s).par = s.par := by
  obtain ⟨r, sc, h⟩ := waitPoll_frame s
  rw [h]

/-- Settles O56: each thing a step can be (R359) leaves the parameters alone (R7). -/
theorem parametersNeverChange : Obligations.ParametersNeverChange := by
  intro s t h
  obtain ⟨s', hs', hcases⟩ := step_cases h
  have hpar : s'.par = s.par := by rw [hs']
  obtain ⟨i, -, hexec⟩ | rfl | ⟨a, rfl⟩ | ⟨a, v, rfl⟩ | ⟨bs, rfl⟩ | ⟨sent, rfl⟩ | rfl := hcases
  case inl => exact (exec_par hexec).trans hpar
  all_goals simp [hpar]

end Sys2Proof.Machine
end

section
/-!
PROOFS. What keeps an invariant along every step (R359), and the node store: order, capacities, counted nodes,
legal symbols and exact weights under every command (R56 a, b).
-/

namespace Sys2Proof.Machine

/-! ### Packaging a step -/

/-- A state whose agents' fields are replaced, the block itself as it was (R359). -/
def State.withAgents (s : State) (sup : List (List Byte)) (sc : List Event) (rd : List Word) (dr : Nat) : State :=
  { s with supplies := sup, script := sc, reads := rd, draws := dr }

/-- A predicate that the agents' fields do not matter to, and that commands, host writes and hardware reset keep, is
kept by every step (R359). -/
theorem step_keeps {P : State → Prop} {s t : State}
    (hagents : ∀ u sup sc rd dr, P u → P (u.withAgents sup sc rd dr))
    (hexec : ∀ i u v, P u → exec i u = .next v → P v)
    (hwrite : ∀ a v u, P u → P (memWrite a v u))
    (hreset : ∀ sent u, P u → P (hardReset sent u))
    (hs : P s) (h : step s = .next t) : P t := by
  obtain ⟨s', rfl, hcases⟩ := step_cases h
  have hs' : P { s with script := s.script.tail } := hagents s s.supplies _ s.reads s.draws hs
  generalize { s with script := s.script.tail } = s' at hs' hcases
  obtain ⟨i, -, hi⟩ | rfl | ⟨a, rfl⟩ | ⟨a, v, rfl⟩ | ⟨bs, rfl⟩ | ⟨sent, rfl⟩ | rfl := hcases
  · exact hexec i s' t hs' hi
  · exact hs'
  · obtain ⟨r, d, hr⟩ := memRead_frame a s'
    rw [hr]
    exact hagents s' s'.supplies s'.script r d hs'
  · exact hwrite a v s' hs'
  · exact hagents s' _ s'.script s'.reads s'.draws hs'
  · exact hreset sent s' hs'
  · obtain ⟨r, sc, hr⟩ := waitPoll_frame s'
    rw [hr]
    exact hagents s' s'.supplies sc r s'.draws hs'

/-! ### What DECOMPRESS leaves alone (R270) -/

/-- DECOMPRESS clears the session at its start, however it ends (R270). -/
theorem DecompressState.session {s t : State} (h : DecompressState s (decompressStart s) t) :
    t.ct = [] ∧ t.ctValid = false ∧ t.measured = false := by
  rw [h.frame]; exact ⟨rfl, rfl, rfl⟩

/-- DECOMPRESS writes no control state before it ends (R270). -/
theorem DecompressState.control {s t : State} (h : DecompressState s (decompressStart s) t) :
    t.err = s.err ∧ t.errOp = s.errOp ∧ t.irqEn = s.irqEn ∧ t.arg0 = s.arg0 ∧ t.ctSel = s.ctSel := by
  rw [h.frame]; exact ⟨rfl, rfl, rfl, rfl, rfl⟩

/-! ### The node store under each command (R56 a, b) -/

/-- The store sound where it holds no tree, whatever it counts: what a failed DECOMPRESS has parsed
stays counted. -/
theorem StoreSound.holdsNone {s t : State} (h : StoreSound s) (hp : t.par = s.par) (hq : t.nodes.queue = [])
    (hr : t.root = none) (hu : t.nodes.used ≤ s.par.nodeCap) : StoreSound t := by
  have hh : t.heldTrees = [] := by simp [State.heldTrees, hq, hr]
  refine ⟨hp ▸ h.legal, ?_, ?_, hp ▸ hu, ?_, ?_, ?_⟩
  · rw [hq]; exact List.Pairwise.nil
  all_goals simp [hq, hh]

/-- Allocating and enqueueing a leaf (R136). -/
theorem StoreSound.enqLeaf {s t : State} (h : StoreSound s) {sym : Symbol} {w : Weight} (hsym : sym.toNat ≤ s.par.eos)
    (hw : w.toNat < 2 ^ 32) (hq : s.nodes.queue.length ≠ s.par.qcap) (hu : s.nodes.used ≠ s.par.nodeCap)
    (hp : t.par = s.par) (hn : t.nodes = allocEnqueue s.nodes (.leaf sym w)) (hr : t.root = s.root) :
    StoreSound t := by
  have hmem : ∀ x ∈ t.heldTrees, x = .leaf sym w ∨ x ∈ s.heldTrees := by
    intro x hx
    simpa [State.heldTrees, hn, hr, or_assoc] using hx
  have hsum := ((enqueue_perm (.leaf sym w) s.nodes.queue).map HuffTree.size).sum_eq
  have hqf := h.queueFits
  have hsf := h.storeFits
  have hc := h.counted
  refine ⟨hp ▸ h.legal, ?_, ?_, ?_, ?_, ?_, ?_⟩
  · rw [hn]; exact queueSorted_enqueue h.sorted
  · rw [hn, hp]; simp; omega
  · rw [hn, hp]; simp; omega
  · simp only [State.heldTrees, List.map_append, List.sum_append] at hc ⊢
    rw [hn, hr]
    simp [hsum, HuffTree.size] at hc ⊢
    omega
  · intro x hx
    obtain rfl | hx := hmem x hx
    · simpa [HuffTree.symbolsLegal, HuffTree.leaves, hp] using hsym
    · rw [hp]; exact h.symbols x hx
  · intro x hx
    obtain rfl | hx := hmem x hx
    · simpa [HuffTree.weightsExact] using hw
    · exact h.weights x hx

/-- Taking the head off the queue (R138): the node stays counted. -/
theorem StoreSound.dequeue {s t : State} (h : StoreSound s) {n : HuffTree} {st : NodeStore}
    (hd : dequeue s.nodes = some (n, st)) (hp : t.par = s.par) (hn : t.nodes = st) (hr : t.root = s.root) :
    StoreSound t := by
  obtain ⟨q, hq, rfl⟩ := dequeue_eq_some.1 hd
  obtain ⟨hl, hsort, hqf, hsf, hc, hy, hw⟩ := h
  have hh : s.heldTrees = n :: t.heldTrees := by simp [State.heldTrees, hq, hn, hr]
  rw [hq] at hsort hqf
  rw [hh] at hc hy hw
  rw [List.length_cons] at hqf
  rw [List.map_cons, List.sum_cons] at hc
  refine ⟨hp ▸ hl, ?_, ?_, ?_, ?_, ?_, ?_⟩
  · rw [hn]; exact (List.pairwise_cons.1 hsort).2
  · rw [hn, hp]; simp only; omega
  · rw [hn, hp]; exact hsf
  · rw [hn]; simp only; omega
  · intro x hx; rw [hp]; exact hy x (List.mem_cons_of_mem _ hx)
  · intro x hx; exact hw x (List.mem_cons_of_mem _ hx)

/-- One merge (R161). -/
theorem StoreSound.merge {s t : State} (h : StoreSound s) {n : HuffTree} {st : NodeStore}
    (hm : merge s.nodes = some (n, st)) (hu : s.nodes.used ≠ s.par.nodeCap) (hp : t.par = s.par) (hn : t.nodes = st)
    (hr : t.root = s.root) : StoreSound t := by
  have hsorted := merge_sorted hm h.sorted
  obtain ⟨a, b, q, hq, rfl, rfl⟩ := merge_eq_some.1 hm
  obtain ⟨hl, -, hqf, hsf, hc, hy, hw⟩ := h
  have hh : s.heldTrees = a :: b :: (q ++ s.root.toList) := by simp [State.heldTrees, hq]
  have hmem : ∀ x ∈ t.heldTrees, x = .node (a.wt + b.wt) a b ∨ x ∈ s.heldTrees := by
    intro x hx
    rw [hh]
    simp only [State.heldTrees, hn, hr, List.mem_append, mem_enqueue, List.mem_cons] at hx ⊢
    tauto
  have ha : a ∈ s.heldTrees := by simp [hh]
  have hb : b ∈ s.heldTrees := by simp [hh]
  have hsum := ((enqueue_perm (.node (a.wt + b.wt) a b) q).map HuffTree.size).sum_eq
  have hcount : (t.heldTrees.map HuffTree.size).sum = (s.heldTrees.map HuffTree.size).sum + 1 := by
    rw [hh]
    simp only [State.heldTrees, hn, hr, List.map_append, List.sum_append, hsum, List.map_cons, List.sum_cons,
      HuffTree.size]
    omega
  have hab : a.size + b.size ≤ s.par.nodeCap := by
    rw [hh] at hc; simp only [List.map_cons, List.sum_cons] at hc; omega
  rw [hq] at hqf
  simp only [List.length_cons] at hqf
  refine ⟨hp ▸ hl, ?_, ?_, ?_, ?_, ?_, ?_⟩
  · rw [hn]; exact hsorted
  · rw [hn, hp]; simp only [enqueue_length]; omega
  · rw [hn, hp]; simp only; omega
  · rw [hcount, hn]; simp only; omega
  · intro x hx
    rw [hp]
    obtain rfl | hx := hmem x hx
    · exact HuffTree.symbolsLegal_node (hy a ha) (hy b hb)
    · exact hy x hx
  · intro x hx
    obtain rfl | hx := hmem x hx
    · exact HuffTree.weightsExact_node (Params.nodeCap_le hl) (hw a ha) (hw b hb) hab
    · exact hw x hx

/-- The tree of FREQ at ROOT, the queue empty (R164, R244). -/
theorem StoreSound.ofFreqTree {s t : State} (hl : s.par.legal = true) {m : Memory} {r : HuffTree} {st : NodeStore}
    (hb : buildTree (loadFreq s.par m) = some (r, st)) (hp : t.par = s.par) (hn : t.nodes = st)
    (hr : t.root = some r) : StoreSound t := by
  have hst := buildTree_loadFreq_store s.par m hb
  have hsize := r.size_add_one
  have hcap := (buildTree_loadFreq_size hb).1
  have hused : t.nodes.used = r.size := by rw [hn, hst]; simp only; omega
  exact StoreSound.withRoot hl hp (by rw [hn, hst]) hr (hused ▸ hcap) hused.ge (buildTree_loadFreq_symbols hl hb)
    (buildTree_loadFreq_exact hl hb)

/-- DECOMPRESS (R270): the parsed tree, or no tree and the nodes parsed so far. -/
theorem StoreSound.decompress {s t u : State} (h : StoreSound s) (hd : DecompressState s (decompressStart s) u)
    (hp : t.par = u.par) (hn : t.nodes = u.nodes) (hr : t.root = u.root) : StoreSound t := by
  have hp' : t.par = s.par := hp.trans hd.par
  have hq : t.nodes.queue = [] := hn ▸ hd.queue
  have hu : t.nodes.used ≤ s.par.nodeCap := hn ▸ hd.used
  cases hroot : u.root with
  | none => exact h.holdsNone hp' hq (hr.trans hroot) hu
  | some r =>
    obtain ⟨hsound, hsize⟩ := hd.root r hroot
    obtain ⟨hw, hy⟩ := hsound h.legal
    exact StoreSound.withRoot h.legal hp' hq (hr.trans hroot) hu (hn ▸ hsize) hy hw

/-- Every command keeps the store sound (R56 a, b, R36, R166). -/
theorem exec_storeSound {i : Instr} {s t : State} (hs : StoreSound s) (h : exec i s = .next t) : StoreSound t := by
  cases i with
  | nop | clearError => cases h; exact hs.congr rfl rfl rfl
  | sessionReset | qClear => cases h; exact hs.fresh rfl rfl rfl
  | qLoadFreq => cases h; exact StoreSound.ofLoadFreq hs.legal _ rfl s.freq rfl rfl
  | qEnqLeaf sym =>
    obtain ⟨-, rfl⟩ | ⟨-, -, -, rfl⟩ | ⟨hsym, -, hq, hu, rfl⟩ := exec_qEnqLeaf_cases h
    · exact hs.congr rfl rfl rfl
    · exact hs.congr rfl rfl rfl
    · exact hs.enqLeaf hsym (by simp [weightOperand]; omega) hq hu rfl rfl rfl
  | qPeek => obtain ⟨-, rfl⟩ | ⟨n, q, -, rfl⟩ := exec_qPeek_cases h <;> exact hs.congr rfl rfl rfl
  | qDequeue =>
    obtain ⟨-, rfl⟩ | ⟨n, st, hd, rfl⟩ := exec_qDequeue_cases h
    · exact hs.congr rfl rfl rfl
    · exact hs.dequeue hd rfl rfl rfl
  | qMerge =>
    obtain ⟨-, rfl⟩ | ⟨n, st, hm, ⟨-, rfl⟩ | ⟨hu, rfl⟩⟩ := exec_qMerge_cases h
    · exact hs.congr rfl rfl rfl
    · exact hs.congr rfl rfl rfl
    · exact hs.merge hm hu rfl rfl rfl
  | treeBuild =>
    obtain ⟨-, rfl⟩ | ⟨r, st, hb, ⟨-, rfl⟩ | ⟨hc, rfl⟩⟩ := exec_treeBuild_cases h
    · exact hs.congr rfl rfl rfl
    · exact hs.congr rfl rfl rfl
    · exact hs.ofBuildTree hb hc _ rfl rfl rfl
  | ctDerive => obtain ⟨-, rfl⟩ | ⟨r, -, rfl⟩ := exec_ctDerive_cases h <;> exact hs.congr rfl rfl rfl
  | measure f =>
    obtain ⟨rfl, -⟩ | ⟨-, rfl⟩ := exec_measure_cases h
    · exact hs
    · obtain ⟨m, q, -, -, h' | ⟨r, st, hb, h'⟩⟩ := measureRun_cases f s
      · rw [h']; exact hs.congr rfl rfl rfl
      · rw [h']; exact StoreSound.ofFreqTree hs.legal hb rfl rfl rfl
  | compress force =>
    obtain ⟨rfl, -⟩ | ⟨-, rfl⟩ | rfl | ⟨-, rfl⟩ := exec_compress_cases h
    · exact hs
    · exact hs.congr rfl rfl rfl
    · exact hs.congr rfl rfl rfl
    · obtain ⟨q, -, h' | h'⟩ := compressRun_cases force s <;> (rw [h']; exact hs.congr rfl rfl rfl)
  | decompress =>
    obtain ⟨rfl, -⟩ | ⟨-, rfl⟩ := exec_decompress_cases h
    · exact hs
    · obtain ⟨u, hd, ⟨e, -, h'⟩ | h'⟩ := decompressRun_cases s <;>
        (rw [h']; exact hs.decompress hd rfl rfl rfl)

/-- No host write touches the store. -/
theorem memWrite_storeSound (a : Offset) (v : Word) {s : State} (hs : StoreSound s) : StoreSound (memWrite a v s) := by
  obtain h | ⟨-, ⟨e, -, h⟩ | ⟨i, -, h⟩ | h | h | h | ⟨x, -, h⟩ | h⟩ := memWrite_cases a v s <;>
    (rw [h]; exact hs.congr rfl rfl rfl)

/-- Settles O57: the four kinds of step (R359), the commands by what each does to the store. -/
theorem stepKeepsStoreSound : Obligations.StepKeepsStoreSound := by
  intro s t
  exact step_keeps (P := StoreSound) (fun u _ _ _ _ hu => hu.congr rfl rfl rfl) (fun _ _ _ => exec_storeSound)
    (fun a v _ => memWrite_storeSound a v) (fun _ u hu => hu.fresh (t := hardReset _ u) rfl rfl rfl)

end Sys2Proof.Machine
end

section
/-!
PROOFS. The control state with the ports (R56 e, f) and the session (R56 c, d) under every step; the reset
state is sound.
-/

namespace Sys2Proof.Machine

/-! ### The control state, FREQ and CT, the ports under each command (R56 e, f) -/

theorem deriveCodes_wf (t : HuffTree) : codeTableWf (deriveCodes t) = true := by
  rw [deriveCodes_eq]
  exact foldl_codeSet_wf _ _ tableRising_nil

/-- A command that uses no port ends: idle, with no error of its own or a new one. -/
theorem ControlSound.plain {s t : State} (hs : ControlSound s) (hp : t.par = s.par) (hi : t.engine = .idle)
    (he : (t.err = s.err ∧ t.errOp = s.errOp) ∨ t.err ≠ none) (hf : t.freq = s.freq)
    (hc : codeTableWf t.ct = true) (hq : t.ports = s.ports) : ControlSound t :=
  hs.mkFrom hp (he.imp_right .inr) (.inl hi) (hf ▸ hs.freqWf) hc (hq ▸ ⟨hs.noPartial, hs.noSupply⟩)

/-- A command that uses no port raises an error before any effect. -/
theorem ControlSound.raiseError {s : State} (hs : ControlSound s) {i : Instr} (hi : i.isStream = false) (e : ErrCode) :
    ControlSound (raiseError e i s) :=
  hs.plain rfl rfl (.inr (by simp)) rfl hs.ctWf (closeSequence_plain hi s.ports)

/-- A stream command ends: idle, its ports closed (R78). -/
theorem ControlSound.stream {s t : State} (hs : ControlSound s) {p : Ports} {tail : List PortEvent}
    (hclosed : Closed p t.ports tail) (hpend : p.outPend = s.ports.outPend) (hp : t.par = s.par)
    (hi : t.engine = .idle) (he : (t.err = s.err ∧ t.errOp = s.errOp) ∨ t.err ≠ none)
    (hf : Memory.wf s.par.alphSize t.freq = true) (hc : codeTableWf t.ct = true) : ControlSound t := by
  obtain ⟨hrest, hpos, hout, -⟩ := hclosed
  exact hs.mkFrom hp (he.imp_right .inr) (.inl hi) hf hc ⟨hout (hpend.trans hs.noPartial), hrest, hpos⟩

/-- MEASURE closes IN and keeps the control state sound (R244, R78). -/
theorem measureRun_controlSound (f : HdrFmt) {s : State} (hs : ControlSound s) : ControlSound (measureRun f s) := by
  obtain ⟨m, q, hq, hm, h | ⟨r, st, -, h⟩⟩ := measureRun_cases f s
  · rw [h]; exact hs.stream (closed_closeIn hq) rfl rfl rfl (.inr (by simp)) hm hs.ctWf
  · rw [h]; exact hs.stream (closed_closeIn hq) rfl rfl rfl (.inl ⟨rfl, rfl⟩) hm (deriveCodes_wf r)

/-- Every way COMPRESS ends closes both ports and keeps the control state sound (R245, R78). -/
theorem compressRun_controlSound (force : Bool) {s : State} (hs : ControlSound s) :
    ControlSound (compressRun force s) := by
  obtain ⟨q, hq, hends⟩ := compressRun_cases force s
  have hclosed := closed_closeSequence (.compress force) (.inl ⟨force, rfl⟩) hq
  obtain h | h := hends
  · rw [h]; exact hs.stream hclosed rfl rfl rfl (.inr (by simp)) hs.freqWf hs.ctWf
  · rw [h]; exact hs.stream hclosed rfl rfl rfl (.inl ⟨rfl, rfl⟩) hs.freqWf hs.ctWf

/-- Every way DECOMPRESS ends closes both ports and keeps the control state sound (R270, R78). -/
theorem decompressRun_controlSound {s : State} (hs : ControlSound s) : ControlSound (decompressRun s) := by
  obtain ⟨t, ht, hends⟩ := decompressRun_cases s
  have hclosed := closed_closeSequence .decompress (.inr rfl) ht.grew
  have hct : codeTableWf t.ct = true := ht.session.1 ▸ tableRising_nil
  obtain ⟨herr, herrOp, -⟩ := ht.control
  obtain ⟨e, -, h⟩ | h := hends
  · rw [h]; exact hs.stream hclosed rfl ht.par rfl (.inr (by simp)) (ht.wf hs.freqWf) hct
  · rw [h]; exact hs.stream hclosed rfl ht.par rfl (.inl ⟨herr, herrOp⟩) (ht.wf hs.freqWf) hct

/-- Every command keeps the control state sound (R56 e, f, R48, R323, R78). -/
theorem exec_controlSound {i : Instr} {s t : State} (hs : ControlSound s) (h : exec i s = .next t) :
    ControlSound t := by
  have hdone : ∀ u : State, u.par = s.par → u.err = s.err ∧ u.errOp = s.errOp → u.freq = s.freq →
      codeTableWf u.ct = true → u.ports = s.ports → ControlSound (complete u) :=
    fun u hp he hf hc hq => hs.plain hp rfl (.inl he) hf hc hq
  cases i with
  | nop => cases h; exact hdone s rfl ⟨rfl, rfl⟩ rfl hs.ctWf rfl
  | clearError =>
    cases h
    exact hs.mkFrom rfl (.inr (.inl ⟨rfl, rfl⟩)) (.inl rfl) hs.freqWf hs.ctWf ⟨hs.noPartial, hs.noSupply⟩
  | sessionReset =>
    cases h
    exact hs.mkFrom rfl (.inr (.inl ⟨rfl, rfl⟩)) (.inl rfl) (Memory.wf_nil _) tableRising_nil ⟨rfl, rfl, rfl⟩
  | qClear | qLoadFreq => cases h; exact hdone _ rfl ⟨rfl, rfl⟩ rfl tableRising_nil rfl
  | qEnqLeaf sym =>
    obtain ⟨-, rfl⟩ | ⟨-, -, -, rfl⟩ | ⟨-, -, -, -, rfl⟩ := exec_qEnqLeaf_cases h
    · exact hs.raiseError rfl _
    · exact hs.raiseError rfl _
    · exact hdone _ rfl ⟨rfl, rfl⟩ rfl hs.ctWf rfl
  | qPeek =>
    obtain ⟨-, rfl⟩ | ⟨n, q, -, rfl⟩ := exec_qPeek_cases h
    · exact hs.raiseError rfl _
    · exact hdone _ rfl ⟨rfl, rfl⟩ rfl hs.ctWf rfl
  | qDequeue =>
    obtain ⟨-, rfl⟩ | ⟨n, st, -, rfl⟩ := exec_qDequeue_cases h
    · exact hs.raiseError rfl _
    · exact hdone _ rfl ⟨rfl, rfl⟩ rfl hs.ctWf rfl
  | qMerge =>
    obtain ⟨-, rfl⟩ | ⟨n, st, -, ⟨-, rfl⟩ | ⟨-, rfl⟩⟩ := exec_qMerge_cases h
    · exact hs.raiseError rfl _
    · exact hs.raiseError rfl _
    · exact hdone _ rfl ⟨rfl, rfl⟩ rfl hs.ctWf rfl
  | treeBuild =>
    obtain ⟨-, rfl⟩ | ⟨r, st, -, ⟨-, rfl⟩ | ⟨-, rfl⟩⟩ := exec_treeBuild_cases h
    · exact hs.raiseError rfl _
    · exact hs.raiseError rfl _
    · exact hdone _ rfl ⟨rfl, rfl⟩ rfl tableRising_nil rfl
  | ctDerive =>
    obtain ⟨-, rfl⟩ | ⟨r, -, rfl⟩ := exec_ctDerive_cases h
    · exact hs.raiseError rfl _
    · exact hdone _ rfl ⟨rfl, rfl⟩ rfl (deriveCodes_wf r) rfl
  | measure f =>
    obtain ⟨rfl, -⟩ | ⟨-, rfl⟩ := exec_measure_cases h
    · exact hs
    · exact measureRun_controlSound f hs
  | compress force =>
    have hclosed := closed_closeSequence (.compress force) (.inl ⟨force, rfl⟩) (Wrote.refl (compressStart s).ports)
    obtain ⟨rfl, -⟩ | ⟨-, rfl⟩ | rfl | ⟨-, rfl⟩ := exec_compress_cases h
    · exact hs
    · exact hs.stream hclosed rfl rfl rfl (.inr (by simp)) hs.freqWf hs.ctWf
    · exact hs.stream hclosed rfl rfl rfl (.inl ⟨rfl, rfl⟩) hs.freqWf hs.ctWf
    · exact compressRun_controlSound force hs
  | decompress =>
    obtain ⟨rfl, -⟩ | ⟨-, rfl⟩ := exec_decompress_cases h
    · exact hs
    · exact decompressRun_controlSound hs

/-- A host write keeps the control state sound: it raises, accepts, drops or sets one register (R71, R322, R323). -/
theorem memWrite_controlSound (a : Offset) (v : Word) {s : State} (hs : ControlSound s) :
    ControlSound (memWrite a v s) := by
  have hports : s.ports.outPend = [] ∧ s.ports.rest = [] ∧ s.ports.inPos = 0 := ⟨hs.noPartial, hs.noSupply⟩
  have hreg : ∀ t : State, t.par = s.par → t.err = s.err ∧ t.errOp = s.errOp →
      t.engine = s.engine ∧ t.done = s.done → Memory.wf s.par.alphSize t.freq = true → t.ct = s.ct →
      t.ports = s.ports → ControlSound t :=
    fun t hp he hb hf hc hq => hs.mkFrom hp (.inl he) (.inr (.inl hb)) hf (hc ▸ hs.ctWf) (hq ▸ hports)
  obtain h | ⟨-, ⟨e, -, h⟩ | ⟨i, -, h⟩ | h | h | h | ⟨x, hx, h⟩ | h⟩ := memWrite_cases a v s
  case inr.inl => rw [h]; exact hs.mkFrom rfl (.inr (.inr (by simp))) (.inl rfl) hs.freqWf hs.ctWf hports
  case inr.inr.inl => rw [h]; exact hs.mkFrom rfl (.inl ⟨rfl, rfl⟩) (.inr (.inr rfl)) hs.freqWf hs.ctWf hports
  case inr.inr.inr.inr.inr.inr.inl =>
    rw [h]; exact hreg _ rfl ⟨rfl, rfl⟩ ⟨rfl, rfl⟩ (Memory.wf_set hx v hs.freqWf) rfl rfl
  all_goals rw [h]; exact hreg _ rfl ⟨rfl, rfl⟩ ⟨rfl, rfl⟩ hs.freqWf rfl rfl

/-- The state after hardware reset is sound on a legal machine, whatever it has sent (R350). -/
theorem hardReset_controlSound (sent : Nat) {s : State} (hl : s.par.legal = true) : ControlSound (hardReset sent s) :=
  ⟨hl, fun _ => rfl, fun _ => rfl, Memory.wf_nil _, tableRising_nil, rfl, rfl, rfl⟩

/-- Settles O58: the kinds of step (R359), the commands by how each ends (R321, R323). -/
theorem stepKeepsControlSound : Obligations.StepKeepsControlSound := by
  intro s t
  exact step_keeps (P := ControlSound)
    (fun u _ _ _ _ hu => hu.mkFrom rfl (.inl ⟨rfl, rfl⟩) (.inr (.inl ⟨rfl, rfl⟩)) hu.freqWf hu.ctWf
      ⟨hu.noPartial, hu.noSupply⟩)
    (fun _ _ _ => exec_controlSound) (fun a v _ => memWrite_controlSound a v)
    (fun sent _ hu => hardReset_controlSound sent hu.legal)

/-! ### The session under each command (R56 c, d) -/

/-- The fields of the session and what they speak of: FREQ, ROOT, CT and the accounting (R38 to R44). -/
def State.sessionPart (s : State) :=
  (s.par, s.freq, s.root, s.ct, s.ctValid, s.measured, s.hdrFmt, s.origBits, s.acctBits, s.savings, s.treeLen)

/-- The session sound where nothing of it changed. -/
theorem SessionSound.congr {s t : State} (hs : SessionSound s) (h : t.sessionPart = s.sessionPart) :
    SessionSound t := by
  simp only [State.sessionPart, Prod.mk.injEq] at h
  obtain ⟨hp, hf, hr, hc, hv, hm, hfmt, ho, ha, hsav, hlen⟩ := h
  exact hs.mkFrom hp hf hr hc hv (.inr ⟨hm, ho, hlen, ha, hsav, hfmt⟩)

/-- The session sound where FREQ was written or counted anew and MEASURED cleared: CT stays the table of ROOT. -/
theorem SessionSound.unmeasured {s t : State} (hs : SessionSound s) (hp : t.par = s.par)
    (hf : Memory.wf s.par.alphSize t.freq = true) (hr : t.root = s.root) (hc : t.ct = s.ct)
    (hv : t.ctValid = s.ctValid) (hm : t.measured = false) : SessionSound t := by
  refine ⟨hp ▸ hs.legal, hp ▸ hf, ?_, ?_, ?_⟩
  · rw [hv, hr, hc]; exact hs.table
  · rw [hv, hc]; exact hs.noTable
  · simp [hm]

/-- CT_DERIVE: the table is derived from the tree at ROOT, which a measured session keeps (R191). -/
theorem SessionSound.ctDerive {s : State} (hs : SessionSound s) {r : HuffTree} (hr : s.root = some r)
    (x y z : Word) : SessionSound (complete
      { s with ct := deriveCodes r, ctValid := true, result0 := x, result1 := y, result2 := z }) := by
  refine ⟨hs.legal, hs.freqWf, fun _ => ⟨r, hr, rfl⟩, by simp, fun hm => ?_⟩
  obtain ⟨-, htree⟩ := hs.measured hm
  exact ⟨rfl, htree⟩

/-- MEASURE: a new session of the counted FREQ, or MEASURED cleared (R244). -/
theorem measureRun_sessionSound (f : HdrFmt) {s : State} (hs : SessionSound s) : SessionSound (measureRun f s) := by
  obtain ⟨m, q, -, hm, h | ⟨r, st, hb, h⟩⟩ := measureRun_cases f s
  · rw [h]; exact hs.unmeasured rfl hm rfl rfl rfl rfl
  · rw [h]
    refine ⟨hs.legal, hm, fun _ => ⟨r, rfl, rfl⟩, (nomatch ·), fun _ => ?_⟩
    exact ⟨rfl, r, st, hb, rfl, rfl, rfl, rfl, savingsOf_eq _ _⟩

/-- Every command keeps the session sound (R56 c, d, R39, R40). -/
theorem exec_sessionSound {i : Instr} {s t : State} (hs : SessionSound s) (h : exec i s = .next t) :
    SessionSound t := by
  cases i with
  | nop | clearError => cases h; exact hs.congr rfl
  | sessionReset => cases h; exact hs.fresh rfl (Memory.wf_nil _) rfl rfl rfl
  | qClear | qLoadFreq => cases h; exact hs.fresh rfl hs.freqWf rfl rfl rfl
  | qEnqLeaf sym =>
    obtain ⟨-, rfl⟩ | ⟨-, -, -, rfl⟩ | ⟨-, -, -, -, rfl⟩ := exec_qEnqLeaf_cases h <;> exact hs.congr rfl
  | qPeek =>
    obtain ⟨-, rfl⟩ | ⟨n, q, -, rfl⟩ := exec_qPeek_cases h <;> exact hs.congr rfl
  | qDequeue =>
    obtain ⟨-, rfl⟩ | ⟨n, st, -, rfl⟩ := exec_qDequeue_cases h <;> exact hs.congr rfl
  | qMerge =>
    obtain ⟨-, rfl⟩ | ⟨n, st, -, ⟨-, rfl⟩ | ⟨-, rfl⟩⟩ := exec_qMerge_cases h <;> exact hs.congr rfl
  | treeBuild =>
    obtain ⟨-, rfl⟩ | ⟨r, st, -, ⟨-, rfl⟩ | ⟨-, rfl⟩⟩ := exec_treeBuild_cases h
    · exact hs.congr rfl
    · exact hs.congr rfl
    · exact hs.fresh rfl hs.freqWf rfl rfl rfl
  | ctDerive =>
    obtain ⟨-, rfl⟩ | ⟨r, hr, rfl⟩ := exec_ctDerive_cases h
    · exact hs.congr rfl
    · exact hs.ctDerive hr _ _ _
  | measure f =>
    obtain ⟨rfl, -⟩ | ⟨-, rfl⟩ := exec_measure_cases h
    · exact hs
    · exact measureRun_sessionSound f hs
  | compress force =>
    obtain ⟨rfl, -⟩ | ⟨-, rfl⟩ | rfl | ⟨-, rfl⟩ := exec_compress_cases h
    · exact hs
    · exact hs.congr rfl
    · exact hs.congr rfl
    · obtain ⟨q, -, h' | h'⟩ := compressRun_cases force s <;>
        (rw [h']; exact hs.congr rfl)
  | decompress =>
    obtain ⟨rfl, -⟩ | ⟨-, rfl⟩ := exec_decompress_cases h
    · exact hs
    · obtain ⟨u, hu, ⟨e, -, h'⟩ | h'⟩ := decompressRun_cases s <;>
        (rw [h']; exact hs.fresh hu.par (hu.wf hs.freqWf) hu.session.1 hu.session.2.1 hu.session.2.2)

/-- A host write keeps the session sound: a FREQ write clears MEASURED, no other touches the session (R40, R71). -/
theorem memWrite_sessionSound (a : Offset) (v : Word) {s : State} (hs : SessionSound s) :
    SessionSound (memWrite a v s) := by
  obtain h | ⟨-, ⟨e, -, h⟩ | ⟨i, -, h⟩ | h | h | h | ⟨x, hx, h⟩ | h⟩ := memWrite_cases a v s
  case inr.inr.inr.inr.inr.inr.inl =>
    rw [h]; exact hs.unmeasured rfl (Memory.wf_set hx v hs.freqWf) rfl rfl rfl rfl
  all_goals rw [h]; exact hs.congr rfl

/-- Settles O59: the kinds of step (R359), the commands by what each does to ROOT, CT and the accounting. -/
theorem stepKeepsSessionSound : Obligations.StepKeepsSessionSound := by
  intro s t
  exact step_keeps (P := SessionSound)
    (fun u _ _ _ _ hu => hu.congr rfl)
    (fun _ _ _ => exec_sessionSound) (fun a v _ => memWrite_sessionSound a v)
    (fun sent u hu => hu.fresh (t := hardReset sent u) rfl (Memory.wf_nil _) rfl rfl rfl)

/-- Settles O60: nothing is held, counted, pending or measured at reset (R57, R350). -/
theorem resetIsSound : Obligations.ResetIsSound := by
  intro p hl
  refine ⟨⟨hl, List.Pairwise.nil, Nat.zero_le _, Nat.zero_le _, Nat.le_refl _, ?_, ?_⟩,
    ⟨hl, fun _ => rfl, fun _ => rfl, Memory.wf_nil _, tableRising_nil, rfl, rfl, rfl⟩,
    ⟨hl, Memory.wf_nil _, ?_, fun _ => rfl, ?_⟩⟩
  · intro t ht; cases ht
  · intro t ht; cases ht
  · intro h; cases h
  · intro h; cases h

end Sys2Proof.Machine
end

section
/-!
PROOFS. What a command that errs or completes leaves alone: the RESULT registers, MEASURED, the
host's registers (R40, R51).
-/

namespace Sys2Proof.Machine

/-! ### How a command ends (R321, R323) -/

/-- The three RESULT registers (R51). -/
def State.results (s : State) := (s.result0, s.result1, s.result2)

theorem DecompressState.results {s t : State} (h : DecompressState s (decompressStart s) t) :
    t.results = s.results := by
  rw [h.frame]; rfl

/-- The ways a command ends: it waits for its supply, it raises an error with the RESULT registers untouched, or it
completes with no error of its own. -/
inductive Ended (i : Instr) (s : State) : State → Prop where
  | waits : Ended i s s
  | raised (e : ErrCode) (u : State) (hres : u.results = s.results) : Ended i s (raiseError e i u)
  | completed (u : State) (herr : u.err = s.err ∨ u.err = none) : Ended i s (complete u)

/-- Every command ends in one of these ways. -/
theorem exec_ended {i : Instr} {s t : State} (h : exec i s = .next t) : Ended i s t := by
  have hraised (e : ErrCode) : Ended i s (raiseError e i s) := .raised e s rfl
  cases i with
  | nop | qClear | qLoadFreq => cases h; exact .completed _ (.inl rfl)
  | sessionReset | clearError => cases h; exact .completed _ (.inr rfl)
  | qEnqLeaf sym =>
    obtain ⟨-, rfl⟩ | ⟨-, -, -, rfl⟩ | ⟨-, -, -, -, rfl⟩ := exec_qEnqLeaf_cases h
    · exact hraised _
    · exact hraised _
    · exact .completed _ (.inl rfl)
  | qPeek =>
    obtain ⟨-, rfl⟩ | ⟨n, q, -, rfl⟩ := exec_qPeek_cases h
    · exact hraised _
    · exact .completed _ (.inl rfl)
  | qDequeue =>
    obtain ⟨-, rfl⟩ | ⟨n, st, -, rfl⟩ := exec_qDequeue_cases h
    · exact hraised _
    · exact .completed _ (.inl rfl)
  | qMerge =>
    obtain ⟨-, rfl⟩ | ⟨n, st, -, ⟨-, rfl⟩ | ⟨-, rfl⟩⟩ := exec_qMerge_cases h
    · exact hraised _
    · exact hraised _
    · exact .completed _ (.inl rfl)
  | treeBuild =>
    obtain ⟨-, rfl⟩ | ⟨r, st, -, ⟨-, rfl⟩ | ⟨-, rfl⟩⟩ := exec_treeBuild_cases h
    · exact hraised _
    · exact hraised _
    · exact .completed _ (.inl rfl)
  | ctDerive =>
    obtain ⟨-, rfl⟩ | ⟨r, -, rfl⟩ := exec_ctDerive_cases h
    · exact hraised _
    · exact .completed _ (.inl rfl)
  | measure f =>
    obtain ⟨rfl, -⟩ | ⟨-, rfl⟩ := exec_measure_cases h
    · exact .waits
    · obtain ⟨m, q, -, -, h' | ⟨r, st, -, h'⟩⟩ := measureRun_cases f s
      · rw [h']; exact .raised _ _ rfl
      · rw [h']; exact .completed _ (.inl rfl)
  | compress force =>
    obtain ⟨rfl, -⟩ | ⟨-, rfl⟩ | rfl | ⟨-, rfl⟩ := exec_compress_cases h
    · exact .waits
    · exact .raised _ _ rfl
    · exact .completed _ (.inl rfl)
    · obtain ⟨q, -, h' | h'⟩ := compressRun_cases force s
      · rw [h']; exact .raised _ _ rfl
      · rw [h']; exact .completed _ (.inl rfl)
  | decompress =>
    obtain ⟨rfl, -⟩ | ⟨-, rfl⟩ := exec_decompress_cases h
    · exact .waits
    · obtain ⟨u, hu, ⟨e, -, h'⟩ | h'⟩ := decompressRun_cases s
      · rw [h']; exact .raised e u hu.results
      · rw [h']; exact .completed _ (.inl hu.control.1)

/-- Settles O52: only a raise leaves an error where there was none, and a raise writes no result (R321). -/
theorem errorsKeepResults : Obligations.ErrorsKeepResults := by
  intro i s t e hs h he
  cases exec_ended h with
  | waits => simp [hs] at he
  | raised e' u hres => simpa [State.results] using hres
  | completed u herr =>
    rw [complete_err] at he
    obtain herr | herr := herr <;> simp [herr, hs] at he

/-! ### CTRL, ARG0 and CT_SEL (R47, R50, R54) -/

/-- The registers a host write sets and no running command does: IRQ_EN, ARG0 and CT_SEL. -/
def State.hostRegisters (s : State) := (s.irqEn, s.arg0, s.ctSel)

/-- Every command but SESSION_RESET leaves the host's registers alone. -/
theorem exec_hostRegisters {i : Instr} {s t : State} (h : exec i s = .next t) (hi : i ≠ .sessionReset) :
    t.hostRegisters = s.hostRegisters := by
  cases i with
  | sessionReset => exact absurd rfl hi
  | nop | clearError | qClear | qLoadFreq => cases h; rfl
  | qEnqLeaf sym => obtain ⟨-, rfl⟩ | ⟨-, -, -, rfl⟩ | ⟨-, -, -, -, rfl⟩ := exec_qEnqLeaf_cases h <;> rfl
  | qPeek => obtain ⟨-, rfl⟩ | ⟨n, q, -, rfl⟩ := exec_qPeek_cases h <;> rfl
  | qDequeue => obtain ⟨-, rfl⟩ | ⟨n, st, -, rfl⟩ := exec_qDequeue_cases h <;> rfl
  | qMerge => obtain ⟨-, rfl⟩ | ⟨n, st, -, ⟨-, rfl⟩ | ⟨-, rfl⟩⟩ := exec_qMerge_cases h <;> rfl
  | treeBuild => obtain ⟨-, rfl⟩ | ⟨r, st, -, ⟨-, rfl⟩ | ⟨-, rfl⟩⟩ := exec_treeBuild_cases h <;> rfl
  | ctDerive => obtain ⟨-, rfl⟩ | ⟨r, -, rfl⟩ := exec_ctDerive_cases h <;> rfl
  | measure f =>
    obtain ⟨rfl, -⟩ | ⟨-, rfl⟩ := exec_measure_cases h
    · rfl
    · obtain ⟨m, q, -, -, h' | ⟨r, st, -, h'⟩⟩ := measureRun_cases f s <;> (rw [h']; rfl)
  | compress force =>
    obtain ⟨rfl, -⟩ | ⟨-, rfl⟩ | rfl | ⟨-, rfl⟩ := exec_compress_cases h
    · rfl
    · rfl
    · rfl
    · obtain ⟨q, -, h' | h'⟩ := compressRun_cases force s <;> (rw [h']; rfl)
  | decompress =>
    obtain ⟨rfl, -⟩ | ⟨-, rfl⟩ := exec_decompress_cases h
    · rfl
    · obtain ⟨u, hu, ⟨e, -, h'⟩ | h'⟩ := decompressRun_cases s <;>
        (rw [h']; simp [State.hostRegisters, hu.control])

/-- Settles O55: SESSION_RESET keeps CTRL (R301), every other command the three registers. -/
theorem hostRegistersKept : Obligations.HostRegistersKept := by
  intro i s t h
  by_cases hi : i = .sessionReset
  · subst hi
    cases h
    exact ⟨rfl, fun hne => absurd rfl hne⟩
  · have hkept := exec_hostRegisters h hi
    simp only [State.hostRegisters, Prod.mk.injEq] at hkept
    obtain ⟨hirq, hrest⟩ := hkept
    exact ⟨hirq, fun _ => hrest⟩

/-! ### MEASURED (R40) -/

/-- What each command makes of MEASURED (R40). -/
def MeasuredAfter (i : Instr) (s t : State) : Prop :=
  match i with
  | .measure _ => True
  | .sessionReset | .qClear | .qLoadFreq => t.measured = false
  | .treeBuild => t.measured = false ∨ (t.err ≠ none ∧ t.measured = s.measured)
  | .decompress => t = s ∨ t.measured = false
  | .nop | .clearError | .qEnqLeaf _ | .qPeek | .qDequeue | .qMerge | .ctDerive | .compress _ => t.measured = s.measured

theorem exec_measuredAfter {i : Instr} {s t : State} (h : exec i s = .next t) : MeasuredAfter i s t := by
  cases i with
  | measure f => trivial
  | nop | sessionReset | clearError | qClear | qLoadFreq => cases h; rfl
  | qEnqLeaf sym => obtain ⟨-, rfl⟩ | ⟨-, -, -, rfl⟩ | ⟨-, -, -, -, rfl⟩ := exec_qEnqLeaf_cases h <;> rfl
  | qPeek => obtain ⟨-, rfl⟩ | ⟨n, q, -, rfl⟩ := exec_qPeek_cases h <;> rfl
  | qDequeue => obtain ⟨-, rfl⟩ | ⟨n, st, -, rfl⟩ := exec_qDequeue_cases h <;> rfl
  | qMerge => obtain ⟨-, rfl⟩ | ⟨n, st, -, ⟨-, rfl⟩ | ⟨-, rfl⟩⟩ := exec_qMerge_cases h <;> rfl
  | treeBuild =>
    obtain ⟨-, rfl⟩ | ⟨r, st, -, ⟨-, rfl⟩ | ⟨-, rfl⟩⟩ := exec_treeBuild_cases h
    · exact .inr ⟨by simp, rfl⟩
    · exact .inr ⟨by simp, rfl⟩
    · exact .inl rfl
  | ctDerive => obtain ⟨-, rfl⟩ | ⟨r, -, rfl⟩ := exec_ctDerive_cases h <;> rfl
  | compress force =>
    obtain ⟨rfl, -⟩ | ⟨-, rfl⟩ | rfl | ⟨-, rfl⟩ := exec_compress_cases h
    · rfl
    · rfl
    · rfl
    · obtain ⟨q, -, h' | h'⟩ := compressRun_cases force s <;> (rw [h']; rfl)
  | decompress =>
    obtain ⟨rfl, -⟩ | ⟨-, rfl⟩ := exec_decompress_cases h
    · exact .inl rfl
    · obtain ⟨u, hu, ⟨e, -, h'⟩ | h'⟩ := decompressRun_cases s <;>
        (rw [h']; exact .inr hu.session.2.2)

/-- Settles O54: the rows of R40, command by command. -/
theorem measuredOnlyByMeasure : Obligations.MeasuredOnlyByMeasure := by
  intro i s t h
  have hm := exec_measuredAfter h
  cases i with
  | measure f => exact ⟨fun _ => .inr ⟨f, rfl⟩, by simp⟩
  | sessionReset | qClear | qLoadFreq => simp [show t.measured = false from hm]
  | treeBuild =>
    obtain hm | ⟨herr, hm⟩ := hm
    · simp [hm]
    · simp [hm, herr]
  | decompress =>
    obtain rfl | hm := hm
    · simp
    · simp [hm]
  | nop | clearError | qEnqLeaf | qPeek | qDequeue | qMerge | ctDerive | compress =>
    simp [show t.measured = s.measured from hm]

end Sys2Proof.Machine
end

section
/-!
PROOFS. The register map, the code table window, STATUS and the reset values (R32, R48, R54, R57).
-/

namespace Sys2Proof.Machine

/-! ### The register map (R32, R35, R70) -/

/-- Past the named registers: the code table window's words, FREQ, and reserved words. -/
theorem regOfIndex_of_ge {j : Nat} (hj : 27 ≤ j) (par : Params) : regOfIndex par j =
    if 32 ≤ j ∧ j < 40 then .ctBits (j - 32)
    else if 256 ≤ j ∧ j < 512 ∧ j - 256 < par.alphSize then .freq (j - 256)
    else .reserved := by
  obtain ⟨k, rfl⟩ := Nat.exists_eq_add_of_le' hj
  rfl

theorem regOfIndex_ctBits {k : Nat} (hk : k < 8) (par : Params) : regOfIndex par (32 + k) = .ctBits k := by
  rw [regOfIndex_of_ge (by omega), if_pos (by omega), Nat.add_sub_cancel_left]

theorem regOfIndex_freq {x : Nat} (hx : x < 256) (par : Params) :
    regOfIndex par (256 + x) = if x < par.alphSize then .freq x else .reserved := by
  have hrange : 256 ≤ 256 + x ∧ 256 + x < 512 ∧ x < par.alphSize ↔ x < par.alphSize := by omega
  rw [regOfIndex_of_ge (by omega), if_neg (by omega), Nat.add_sub_cancel_left]
  simp only [hrange]

theorem regOfIndex_reserved {j : Nat} (hj : (27 ≤ j ∧ j < 32) ∨ (40 ≤ j ∧ j < 256) ∨ 512 ≤ j) (par : Params) :
    regOfIndex par j = .reserved := by
  rw [regOfIndex_of_ge (by omega), if_neg (by omega), if_neg (by omega)]

theorem regAt_ctBits {k : Nat} (hk : k < 8) (par : Params) :
    regAt par (BitVec.ofNat 12 (0x080 + 4 * k)) = .ctBits k := by
  rw [regAt_index par _ (32 + k) (by omega) (by omega), regOfIndex_ctBits hk]

/-- Clearing offset bits [1:0] does not change the word index. -/
theorem offset_align_shift (a : Offset) : (a &&& 0xFFC#12) >>> 2 = a >>> 2 := by
  have hmask : ∀ i < 10, (0xFFC#12).getLsbD (2 + i) = true := by decide
  ext i hi
  simp only [BitVec.getElem_ushiftRight, BitVec.getLsbD_and]
  by_cases h : 2 + i < 12
  · rw [hmask i (by omega), Bool.and_true]
  · rw [BitVec.getLsbD_of_ge a _ (by omega), Bool.false_and]

/-- Offset bits [1:0] are not decoded (R70). -/
theorem regAt_align (par : Params) (a : Offset) : regAt par (a &&& 0xFFC#12) = regAt par a := by
  have hindex := congrArg BitVec.toNat (offset_align_shift a)
  simp only [BitVec.toNat_ushiftRight, Nat.shiftRight_eq_div_pow] at hindex
  exact congrArg (regOfIndex par) hindex

/-! ### What the registers read at reset (R57) -/

theorem highWord_zero : highWord 0 = 0 := by decide

/-- STATUS shows no parameter, so its reset value is that of the default machine. -/
theorem statusWord_resetWith (p : Params) : statusWord (State.resetWith p) = 0 := by
  have hpar : statusWord (State.resetWith p) = statusWord State.reset := rfl
  rw [hpar]
  decide

theorem windowCode_resetWith (p : Params) : windowCode (State.resetWith p) = none := by
  unfold windowCode
  split <;> rfl

/-- At reset every register but the five constants reads 0. -/
theorem regValue_resetWith (p : Params) {r : Reg} (hr : r ∉ [.id, .param, .magic, .tagCounts, .tagTree]) :
    regValue (State.resetWith p) r = 0#32 := by
  cases r with
  | id | param | magic | tagCounts | tagTree => simp at hr
  | status => exact statusWord_resetWith p
  | ctInfo => simp [regValue, ctInfoWord, windowCode_resetWith]
  | ctBits k => simp [regValue, ctBitsWord, windowCode_resetWith]
  | origBitsHi | acctBitsHi | savingsHi | bitsWrittenHi | inBitsHi => exact highWord_zero
  | _ => rfl

/-- At reset the word at each index of the register space. -/
theorem regValue_resetWith_index (p : Params) (j : Nat) :
    regValue (State.resetWith p) (regOfIndex p j) =
      if j = 0 then 0x48544231#32
      else if j = 1 then BitVec.ofNat 32 p.w
      else if j = 22 then p.magic
      else if j = 23 then p.tagCounts
      else if j = 24 then p.tagTree
      else 0#32 := by
  by_cases hconst : j ∈ [0, 1, 22, 23, 24]
  · simp only [List.mem_cons, List.not_mem_nil, or_false] at hconst
    obtain rfl | rfl | rfl | rfl | rfl := hconst <;> rfl
  · simp only [List.mem_cons, List.not_mem_nil, or_false, not_or] at hconst
    obtain ⟨h0, h1, h22, h23, h24⟩ := hconst
    simp only [h0, h1, h22, h23, h24, if_false]
    refine regValue_resetWith p ?_
    by_cases hj : j < 27
    · interval_cases j <;> simp_all [regOfIndex]
    · rw [regOfIndex_of_ge (by omega)]
      split_ifs <;> simp

/-- Settles O11: the map by word index (R32), then the reset value of each register. -/
theorem registerMapAtReset : Obligations.RegisterMapAtReset := by
  refine ⟨fun par a => (regAt_align par a).symm, fun par => by simp [regAt, regOfIndex], fun par a ha => ?_,
    fun par k hk => regAt_ctBits hk par, fun par x hx => ?_, fun par a => regValue_resetWith_index par _⟩
  · exact regOfIndex_reserved (by omega) par
  · rw [regAt_index par _ (256 + x) (by omega) (by omega), regOfIndex_freq hx]

/-- Settles O15: every field of the reset state is the literal R57 gives. -/
theorem resetState : Obligations.ResetState := by
  refine ⟨rfl, rfl, fun p => ⟨rfl, rfl, rfl, statusWord_resetWith p, ?_⟩⟩
  simp [State.resetWith, regAt, regOfIndex, regValue, irq, Ports.reset]

/-! ### The code table window (R54) -/

/-- Bit n - 1 - i of a string's value is its bit i (R9). -/
theorem testBit_bitsToNat {b : List Bool} {i : Nat} (hi : i < b.length) :
    (bitsToNat b).testBit (b.length - 1 - i) = b.getD i false := by
  induction b generalizing i with
  | nil => cases hi
  | cons x b ih =>
    rw [bitsToNat_cons, Nat.mul_comm, Nat.testBit_two_pow_mul_add _ (bitsToNat_lt b)]
    cases i with
    | zero => cases x <;> simp
    | succ i =>
      have hib : i < b.length := by simpa using hi
      rw [List.length_cons, if_pos (by omega), List.getD_cons_succ, ← ih hib]
      congr 1
      omega

theorem padTake_getD {n i : Nat} (hi : i < n) (b : List Bool) : (padTake n b).getD i false = b.getD i false := by
  by_cases hb : i < b.length
  · simp [padTake, List.getD_eq_getElem?_getD, List.getElem?_append, hi, hb]
  · have htake : (b.take n).length ≤ i := by simp; omega
    rw [padTake, List.getD_append_right _ _ _ _ htake, List.getD_eq_default _ _ (not_lt.1 hb),
      List.getD_eq_getElem?_getD, List.getElem?_getD_replicate_default_eq]

/-- The window is open where `SEL <= EOS` and the entry is valid. -/
theorem windowCode_eq_some {s : State} {c : List Bool} :
    windowCode s = some c ↔ s.ctSel.toNat ≤ s.par.eos ∧ codeGet s.ct s.ctSel.toNat = some c := by
  unfold windowCode
  split <;> simp [*]

theorem windowCode_eq_none {s : State} :
    windowCode s = none ↔ s.ctSel.toNat > s.par.eos ∨ codeGet s.ct s.ctSel.toNat = none := by
  unfold windowCode
  split <;> simp <;> omega

/-- CT_BITS[k] holds code bits 32k to 32k + 31, the first in bit 31. -/
theorem ctBitsWord_getLsbD {s : State} {c : List Bool} (h : windowCode s = some c) (k : Nat) {i : Nat} (hi : i < 32) :
    (ctBitsWord s k).getLsbD (31 - i) = c.getD (32 * k + i) false := by
  have hbit := testBit_bitsToNat (b := padTake 32 (c.drop (32 * k))) (i := i) (by simpa using hi)
  rw [padTake_length, padTake_getD hi] at hbit
  simp only [ctBitsWord, h, BitVec.getLsbD_ofNat, show 31 - i < 32 by omega, decide_true, Bool.true_and]
  rw [hbit]
  simp [List.getD_eq_getElem?_getD, Nat.add_comm]

/-- CT_INFO of a valid entry: VALID, zeros, LEN. -/
theorem ctInfoWord_fields {s : State} {c : List Bool} (h : windowCode s = some c) :
    (ctInfoWord s).getLsbD 31 = true ∧ (ctInfoWord s).extractLsb' 16 15 = 0
      ∧ (ctInfoWord s).extractLsb' 0 16 = BitVec.ofNat 16 c.length := by
  have hlow : ∀ i < 31, (0x80000000#32).getLsbD i = false := by decide
  simp only [ctInfoWord, h]
  generalize BitVec.ofNat 16 c.length = len
  refine ⟨by simp, ?_, ?_⟩
  · ext i hi
    simp [hlow (16 + i) (by omega)]
  · ext i hi
    have hbit := hlow i (by omega)
    rw [BitVec.getLsbD_eq_getElem (by omega)] at hbit
    simp [hbit, show i < 32 by omega, BitVec.getLsbD_eq_getElem hi]

/-- Settles O13: the write, the read, then the two registers of the window by whether it is open. -/
theorem codeTableWindow : Obligations.CodeTableWindow := by
  refine ⟨fun s v hb => ?_, fun s a hb => ?_, fun p => rfl, fun s => ⟨rfl, fun hnone => ?_, fun c hsel hc => ?_⟩⟩
  · simp [memWrite, hb, regAt, regOfIndex, writeReg]
  · simp [memRead, hb]
  · have hw := windowCode_eq_none.2 hnone
    refine ⟨?_, fun k hk => ?_⟩
    · show ctInfoWord s = 0
      simp [ctInfoWord, hw]
    · rw [regAt_ctBits hk]
      simp [regValue, ctBitsWord, hw]
  · have hw := windowCode_eq_some.2 ⟨hsel, hc⟩
    obtain ⟨hvalid, hzero, hlen⟩ := ctInfoWord_fields hw
    refine ⟨hvalid, hzero, hlen, fun k i hk hi => ?_⟩
    rw [regAt_ctBits hk]
    exact ctBitsWord_getLsbD hw k hi

/-! ### STATUS (R48, R320) -/

/-- A flag at the low end of a word is its bit 0. -/
theorem getLsbD_append_ofBool_zero {n : Nat} (x : BitVec n) (b : Bool) : (x ++ BitVec.ofBool b).getLsbD 0 = b := by
  rw [BitVec.getLsbD_append]
  simp

/-- A flag at the low end of a word moves the other bits up by one. -/
theorem getLsbD_append_ofBool_succ {n : Nat} (x : BitVec n) (b : Bool) (k : Nat) :
    (x ++ BitVec.ofBool b).getLsbD (k + 1) = x.getLsbD k := by
  rw [BitVec.getLsbD_append]
  simp

/-- Above its ten flags STATUS holds zeros, ERRCODE and ERR_OP. -/
theorem statusWord_getLsbD_above_flags (s : State) (k : Nat) :
    (statusWord s).getLsbD (k + 10) = (s.errOp ++ errCodeField s.err ++ 0#6).getLsbD k := by
  simp only [statusWord, getLsbD_append_ofBool_succ]

theorem statusWord_reserved (s : State) : (statusWord s).extractLsb' 10 6 = 0 := by
  ext i hi
  rw [BitVec.getElem_extractLsb', Nat.add_comm, statusWord_getLsbD_above_flags, BitVec.getLsbD_append]
  simp [hi]

theorem statusWord_errCode (s : State) : (statusWord s).extractLsb' 16 8 = errCodeField s.err := by
  ext i hi
  rw [BitVec.getElem_extractLsb', show 16 + i = i + 6 + 10 by omega, statusWord_getLsbD_above_flags,
    BitVec.getLsbD_append, BitVec.getLsbD_append]
  simp [hi]

theorem statusWord_errOp (s : State) : (statusWord s).extractLsb' 24 8 = s.errOp := by
  ext i hi
  rw [BitVec.getElem_extractLsb', show 24 + i = i + 8 + 6 + 10 by omega, statusWord_getLsbD_above_flags,
    BitVec.getLsbD_append, BitVec.getLsbD_append]
  simp [BitVec.getLsbD_eq_getElem hi]

theorem errCodeField_eq_zero {e : Option ErrCode} : errCodeField e = 0 ↔ e = none := by
  cases e with
  | none => simp [errCodeField]
  | some e => cases e <;> simp [errCodeField, ErrCode.code]

/-- Settles O12: the flags bit by bit, then the fields above them. -/
theorem statusWordFields : Obligations.StatusWordFields := by
  intro s
  have hflags : (statusWord s).getLsbD 0 = busy s ∧ (statusWord s).getLsbD 1 = s.done
      ∧ (statusWord s).getLsbD 2 = s.err.isSome ∧ (statusWord s).getLsbD 3 = s.measured
      ∧ (statusWord s).getLsbD 4 = fmtFlag s.hdrFmt ∧ (statusWord s).getLsbD 5 = s.root.isSome
      ∧ (statusWord s).getLsbD 6 = s.ctValid ∧ (statusWord s).getLsbD 7 = s.dropped
      ∧ (statusWord s).getLsbD 8 = s.tlenMismatch ∧ (statusWord s).getLsbD 9 = irq s := by
    simp only [statusWord, getLsbD_append_ofBool_zero, getLsbD_append_ofBool_succ, and_self]
  obtain ⟨h0, h1, h2, h3, h4, h5, h6, h7, h8, h9⟩ := hflags
  have hfmt : fmtFlag s.hdrFmt = true ↔ s.hdrFmt = .tree := by cases s.hdrFmt <;> simp [fmtFlag]
  have hcode : (statusWord s).extractLsb' 16 8 = 0 ↔ s.err = none := by
    rw [statusWord_errCode, errCodeField_eq_zero]
  refine ⟨h0, h1, ?_, h3, ?_, ?_, h6, h7, h8, h9, statusWord_reserved s, hcode, statusWord_errOp s, ?_, rfl⟩
  · rw [h2, Ne, hcode, Option.isSome_iff_ne_none]
  · rw [h4, hfmt]
  · rw [h5, Option.isSome_iff_exists]
  · intro e c hec he
    rw [statusWord_errCode, he]
    cases e <;> simp_all [errCodeField, ErrCode.code]

end Sys2Proof.Machine
end

section
/-!
PROOFS. What a host access reads and changes, and the script events that are host accesses (R32, R71, R72, R80).
-/

namespace Sys2Proof.Machine

/-! ### Host accesses (R32, R71) -/

/-- The stable registers: the two that read 0, then those R71 lists. -/
theorem stableReg_iff {r : Reg} : stableReg r = true ↔
    (r = .reserved ∨ r = .cmd) ∨ r ∈ [.id, .param, .ctrl, .status, .magic, .tagCounts, .tagTree] := by
  cases r <;> simp [stableReg]

/-- R71's three cases of a read, in its order. -/
theorem memRead_eq (a : Offset) (s : State) :
    memRead a s =
      if regAt s.par a = .reserved ∨ regAt s.par a = .cmd then { s with reads := s.reads ++ [0#32] }
      else if busy s = true ∧ regAt s.par a ∉ [.id, .param, .ctrl, .status, .magic, .tagCounts, .tagTree] then
        { s with reads := s.reads ++ [Config.busyRead s.draws], draws := s.draws + 1 }
      else { s with reads := s.reads ++ [regValue s (regAt s.par a)] } := by
  have hstable := stableReg_iff (r := regAt s.par a)
  unfold memRead
  by_cases hzero : regAt s.par a = .reserved ∨ regAt s.par a = .cmd
  · have hvalue : regValue s (regAt s.par a) = 0#32 := by obtain h | h := hzero <;> rw [h] <;> rfl
    rw [if_pos hzero, hstable.2 (.inl hzero), hvalue]
    simp
  · rw [if_neg hzero]
    refine if_congr ?_ rfl rfl
    rw [Bool.and_eq_true, Bool.not_eq_true', ← Bool.not_eq_true, hstable, not_or, and_iff_right hzero]

theorem memWrite_busy (a : Offset) (v : Word) {s : State} (h : busy s = true) : memWrite a v s = drop s := if_pos h

theorem memWrite_idle (a : Offset) (v : Word) {s : State} (h : busy s = false) :
    memWrite a v s = writeReg (regAt s.par a) v s := by
  rw [memWrite, h]; rfl

/-- CTRL reads as its one bit (R47). -/
theorem ctrlWord_eq (s : State) : ctrlWord s = if s.irqEn then 1#32 else 0#32 := by
  unfold ctrlWord
  cases s.irqEn <;> rfl

theorem regAt_freqEntry {x : Nat} (hx : x < 256) {par : Params} (hn : x < par.alphSize) :
    regAt par (BitVec.ofNat 12 (0x400 + 4 * x)) = .freq x := by
  rw [regAt_index par _ (256 + x) (by omega) (by omega), regOfIndex_freq hx, if_pos hn]

/-! ### Script events (R80, R359) -/

theorem step_of_script {s : State} {e : Event} {es : List Event} (h : s.script = e :: es) :
    step s = eventStep e { s with script := es } := by
  simp only [step, h]

theorem hostRead_in (a : Offset) (s : State) : hostRead (s.par.htbBase + a.toNat) s = memRead a s := by
  rw [hostRead, busOffset_in]

theorem hostWrite_in (a : Offset) (v : Word) (s : State) :
    hostWrite (s.par.htbBase + a.toNat) v s = memWrite a v s := by
  rw [hostWrite, busOffset_in]

theorem hostRead_out {addr : Nat} {s : State} (h : addr < s.par.htbBase ∨ s.par.htbBase + 4096 ≤ addr) :
    hostRead addr s = s := by
  rw [hostRead, busOffset_out h]

theorem hostWrite_out {addr : Nat} (v : Word) {s : State}
    (h : addr < s.par.htbBase ∨ s.par.htbBase + 4096 ≤ addr) : hostWrite addr v s = s := by
  rw [hostWrite, busOffset_out h]

/-- Settles O10: R71's read and write, the word of each register, FREQ's entries, then the script's events. -/
theorem hostAccessEffects : Obligations.HostAccessEffects := by
  refine ⟨memRead_eq, fun a v s hb => memWrite_busy a v hb, fun a v s hb => ?_, fun s => ?_, fun s x hx hn => ?_,
    fun m x y v => freqGet_set m x y v, fun s a h => by rw [h]; rfl, fun s a es h => ?_, fun s a v es h => ?_,
    fun s addr es hout h => ?_, fun s bs es h => step_of_script h⟩
  · rw [memWrite_idle a v hb]
    cases regAt s.par a <;> rfl
  · refine ⟨rfl, rfl, ctrlWord_eq s, ?_⟩
    and_intros <;> rfl
  · rw [regAt_freqEntry hx hn]; rfl
  · rw [step_of_script h]
    exact congrArg Host.Outcome.next (hostRead_in a { s with script := es })
  · rw [step_of_script h]
    exact congrArg Host.Outcome.next (hostWrite_in a v { s with script := es })
  · obtain h | ⟨v, h⟩ := h <;> rw [step_of_script h]
    · exact congrArg Host.Outcome.next (hostRead_out hout)
    · exact congrArg Host.Outcome.next (hostWrite_out v hout)

end Sys2Proof.Machine
end

section
/-!
PROOFS. The bytes of a written string, and how the stream commands wait for their supply and release their ports (R72,
R75, R78).
-/

namespace Sys2Proof.Machine

/-! ### Bit packing (R75) -/

/-- The whole bytes are sent while writing, the padded rest by the flush. -/
theorem flush_writeCode (c : List Bool) {p : Ports} (h : p.outPend = []) :
    flush (writeCode c p) = { p with
      bitsWritten := p.bitsWritten + BitVec.ofNat 64 c.length, log := p.log ++ (packBytes c).map .byte } := by
  obtain ⟨rest, inPos, inBits, pend, written, log⟩ := p
  obtain rfl : pend = [] := h
  rw [writeCode_eq c _ (by simp), packBytes_eq]
  by_cases hrest : c.drop (8 * (c.length / 8)) = []
  · simp [flush, hrest]
  · simp [flush, hrest]

/-- A string no longer than n is padded with zeros up to n (R75). -/
theorem padTake_of_ge {n : Nat} {b : List Bool} (h : b.length ≤ n) :
    padTake n b = b ++ List.replicate (n - b.length) false := by
  rw [padTake, List.take_of_length_le h]

/-- The packed bytes read back as the string and the zeros of its last byte, eight bits at a time. -/
theorem supplyBits_packBytes (c : List Bool) :
    supplyBits (packBytes c) = c ++ List.replicate (8 * ((c.length + 7) / 8) - c.length) false := by
  by_cases hshort : c.length < 8
  · rw [packBytes_short hshort]
    split_ifs with hnil
    · subst hnil; rfl
    · have hpos : 0 < c.length := List.length_pos_iff.2 hnil
      have hone : (c.length + 7) / 8 = 1 := by omega
      rw [supplyBits_cons, supplyBits_nil, List.append_nil, byteBits_packByte padTake_length,
        padTake_of_ge (by omega), hone]
  · have hlen : (c.take 8).length = 8 := by rw [List.length_take]; omega
    have hbytes : packBytes c = packByte (c.take 8) :: packBytes (c.drop 8) := by
      rw [← packBytes_cons8 hlen, List.take_append_drop]
    have hpad : 8 * (((c.drop 8).length + 7) / 8) - (c.drop 8).length = 8 * ((c.length + 7) / 8) - c.length := by
      rw [List.length_drop]; omega
    rw [hbytes, supplyBits_cons, byteBits_packByte hlen, supplyBits_packBytes (c.drop 8), hpad, ← List.append_assoc,
      List.take_append_drop]
termination_by c.length
decreasing_by rw [List.length_drop]; omega

/-- Settles O39: what is sent, how many bytes, and what they read back as. -/
theorem bitPacking : Obligations.BitPacking :=
  fun c _ hp => ⟨flush_writeCode c hp, packBytes_length c, supplyBits_packBytes c⟩

/-! ### Waiting for a supply (R72) -/

theorem exec_measure_waits {s : State} (h : s.supplies = []) (f : HdrFmt) : exec (.measure f) s = .next s := by
  simp only [exec, execMeasure, h]

theorem exec_decompress_waits {s : State} (h : s.supplies = []) : exec .decompress s = .next s := by
  simp only [exec, execDecompress, h]

theorem writesStream_iff {force : Bool} {s : State} :
    writesStream force s = true ↔ 0 < s.savings.toInt ∨ force = true := by
  simp [writesStream]

theorem exec_compress_waits {s : State} {force : Bool} (h : s.supplies = []) (hm : s.measured = true)
    (hw : writesStream force s = true) : exec (.compress force) s = .next s := by
  simp [exec, execCompress, h, hm, hw]

/-- Settles O41, one command each. -/
theorem streamCommandsWaitForSupply : Obligations.StreamCommandsWaitForSupply :=
  fun _ h => ⟨exec_measure_waits h, exec_decompress_waits h,
    fun _ hm hw => exec_compress_waits h hm (writesStream_iff.2 hw)⟩

/-! ### Releasing the ports (R78, R321) -/

theorem exec_measure_closed {f : HdrFmt} {s t : State} (h : exec (.measure f) s = .next t) (hne : t ≠ s) :
    Closed s.ports t.ports [.closeIn] := by
  obtain ⟨rfl, -⟩ | ⟨-, rfl⟩ := exec_measure_cases h
  · exact absurd rfl hne
  · obtain ⟨m, q, hq, -, hends⟩ := measureRun_cases f s
    have hclosed : Closed s.ports (closeIn q) [.closeIn] := closed_closeIn hq
    obtain h | ⟨r, st, -, h⟩ := hends <;> (rw [h]; exact hclosed)

/-- Every way COMPRESS ends runs the close sequence on what it has written, BITS_WRITTEN counted from 0. -/
theorem exec_compress_closed {force : Bool} {s t : State} (h : exec (.compress force) s = .next t) (hne : t ≠ s) :
    Closed s.ports t.ports [.closeOut, .closeIn] := by
  have hclosed : ∀ q, Wrote (uncounted s.ports) q →
      Closed s.ports (closeSequence (.compress force) q) [.closeOut, .closeIn] :=
    fun q hq => closed_closeSequence (p := uncounted s.ports) _ (.inl ⟨force, rfl⟩) hq
  obtain ⟨rfl, -⟩ | ⟨-, rfl⟩ | rfl | ⟨-, rfl⟩ := exec_compress_cases h
  · exact absurd rfl hne
  · exact hclosed _ (compressStart_out s).wrote
  · exact hclosed _ (compressStart_out s).wrote
  · obtain ⟨q, hq, hends⟩ := compressRun_cases force s
    have hq' : Wrote (uncounted s.ports) q := (compressStart_out s).wrote.trans hq
    obtain h | h := hends <;> (rw [h]; exact hclosed q hq')

theorem exec_decompress_closed {s t : State} (h : exec .decompress s = .next t) (hne : t ≠ s) :
    Closed s.ports t.ports [.closeOut, .closeIn] := by
  obtain ⟨rfl, -⟩ | ⟨-, rfl⟩ := exec_decompress_cases h
  · exact absurd rfl hne
  · obtain ⟨u, hu, hends⟩ := decompressRun_cases s
    have hclosed : Closed s.ports (closeSequence .decompress u.ports) [.closeOut, .closeIn] :=
      closed_closeSequence (p := uncounted s.ports) _ (.inr rfl) hu.grew
    obtain ⟨e, -, h⟩ | h := hends <;> (rw [h]; exact hclosed)

/-- From an empty packer a close leaves no pending bit. -/
theorem Closed.released {p q : Ports} {tail : List PortEvent} (h : Closed p q tail) (hp : p.outPend = []) :
    q.rest = [] ∧ q.inPos = 0 ∧ q.outPend = []
      ∧ ∃ bytes : List Byte, q.log = p.log ++ bytes.map .byte ++ tail := by
  obtain ⟨hrest, hpos, hpend, hlog⟩ := h
  exact ⟨hrest, hpos, hpend hp, hlog⟩

/-- Settles O40, one stream command each. -/
theorem streamCommandsClosePorts : Obligations.StreamCommandsClosePorts := by
  intro i s t hi h hne hp
  cases i with
  | measure f => exact (exec_measure_closed h hne).released hp
  | compress force => exact (exec_compress_closed h hne).released hp
  | decompress => exact (exec_decompress_closed h hne).released hp
  | _ => cases hi

end Sys2Proof.Machine
end

section
/-!
PROOFS. Command words: the decoder refuses what R103's checks refuse and inverts the encoder, the opcode table covers
what decodes, and what presenting an ill-formed word does (R100 to R103).
-/

namespace Sys2Proof

open Machine

/-! ### Fields of a word (R100) -/

/-- Two words are equal when their three fields are. -/
theorem word_ext_iff {v w : Word} : v = w ↔ cmdOp v = cmdOp w ∧ cmdRsv v = cmdRsv w ∧ cmdImm v = cmdImm w := by
  constructor
  · rintro rfl; exact ⟨rfl, rfl, rfl⟩
  · rintro ⟨hop, hrsv, himm⟩
    rw [← word_eq_fields v, ← word_eq_fields w, hop, hrsv, himm]

theorem cmdOp_and (v w : Word) : cmdOp (v &&& w) = cmdOp v &&& cmdOp w := BitVec.extractLsb'_and

theorem cmdRsv_and (v w : Word) : cmdRsv (v &&& w) = cmdRsv v &&& cmdRsv w := BitVec.extractLsb'_and

theorem cmdImm_and (v w : Word) : cmdImm (v &&& w) = cmdImm v &&& cmdImm w := BitVec.extractLsb'_and

theorem cmdImm_extractLsb' (v : Word) : (cmdImm v).extractLsb' 1 15 = v.extractLsb' 1 15 := by
  ext k hk
  simp [cmdImm]

/-- Masking bit 0 away leaves bits 15 to 1 in place. -/
theorem and_not_one_eq_append (m : BitVec 16) : m &&& ~~~1#16 = (m.extractLsb' 1 15 ++ 0#1 : BitVec (15 + 1)) := by
  apply BitVec.eq_of_getLsbD_eq
  intro k hk
  rw [BitVec.getLsbD_append, BitVec.getLsbD_and, BitVec.getLsbD_not, BitVec.getLsbD_one]
  cases k with
  | zero => simp
  | succ k =>
    have hlt : k < 15 := by omega
    simp [hk, hlt, Nat.add_comm 1 k]

/-- Bits 15 to 1 of an immediate, masked or cut out (R101). -/
theorem and_not_one_eq_zero_iff (m : BitVec 16) : m &&& ~~~1#16 = 0 ↔ m.extractLsb' 1 15 = 0 := by
  rw [and_not_one_eq_append]
  exact BitVec.append_left_inj (s₂ := 0#15) 0#1

theorem and_not_zero (m : BitVec 16) : m &&& ~~~0#16 = m := BitVec.and_allOnes

theorem and_not_ones (m : BitVec 16) : m &&& ~~~0xFFFF#16 = 0 := BitVec.and_zero

/-! ### R103's three checks -/

theorem illFormed_eq_none_iff {v : Word} : illFormed v = none ↔
    ∃ m, immMask (cmdOp v) = some m ∧ cmdRsv v = 0 ∧ cmdImm v &&& ~~~m = 0 := by
  unfold illFormed
  cases immMask (cmdOp v) with
  | none => simp
  | some m =>
    simp only [Option.some.injEq, exists_eq_left']
    split_ifs <;> simp_all

/-- The checks on a word whose OP is in R102. -/
theorem illFormed_of_immMask {v : Word} {m : BitVec 16} (h : immMask (cmdOp v) = some m) :
    illFormed v = if cmdRsv v ≠ 0 then some .reservedField
      else if cmdImm v &&& ~~~m ≠ 0 then some .strayImmediate else none := by
  rw [illFormed, h]

theorem decodePlain_eq {v : Word} (h : immMask (cmdOp v) = some 0#16) (i : Instr) :
    decodePlain v i = (illFormed v).elim (.ok i) .error := by
  rw [illFormed_of_immMask h, decodePlain, and_not_zero]
  split_ifs <;> rfl

theorem decodeBit_eq {v : Word} (h : immMask (cmdOp v) = some 1#16) (mk : Bool → Instr) :
    decodeBit v mk = (illFormed v).elim (.ok (mk ((cmdImm v).getLsbD 0))) .error := by
  rw [illFormed_of_immMask h, decodeBit]
  simp only [ne_eq, and_not_one_eq_zero_iff]
  split_ifs <;> rfl

/-- The decoder answers with the failed check, or with a command. -/
theorem decode_eq (v : Word) : ∃ i, decode v = (illFormed v).elim (.ok i) .error := by
  unfold decode
  split
  -- Q_ENQ_LEAF, MEASURE, COMPRESS, an undefined OP, then the commands without operand.
  case h_5 h =>
    refine ⟨.qEnqLeaf (cmdImm v), ?_⟩
    rw [illFormed_of_immMask (congrArg immMask (cmdOp_of_toNat h)), and_not_ones, if_neg (not_not.2 rfl)]
    split_ifs <;> rfl
  case h_12 h => exact ⟨_, decodeBit_eq (congrArg immMask (cmdOp_of_toNat h)) _⟩
  case h_13 h => exact ⟨_, decodeBit_eq (congrArg immMask (cmdOp_of_toNat h)) _⟩
  case h_15 =>
    have hmask : immMask (cmdOp v) = none := by
      unfold immMask
      split <;> simp_all
    exact ⟨.nop, by rw [illFormed, hmask]; rfl⟩
  all_goals exact ⟨_, decodePlain_eq (congrArg immMask (cmdOp_of_toNat ‹_›)) _⟩

/-- The decoder refuses a word by the first of R103's checks that it fails. -/
theorem decode_error_iff {v : Word} {e : IllFormed} : decode v = .error e ↔ illFormed v = some e := by
  obtain ⟨i, hi⟩ := decode_eq v
  rw [hi]
  cases illFormed v <;> simp

theorem illFormed_of_decode {v : Word} {i : Instr} (h : decode v = .ok i) : illFormed v = none := by
  cases hill : illFormed v with
  | none => rfl
  | some e => rw [decode_error_iff.2 hill] at h; cases h

/-! ### The decoder inverts the encoder (R100 to R102) -/

theorem decode_encode (i : Instr) : decode (encode i) = .ok i := by
  cases i with
  | qEnqLeaf sym =>
    rw [decode, cmdOp_encode, cmdRsv_encode, cmdImm_encode]
    rfl
  | measure f => cases f <;> rfl
  | compress force => cases force <;> rfl
  | _ => rfl

/-- Settles O2, command by command. -/
theorem decodeOfEncode : Obligations.DecodeOfEncode := decode_encode

/-- A word with a command's three fields is the command's word. -/
theorem encode_eq_of_fields {v : Word} {i : Instr} (hop : cmdOp v = i.opcode) (hrsv : cmdRsv v = 0)
    (himm : cmdImm v = i.imm) : encode i = v := by
  rw [word_ext_iff, cmdOp_encode, cmdRsv_encode, cmdImm_encode]
  exact ⟨hop.symm, hrsv.symm, himm.symm⟩

theorem encode_of_decodePlain {v : Word} {i j : Instr} (hop : cmdOp v = i.opcode) (himm : i.imm = 0)
    (h : decodePlain v i = .ok j) : encode j = v := by
  obtain ⟨hrsv, hzero, rfl⟩ := decodePlain_ok h
  exact encode_eq_of_fields hop hrsv (hzero.trans himm.symm)

theorem encode_of_decode {v : Word} {i : Instr} (h : decode v = .ok i) : encode i = v := by
  unfold decode at h
  split at h
  -- Q_ENQ_LEAF, MEASURE, COMPRESS, an undefined OP, then the commands without operand.
  case h_5 hop =>
    obtain ⟨hrsv, rfl⟩ : cmdRsv v = 0 ∧ .qEnqLeaf (cmdImm v) = i := by
      split_ifs at h with hrsv
      exact ⟨not_not.1 hrsv, Except.ok.inj h⟩
    exact encode_eq_of_fields (cmdOp_of_toNat hop) hrsv rfl
  case h_12 hop =>
    obtain ⟨hrsv, b, himm, rfl⟩ := decodeBit_ok h
    refine encode_eq_of_fields (cmdOp_of_toNat hop) hrsv (himm.trans ?_)
    cases b <;> rfl
  case h_13 hop =>
    obtain ⟨hrsv, b, himm, rfl⟩ := decodeBit_ok h
    exact encode_eq_of_fields (cmdOp_of_toNat hop) hrsv himm
  case h_15 => cases h
  all_goals exact encode_of_decodePlain (cmdOp_of_toNat ‹_›) rfl h

/-- Settles O3, opcode by opcode. -/
theorem encodeOfDecode : Obligations.EncodeOfDecode := fun _ _ => encode_of_decode

/-! ### The opcode table (R102) -/

/-- Each row fixes OP, RSV = 0 and the immediate bits that R101 does not give its command. -/
theorem opcodeTable_row : ∀ r ∈ opcodeTable, immMask (cmdOp r.mtch) = some (~~~cmdImm r.mask)
    ∧ (cmdRsv r.mtch = 0 ∧ cmdImm r.mtch = 0)
    ∧ cmdOp r.mask = BitVec.allOnes 8 ∧ cmdRsv r.mask = BitVec.allOnes 8 := by
  decide

/-- A row covers the well-formed words of its opcode. -/
theorem covers_iff {r : OpcodeRow} (hr : r ∈ opcodeTable) (v : Word) :
    r.covers v = true ↔ cmdOp v = cmdOp r.mtch ∧ illFormed v = none := by
  obtain ⟨hmask, ⟨hrsv, himm⟩, hopOnes, hrsvOnes⟩ := opcodeTable_row r hr
  have hfields : r.covers v = true ↔ cmdOp v = cmdOp r.mtch ∧ cmdRsv v = 0 ∧ cmdImm v &&& cmdImm r.mask = 0 := by
    rw [OpcodeRow.covers, beq_iff_eq, word_ext_iff, cmdOp_and, cmdRsv_and, cmdImm_and, hopOnes, hrsvOnes, hrsv, himm,
      BitVec.and_allOnes, BitVec.and_allOnes]
  rw [hfields]
  refine and_congr_right fun hop => ?_
  simp [illFormed_eq_none_iff, hop, hmask]

/-- The rows with a command's opcode are its one row. -/
theorem opcodeTable_filter_opcode (i : Instr) :
    (opcodeTable.filter fun r => i.opcode == cmdOp r.mtch).map OpcodeRow.mnemonic = [i.mnemonic] := by
  cases i <;> rfl

/-- Settles O5: a row covers the well-formed words of its opcode, and one row has the opcode of a command. -/
theorem opcodeTableAgrees : Obligations.OpcodeTableAgrees := by
  refine ⟨fun v i h => ?_, fun v e h => ?_⟩
  · have hop : cmdOp v = i.opcode := by rw [← encode_of_decode h, cmdOp_encode]
    rw [← opcodeTable_filter_opcode i, List.filter_congr fun r hr => ?_]
    rw [Bool.eq_iff_iff, covers_iff hr, hop, beq_iff_eq]
    exact and_iff_left (illFormed_of_decode h)
  · refine List.filter_eq_nil_iff.2 fun r hr hcovers => ?_
    have hnone := ((covers_iff hr v).1 hcovers).2
    rw [decode_error_iff.1 h] at hnone
    cases hnone

/-! ### Which words are ill-formed (R102, R103) -/

theorem immMask_eq_none_iff {op : BitVec 8} : immMask op = none ↔
    op ∉ [0x00#8, 0x01#8, 0x02#8, 0x10#8, 0x11#8, 0x12#8, 0x13#8, 0x14#8, 0x15#8, 0x16#8, 0x20#8, 0x30#8, 0x31#8,
      0x32#8] := by
  revert op
  decide

/-- The immediate bits of an opcode of R102 (R101). -/
theorem immMask_eq_some {op : BitVec 8} (h : immMask op ≠ none) :
    immMask op = some (if op = 0x11#8 then 0xFFFF#16 else if op ∈ [0x30#8, 0x31#8] then 1#16 else 0#16) := by
  revert op
  decide

/-- A stray immediate bit, by the operand of the opcode: none, one bit, or all 16 (R101). -/
theorem strayImmediate_iff {op : BitVec 8} (h : immMask op ≠ none) (imm : BitVec 16) :
    (∃ m, immMask op = some m ∧ imm &&& ~~~m ≠ 0) ↔
      (op ∉ [0x11#8, 0x30#8, 0x31#8] ∧ imm ≠ 0) ∨ (op ∈ [0x30#8, 0x31#8] ∧ imm.extractLsb' 1 15 ≠ 0) := by
  simp only [immMask_eq_some h, Option.some.injEq, exists_eq_left']
  by_cases henq : op = 0x11#8
  · simp [henq]
  · by_cases hbit : op ∈ [0x30#8, 0x31#8]
    · have hmem : op ∈ [0x11#8, 0x30#8, 0x31#8] := List.mem_cons_of_mem _ hbit
      rw [if_neg henq, if_pos hbit, ne_eq, and_not_one_eq_zero_iff]
      simp only [hmem, hbit, not_true, false_and, true_and, false_or, ne_eq]
    · have hmem : op ∉ [0x11#8, 0x30#8, 0x31#8] := List.not_mem_cons_of_ne_of_not_mem henq hbit
      rw [if_neg henq, if_neg hbit, and_not_zero]
      simp only [hmem, hbit, not_false_iff, false_and, true_and, or_false]

theorem decode_refuses_iff {v : Word} : (∃ e, decode v = .error e) ↔
    immMask (cmdOp v) = none ∨ cmdRsv v ≠ 0 ∨ ∃ m, immMask (cmdOp v) = some m ∧ cmdImm v &&& ~~~m ≠ 0 := by
  simp only [decode_error_iff]
  cases hmask : immMask (cmdOp v) with
  | none => simp [illFormed, hmask]
  | some m =>
    rw [illFormed_of_immMask hmask]
    split_ifs <;> simp_all

/-- Settles O1: the words are those of the encoder, and an OP outside R102 has no immediate bits. -/
theorem commandWordsDecode : Obligations.CommandWordsDecode := by
  refine ⟨decode_encode .nop, decode_encode .sessionReset, decode_encode .clearError, decode_encode .qClear,
    fun sym => encode_qEnqLeaf sym ▸ decode_encode (.qEnqLeaf sym), decode_encode .qPeek, decode_encode .qDequeue,
    decode_encode .qMerge, decode_encode .qLoadFreq, decode_encode .treeBuild, decode_encode .ctDerive,
    decode_encode (.measure .counts), decode_encode (.measure .tree), decode_encode (.compress false),
    decode_encode (.compress true), decode_encode .decompress, fun v hop => ?_⟩
  have hmask : immMask (cmdOp v) = none := immMask_eq_none_iff.2 hop
  rw [decode_error_iff, illFormed, hmask]

/-! ### Presenting an ill-formed word (R322, R323) -/

theorem presentCommand_illFormed {v : Word} {s : State} {e : IllFormed} (h : decode v = .error e)
    (herr : s.err = none) : presentCommand v s = raiseIllegal v s := by
  rw [presentCommand, herr, h]; rfl

theorem presentCommand_dropped {v : Word} {s : State} {c : ErrCode} (hctl : controlWord v = false)
    (herr : s.err = some c) : presentCommand v s = drop s := by
  rw [presentCommand, herr, hctl]; rfl

/-- The three control words are well-formed. -/
theorem controlWord_of_decode_error {v : Word} {e : IllFormed} (h : decode v = .error e) : controlWord v = false := by
  by_contra hctl
  simp only [controlWord, Bool.not_eq_false, Bool.or_eq_true, beq_iff_eq] at hctl
  obtain (rfl | rfl) | rfl := hctl <;> cases h

/-- While BUSY = 0 the engine is idle already. -/
theorem raiseIllegal_of_not_busy (v : Word) {s : State} (hb : busy s = false) :
    raiseIllegal v s = { s with err := some .illegalCommand, errOp := cmdOp v, done := true } := by
  rw [raiseIllegal, ← engine_of_not_busy hb]

theorem exec_qEnqLeaf_above_eos {sym : Symbol} {s : State} (h : sym.toNat > s.par.eos) :
    exec (.qEnqLeaf sym) s = .next (raiseError .badArgument (.qEnqLeaf sym) s) := if_pos h

/-- Settles O4: R103's checks one by one, the two cases of presenting an ill-formed word, R136's first check. -/
theorem illFormedWords : Obligations.IllFormedWords := by
  refine ⟨fun v => ?_, fun v s e h hb herr => ?_, fun v s e c h hb herr => ?_,
    fun sym => encode_qEnqLeaf sym ▸ decode_encode (.qEnqLeaf sym), fun sym s => exec_qEnqLeaf_above_eos⟩
  · rw [decode_refuses_iff, immMask_eq_none_iff]
    refine or_congr_right' fun hop => or_congr_right ?_
    rw [strayImmediate_iff (mt immMask_eq_none_iff.1 hop), cmdImm_extractLsb']
    rfl
  · rw [memWrite_cmd s v hb, presentCommand_illFormed h herr, raiseIllegal_of_not_busy v hb]
    rfl
  · rw [memWrite_cmd s v hb, presentCommand_dropped (controlWord_of_decode_error h) herr]
    rfl

end Sys2Proof
end

section
/-!
PROOFS. The queue: where Enqueue puts a node, first-in-first-out among ties, and the queue commands (R130 to R139).
-/

namespace Sys2Proof.Machine

/-! ### Where Enqueue puts a node (R131, R139) -/

/-- Settles O24: the split of R131 on a sorted queue is the split by weight. -/
theorem enqueuePosition : Obligations.EnqueuePosition := by
  intro n q hs
  obtain ⟨a, b, rfl, he, ha, hb⟩ := enqueue_split_sorted (n := n) hs
  have hlight : (a ++ b).filter (fun x => decide (x.wt ≤ n.wt)) = a := by
    rw [List.filter_append, List.filter_eq_self.2 (by simpa using ha), List.filter_eq_nil_iff.2 (by simpa using hb),
      List.append_nil]
  have hheavy : (a ++ b).filter (fun x => decide (n.wt < x.wt)) = b := by
    rw [List.filter_append, List.filter_eq_nil_iff.2 (by simpa using ha), List.filter_eq_self.2 (by simpa using hb),
      List.nil_append]
  rw [he, hlight, hheavy]

/-- Enqueue moves no queued node: what a filter keeps of the others stays in its order. -/
theorem filter_enqueue_of_not {p : HuffTree → Bool} {n : HuffTree} (hn : ¬ p n) (q : List HuffTree) :
    (enqueue n q).filter p = q.filter p := by
  obtain ⟨a, b, rfl, he, -, -⟩ := enqueue_split n q
  rw [he, List.filter_append, List.filter_cons_of_neg hn, ← List.filter_append]

/-- A node enqueued stands behind the nodes of its weight: those after it are heavier. -/
theorem filter_enqueue_ties {n : HuffTree} {q : List HuffTree} (h : queueSorted q) :
    (enqueue n q).filter (fun x => decide (x.wt = n.wt)) = q.filter (fun x => decide (x.wt = n.wt)) ++ [n] := by
  obtain ⟨a, b, rfl, he, -, hb⟩ := enqueue_split_sorted (n := n) h
  have hnone : b.filter (fun x => decide (x.wt = n.wt)) = [] :=
    List.filter_eq_nil_iff.2 fun x hx => by simpa using (BitVec.ne_of_lt (hb x hx)).symm
  rw [he, List.filter_append, List.filter_append, List.filter_cons_of_pos (by simp), hnone, List.append_nil]

/-- Settles O25: Enqueue by whether the weight is the new node's, Dequeue by what it takes off. -/
theorem fifoAmongTies : Obligations.FifoAmongTies := by
  refine ⟨fun n q w hs => ?_, fun st st' n w hd => ?_⟩
  · by_cases hw : n.wt = w
    · subst hw
      rw [filter_enqueue_ties hs, if_pos rfl]
    · rw [filter_enqueue_of_not (by simpa using hw), if_neg hw, List.append_nil]
  · obtain ⟨q, hq, rfl⟩ := dequeue_eq_some.1 hd
    rw [hq]
    by_cases hw : n.wt = w
    · rw [List.filter_cons_of_pos (by simpa using hw), if_pos hw, List.singleton_append]
    · rw [List.filter_cons_of_neg (by simpa using hw), if_neg hw, List.nil_append]

/-! ### The queue commands (R135 to R138) -/

/-- Settles O20: R135 has no condition; its updates one after another are the state written out. -/
theorem qClearCommand : Obligations.QClearCommand := ⟨rfl, fun _ => rfl⟩

/-- The zero-extended weight is 0 when the register is (R136). -/
theorem weightOperand_eq_zero_iff {s : State} : weightOperand s = 0 ↔ s.arg0 = 0 := by
  rw [weightOperand, BitVec.zeroExtend, ← BitVec.toNat_inj, ← BitVec.toNat_inj, BitVec.toNat_setWidth_of_le (by decide)]
  rfl

/-- R136's four checks, two for each error it can raise. -/
theorem exec_qEnqLeaf (sym : Symbol) (s : State) : exec (.qEnqLeaf sym) s =
    if symbolOperand sym > s.par.eos ∨ weightOperand s = 0 then .next (raiseError .badArgument (.qEnqLeaf sym) s)
    else if s.nodes.queue.length = s.par.qcap ∨ s.nodes.used = s.par.nodeCap then
      .next (raiseError .capacity (.qEnqLeaf sym) s)
    else .next (complete { s with
      nodes := allocEnqueue s.nodes (.leaf sym (weightOperand s)),
      result0 := BitVec.ofNat 32 (allocEnqueue s.nodes (.leaf sym (weightOperand s))).queue.length }) := by
  rw [ite_or, ite_or]
  rfl

/-- Settles O21: ARG0 is zero-extended, and Enqueue makes the queue one longer. -/
theorem qEnqLeafCommand : Obligations.QEnqLeafCommand := by
  refine ⟨encode_qEnqLeaf, fun s sym => ?_⟩
  simp only [exec_qEnqLeaf, weightOperand_eq_zero_iff, allocEnqueue_queue, enqueue_length]
  rfl

theorem exec_qPeek_of_nil {s : State} (h : s.nodes.queue = []) :
    exec .qPeek s = .next (raiseError .emptyQueue .qPeek s) := by
  rw [exec, execQPeek, h]

theorem exec_qPeek_of_cons {s : State} {n : HuffTree} {q : List HuffTree} (h : s.nodes.queue = n :: q) :
    exec .qPeek s = .next (complete (setNodeResults n s)) := by
  rw [exec, execQPeek, h]

/-- Settles O22: by whether the queue is empty, then the two kinds of node. -/
theorem qPeekCommand : Obligations.QPeekCommand :=
  ⟨rfl, fun _ h => exec_qPeek_of_nil h, fun _ _ _ h => exec_qPeek_of_cons h, fun _ _ => ⟨rfl, rfl⟩,
    fun _ _ _ => ⟨rfl, rfl⟩⟩

theorem exec_qDequeue_of_nil {s : State} (h : s.nodes.queue = []) :
    exec .qDequeue s = .next (raiseError .emptyQueue .qDequeue s) := by
  rw [exec, execQDequeue, dequeue_eq_none.2 h]

theorem exec_qDequeue_of_cons {s : State} {n : HuffTree} {q : List HuffTree} (h : s.nodes.queue = n :: q) :
    exec .qDequeue s = .next (complete (setNodeResults n { s with nodes := { s.nodes with queue := q } })) := by
  rw [exec, execQDequeue, dequeue_eq_some.2 ⟨q, h, rfl⟩]

/-- Settles O23: by whether the queue is empty. -/
theorem qDequeueCommand : Obligations.QDequeueCommand :=
  ⟨rfl, fun _ h => exec_qDequeue_of_nil h, fun _ _ _ h => exec_qDequeue_of_cons h⟩

end Sys2Proof.Machine
end

section
/-!
PROOFS. The tree builder: BuildTree and LoadFreq, the tree they make of FREQ, and the commands (R160 to R168).
-/

namespace Sys2Proof.Machine

/-! ### BuildTree (R164) -/

/-- With one node queued the loop makes no turn. -/
theorem buildTree_singleton {st : NodeStore} {n : HuffTree} (h : st.queue = [n]) :
    buildTree st = some (n, { queue := [], used := st.used }) := by
  rw [buildTree, h]
  exact dequeue_eq_some.2 ⟨[], h, rfl⟩

/-- The loop's first turn merges, and the rest of the loop is BuildTree of the queue so made. -/
theorem buildTree_merge {st st' : NodeStore} {n : HuffTree} (h : merge st = some (n, st')) :
    buildTree st = buildTree st' := by
  obtain ⟨hlen, -⟩ := merge_counts h
  obtain ⟨k, hk⟩ : ∃ k, st'.queue.length = k + 1 := by
    obtain ⟨a, b, q, -, -, rfl⟩ := merge_eq_some.1 h
    exact ⟨q.length, enqueue_length _ q⟩
  rw [buildTree, buildTree, ← hlen, hk, Nat.add_sub_cancel, Nat.add_sub_cancel, mergeLoop, h]

/-- Settles O30: no turn on one node, one merge on more, and the merges lose no leaf. -/
theorem buildTreeFromQueue : Obligations.BuildTreeFromQueue := by
  refine ⟨fun n u => buildTree_singleton rfl, fun a b q u => buildTree_merge rfl, fun st hne => ?_⟩
  obtain ⟨r, hr, -⟩ := buildTree_of_ne_nil hne
  exact ⟨r, hr, buildTree_leaves hr⟩

/-! ### LoadFreq (R162) -/

/-- Nodes of one weight stand in the order they were enqueued (R139). -/
theorem filter_foldl_allocEnqueue (w : Weight) (ls : List HuffTree) (st : NodeStore) (hs : queueSorted st.queue) :
    (ls.foldl allocEnqueue st).queue.filter (fun x => decide (x.wt = w)) =
      st.queue.filter (fun x => decide (x.wt = w)) ++ ls.filter (fun x => decide (x.wt = w)) := by
  induction ls generalizing st with
  | nil => rw [List.foldl_nil, List.filter_nil, List.append_nil]
  | cons x ls ih =>
    rw [List.foldl_cons, ih _ (queueSorted_enqueue hs), allocEnqueue_queue, fifoAmongTies.1 x st.queue w hs,
      List.append_assoc]
    congr 1
    by_cases hx : x.wt = w
    · rw [if_pos hx, List.filter_cons_of_pos (by simpa using hx), List.singleton_append]
    · rw [if_neg hx, List.filter_cons_of_neg (by simpa using hx), List.nil_append]

theorem loadFreq_used (par : Params) (m : Memory) : (loadFreq par m).used = (loadFreq par m).queue.length := by
  obtain ⟨hperm, hused, -⟩ := loadFreq_spec par m
  rw [hused, hperm.length_eq]

/-- Settles O28: enqueued one after another on an empty queue, the leaf set is sorted with its ties in order. -/
theorem loadFreqLeafSet : Obligations.LoadFreqLeafSet := by
  intro par m
  obtain ⟨hperm, -, hsorted⟩ := loadFreq_spec par m
  refine ⟨hsorted, fun w => ?_, loadFreq_used par m, hperm.length_eq.trans_le (freqLeaves_length_le par m)⟩
  rw [← freqLeaves_eq, loadFreq, filter_foldl_allocEnqueue w _ NodeStore.empty List.Pairwise.nil]
  rfl

/-- One leaf for each nonzero entry of FREQ, and EOS. -/
theorem freqLeaves_length (par : Params) (m : Memory) : (freqLeaves par m).length =
    ((List.range par.alphSize).filter (fun s => decide (freqGet m s ≠ 0))).length + 1 := by
  rw [freqLeaves_eq, List.length_append, List.length_map, List.length_singleton]

/-- An all-zero FREQ gives the EOS leaf alone (R163). -/
theorem freqLeaves_of_zero {par : Params} {m : Memory} (h : ∀ x, x < par.alphSize → freqGet m x = 0) :
    freqLeaves par m = [.leaf (BitVec.ofNat 16 par.eos) 1] := by
  have hnone : (List.range par.alphSize).filter (fun s => decide (freqGet m s ≠ 0)) = [] :=
    List.filter_eq_nil_iff.2 fun x hx => by simpa using h x (List.mem_range.1 hx)
  rw [freqLeaves_eq, hnone, List.map_nil, List.nil_append]

/-- A FREQ with no zero gives QCAP leaves (R163). -/
theorem freqLeaves_length_of_nonzero {par : Params} {m : Memory} (h : ∀ x, x < par.alphSize → freqGet m x ≠ 0) :
    (freqLeaves par m).length = par.qcap := by
  have hall : (List.range par.alphSize).filter (fun s => decide (freqGet m s ≠ 0)) = List.range par.alphSize :=
    List.filter_eq_self.2 fun x hx => decide_eq_true (h x (List.mem_range.1 hx))
  rw [freqLeaves_length, hall, List.length_range, Params.qcap]

/-! ### The tree of FREQ (R168) -/

/-- The zero entries of FREQ add nothing to the sum. -/
theorem sum_filter_freqGet (m : Memory) (l : List Nat) :
    ((l.filter (fun s => decide (freqGet m s ≠ 0))).map (fun s => (freqGet m s).toNat)).sum =
      (l.map (fun s => (freqGet m s).toNat)).sum := by
  induction l with
  | nil => rfl
  | cons x l ih =>
    by_cases hx : freqGet m x = 0
    · rw [List.filter_cons_of_neg (by simpa using hx), List.map_cons, List.sum_cons, ih, hx]
      exact (Nat.zero_add _).symm
    · rw [List.filter_cons_of_pos (by simpa using hx), List.map_cons, List.map_cons, List.sum_cons, List.sum_cons, ih]

/-- A zero-extended entry of FREQ weighs what the entry counts. -/
theorem toNat_zeroExtend_freqGet (m : Memory) (s : Nat) :
    ((freqGet m s).zeroExtend 64).toNat = (freqGet m s).toNat := BitVec.toNat_setWidth_of_le (by decide)

/-- The root weighs the sum of FREQ and EOS's 1: its weights are exact, so no sum on the way has wrapped (R166). -/
theorem buildTree_loadFreq_wt {par : Params} (hl : par.legal = true) {m : Memory} {r st}
    (h : buildTree (loadFreq par m) = some (r, st)) : r.wt.toNat = freqTotal par m + 1 := by
  have hsum := ((buildTree_loadFreq_leaves h).map (fun e => e.2.toNat)).sum_eq
  rw [r.wt_eq_sum (buildTree_loadFreq_exact hl h), hsum, freqTotal, ← sum_filter_freqGet, List.map_append,
    List.sum_append, List.map_map]
  simp only [Function.comp_def, toNat_zeroExtend_freqGet]
  rfl

/-- Settles O31: the leaves are LoadFreq's, and count, weight and depth follow from them. -/
theorem treeFromFrequencies : Obligations.TreeFromFrequencies := by
  intro par m hl
  obtain ⟨r, hr⟩ := buildTree_loadFreq par m
  have hst := buildTree_loadFreq_store par m hr
  have hleaves := buildTree_loadFreq_leaves hr
  have hcount : r.leafCount = ((List.range par.alphSize).filter (fun s => decide (freqGet m s ≠ 0))).length + 1 := by
    rw [← r.leaves_length, hleaves.length_eq, List.length_append, List.length_map, List.length_singleton]
  obtain ⟨-, hqcap⟩ := buildTree_loadFreq_size hr
  have hdepth : r.depth ≤ r.leafCount - 1 := Nat.le_sub_one_of_lt r.depth_lt_leafCount
  exact ⟨r, _, hr, rfl, congrArg NodeStore.used hst, hcount, hleaves, buildTree_loadFreq_exact hl hr,
    buildTree_loadFreq_wt hl hr, hdepth, hdepth.trans (Nat.sub_le_of_le_add hqcap)⟩

/-! ### The commands (R161, R163, R165) -/

theorem exec_qMerge_of_none {s : State} (h : merge s.nodes = none) :
    exec .qMerge s = .next (raiseError .emptyQueue .qMerge s) := by
  rw [exec, execQMerge, h]

theorem exec_qMerge_of_some {s : State} {n : HuffTree} {st : NodeStore} (h : merge s.nodes = some (n, st)) :
    exec .qMerge s =
      if s.nodes.used = s.par.nodeCap then .next (raiseError .capacity .qMerge s)
      else .next (complete (setNodeResults n { s with nodes := st })) := by
  rw [exec, execQMerge, h]

/-- Settles O26: by whether two nodes are queued; the new node is internal, so its descriptor is 0. -/
theorem qMergeCommand : Obligations.QMergeCommand :=
  ⟨rfl, fun _ h => exec_qMerge_of_none (merge_eq_none.2 h),
    fun _ a b q h => exec_qMerge_of_some (merge_eq_some.2 ⟨a, b, q, h, rfl, rfl⟩)⟩

/-- Settles O27: R163 has no condition; the two special queues are those of their leaf sets. -/
theorem qLoadFreqCommand : Obligations.QLoadFreqCommand := by
  refine ⟨rfl, fun _ => rfl, fun par m h => ?_, fun par m h => ?_⟩
  · rw [loadFreq, freqLeaves_of_zero h]
    rfl
  · rw [(loadFreq_spec par m).1.length_eq, freqLeaves_length_of_nonzero h]

theorem exec_treeBuild_of_nil {s : State} (h : s.nodes.queue = []) :
    exec .treeBuild s = .next (raiseError .emptyQueue .treeBuild s) := by
  rw [exec, execTreeBuild, buildTree_eq_none.2 h]

theorem exec_treeBuild_of_some {s : State} {r : HuffTree} {st : NodeStore} (h : buildTree s.nodes = some (r, st)) :
    exec .treeBuild s =
      if s.nodes.used + s.nodes.queue.length - 1 > s.par.nodeCap then .next (raiseError .capacity .treeBuild s)
      else .next (complete (setNodeResults r
        { clearCodeTable s with nodes := st, root := some r, measured := false })) := by
  rw [exec, execTreeBuild, h]

/-- Settles O29: by whether the queue is empty, then by the capacity check; BuildTree answers on every other queue. -/
theorem treeBuildCommand : Obligations.TreeBuildCommand := by
  refine ⟨rfl, fun s h => exec_treeBuild_of_nil h, fun s hne hcap => ?_, fun s n hq hcap => ?_,
    fun s hne hcap => ?_⟩
  · obtain ⟨r, hr, -⟩ := buildTree_of_ne_nil hne
    rw [exec_treeBuild_of_some hr, if_pos hcap]
    rfl
  · have hroom : ¬ s.nodes.used + s.nodes.queue.length - 1 > s.par.nodeCap := by
      rw [hq]
      exact not_lt.2 hcap
    rw [exec_treeBuild_of_some (buildTree_singleton hq), if_neg hroom]
    rfl
  · obtain ⟨r, hr, -⟩ := buildTree_of_ne_nil hne
    rw [← Nat.add_sub_assoc (List.length_pos_iff.2 hne)] at hr
    refine ⟨r, hr, ?_⟩
    rw [exec_treeBuild_of_some hr, if_neg (not_lt.2 hcap)]
    rfl

end Sys2Proof.Machine
end

section
/-!
PROOFS. The code table: the derived codes are leaf paths, none begins another, they fill the code space and fit MAXCODE;
CT_DERIVE (R190 to R195).
-/

namespace Sys2Proof.Machine

/-! ### Codes are leaf paths (R190, R194) -/

/-- Derive starts from a cleared table, so CT[x] is the last path the walk enters for x. -/
theorem codeGet_deriveCodes (t : HuffTree) (x : Nat) :
    codeGet (deriveCodes t) x =
      (((t.pathsFrom []).filter (fun e => decide (e.1 = x))).getLast?).map Prod.snd := by
  rw [deriveCodes_eq, foldl_codeSet_get]
  cases ((t.pathsFrom []).filter (fun e => decide (e.1 = x))).getLast? <;> rfl

/-- Settles O33: the walk keeps the table rising, and the last path it enters for a symbol stands. -/
theorem codesAreLeafPaths : Obligations.CodesAreLeafPaths :=
  fun t => ⟨deriveCodes_wf t, codeGet_deriveCodes t⟩

/-! ### No code begins another, and the code space (R193) -/

/-- The empty path leads to a leaf only where the root is that leaf. -/
theorem HuffTree.leafCount_of_follow_nil {t : HuffTree} {x : Nat} (h : t.follow [] = some x) : t.leafCount = 1 := by
  cases t with
  | leaf => rfl
  | node => simp [HuffTree.follow] at h

/-- Where the leaves' symbols are distinct the walk overwrites no entry: the table lists exactly the leaf paths. -/
theorem deriveCodes_perm_pathsFrom {t : HuffTree} (h : (t.leaves.map (fun e => e.1.toNat)).Nodup) :
    (deriveCodes t).Perm (t.pathsFrom []) := by
  rw [← HuffTree.pathsFrom_symbols t []] at h
  simpa [deriveCodes_eq] using foldl_codeSet_perm (t.pathsFrom []) [] h (by simp)

/-- Settles O34: codes lead to their leaves, and no leaf path begins the path of another symbol; the leaf paths fill
the code space. -/
theorem codesPrefixFree : Obligations.CodesPrefixFree := by
  refine ⟨fun t x y c d hc hd hxy hpre => ?_, fun t x c hcount hc hnil => ?_, fun t hnodup => ?_⟩
  · obtain ⟨hx, -⟩ := codeGet_mem hc
    obtain ⟨hy, -⟩ := codeGet_mem hd
    exact hxy (HuffTree.follow_prefix hx hy hpre)
  · subst hnil
    obtain ⟨hroot, -⟩ := codeGet_mem hc
    have hone := HuffTree.leafCount_of_follow_nil hroot
    omega
  · calc ((deriveCodes t).map (fun e => 2 ^ (t.depth - e.2.length))).sum
        = ((t.pathsFrom []).map (fun e => 2 ^ (t.depth - e.2.length))).sum :=
          ((deriveCodes_perm_pathsFrom hnodup).map _).sum_eq
      _ = 2 ^ t.depth := t.kraft [] t.depth (by simp)

/-! ### The length bound (R195) -/

/-- A tree that fits the node store has at most QCAP leaves and so at most MAXCODE levels. -/
theorem HuffTree.depth_le_maxCode {par : Params} {t : HuffTree} (h : t.size ≤ par.nodeCap) : t.depth ≤ par.maxCode := by
  have hsize := t.size_add_one
  have hdepth := t.depth_lt_leafCount
  simp only [Params.nodeCap, Params.qcap] at h
  simp only [Params.maxCode]
  omega

/-- In a sound store the tree at ROOT fits the node store. -/
theorem StoreSound.root_size {s : State} (h : StoreSound s) {t : HuffTree} (hr : s.root = some t) :
    t.size ≤ s.par.nodeCap := by
  have ht : t ∈ s.heldTrees := by simp [State.heldTrees, hr]
  calc t.size ≤ (s.heldTrees.map HuffTree.size).sum := List.le_sum_of_mem (List.mem_map_of_mem ht)
    _ ≤ s.nodes.used := h.counted
    _ ≤ s.par.nodeCap := h.storeFits

/-- Settles O35: the store counts the nodes of the tree at ROOT, which bounds its depth, and no code is longer. -/
theorem codeLengthBound : Obligations.CodeLengthBound := by
  intro s t hs hr
  have hdepth : t.depth ≤ s.par.maxCode := HuffTree.depth_le_maxCode (hs.root_size hr)
  obtain ⟨-, halph⟩ := Params.alphSize_bounds hs.legal
  refine ⟨hdepth, halph, fun x c hc => ?_⟩
  obtain ⟨-, hlen⟩ := codeGet_mem hc
  exact hlen.trans hdepth

/-! ### The command (R191) -/

theorem exec_ctDerive_of_none {s : State} (h : s.root = none) :
    exec .ctDerive s = .next (raiseError .preconditionViolation .ctDerive s) := by
  rw [exec, execCtDerive, h]

theorem exec_ctDerive_of_some {s : State} {t : HuffTree} (h : s.root = some t) :
    exec .ctDerive s = .next (complete
      { s with
        ct := deriveCodes t, ctValid := true,
        result0 := BitVec.ofNat 32 t.leafCount, result1 := BitVec.ofNat 32 t.depth, result2 := 0 }) := by
  rw [exec, execCtDerive, h]

/-- Settles O32: by whether there is a tree at ROOT; the leaf count is the number of leaves, the depth the longest leaf
path. -/
theorem ctDeriveCommand : Obligations.CtDeriveCommand := by
  refine ⟨rfl, fun s h => exec_ctDerive_of_none h, fun s t h => ?_⟩
  have hlongest : ((t.pathsFrom []).map (fun e => e.2.length)).foldl max 0 = t.depth := by
    simpa using t.longest_path [] 0
  rw [exec_ctDerive_of_some h, t.leaves_length, hlongest]
  rfl

end Sys2Proof.Machine
end

section
/-!
PROOFS. The header codec: how long a serialized tree is, and that a written payload of either format parses to what was
written and takes exactly its own bits off the supply (R211 to R217).
-/

namespace Sys2Proof.Machine

/-! ### The length of a serialized tree (R211) -/

/-- Each leaf has its bit and its symbol, each internal node its bit; there is one internal node fewer than leaves. -/
theorem treeBits_eq (par : Params) (t : HuffTree) :
    treeBits par t = t.leafCount * (1 + par.vw) + (t.leafCount - 1) := by
  induction t with
  | leaf s w => simp [treeBits, HuffTree.leafCount]
  | node w l r hl hr =>
    have hlpos := l.leafCount_pos
    have hrpos := r.leafCount_pos
    rw [treeBits, HuffTree.leafCount, hl, hr, Nat.add_mul]
    omega

@[simp] theorem treeString_length (par : Params) (t : HuffTree) : (treeString par t).length = treeBits par t := by
  induction t with
  | leaf s w => simp [treeString, treeBits, Nat.add_comm]
  | node w l r hl hr => simp only [treeString, treeBits, List.length_cons, List.length_append, hl, hr]; omega

/-- Settles O36: the formula and the length of the string, each by induction on the tree. -/
theorem treeBitsFormula : Obligations.TreeBitsFormula := fun par t => ⟨treeBits_eq par t, treeString_length par t⟩

/-! ### The COUNTS payload (R212, R213) -/

@[simp] theorem countsString_length (par : Params) (m : Memory) : (countsString par m).length = 32 * par.alphSize := by
  simp [countsString, List.length_flatMap, Nat.mul_comm]

/-- Settles O38: the reader sets FREQ entry by entry to the counts written, which gives a canonical FREQ back. -/
theorem countsPayloadRoundTrip : Obligations.CountsPayloadRoundTrip := by
  intro par m p more hwf hrest
  refine ⟨countsString_length par m, ?_⟩
  rw [parseCounts_string (List.range par.alphSize) (freqGet m) [] p more hrest, foldl_freqSet_self _ m hwf,
    List.length_range]

/-! ### The TREE payload (R214, R215) -/

/-- The ports after a read of `n` bits that leaves `more` unread. -/
def Ports.advance (p : Ports) (n : Nat) (more : List Bool) : Ports :=
  { p with rest := more, inPos := p.inPos + n, inBits := p.inBits + BitVec.ofNat 64 n }

@[simp] theorem Ports.advance_rest (p : Ports) (n : Nat) (more : List Bool) : (p.advance n more).rest = more := rfl

/-- Two reads after each other are one read of both. -/
@[simp] theorem Ports.advance_advance (p : Ports) (a b : Nat) (mid more : List Bool) :
    (p.advance a mid).advance b more = p.advance (a + b) more := by
  simp only [Ports.advance, counter_add, Nat.add_assoc]

/-- A symbol up to EOS fits a leaf value of VW = W + 1 bits. -/
theorem Params.lt_two_pow_vw {par : Params} {v : Nat} (h : v ≤ par.eos) : v < 2 ^ par.vw :=
  h.trans_lt (Nat.pow_lt_pow_succ (by decide))

/-- ParseNode at a leaf that fits the store. -/
theorem parseNode_leaf {par : Params} {s : Symbol} {used : Nat} {p : Ports} {more : List Bool} (k : Nat)
    (hsym : s.toNat ≤ par.eos) (hroom : used < par.nodeCap) (hrest : p.rest = true :: (bitsMsb par.vw s.toNat ++ more)) :
    parseNode par (k + 1) used p = .ok (.leaf s 0) (used + 1, p.advance (1 + par.vw) more) := by
  have hvalue : readBits par.vw (p.advance 1 (bitsMsb par.vw s.toNat ++ more)) =
      (some s.toNat, p.advance (1 + par.vw) more) := by
    rw [← Ports.advance_advance p 1 par.vw (bitsMsb par.vw s.toNat ++ more),
      readBits_append (Ports.advance_rest ..) (bitsMsb_length ..), bitsToNat_bitsMsb_of_lt (Params.lt_two_pow_vw hsym)]
    rfl
  rw [Ports.advance] at hvalue
  simp [parseNode, readBit_cons hrest, hvalue, not_lt.2 hsym, hroom.ne]

/-- ParseNode at an internal node that fits the store and whose children parse. -/
theorem parseNode_node {par : Params} {k used used' : Nat} {p q : Ports} {bits : List Bool} {l r : HuffTree}
    {last : Nat × Ports} (hroom : used < par.nodeCap) (hrest : p.rest = false :: bits)
    (hl : parseNode par k (used + 1) (p.advance 1 bits) = .ok l (used', q)) (hr : parseNode par k used' q = .ok r last) :
    parseNode par (k + 1) used p = .ok (.node 0 l r) last := by
  rw [Ports.advance] at hl
  simp [parseNode, readBit_cons hrest, hl, hr, hroom.ne]

theorem HuffTree.symbolsLegal_leaf_iff {par : Params} {s : Symbol} {w : Weight} :
    (HuffTree.leaf s w).symbolsLegal par = true ↔ s.toNat ≤ par.eos := by
  simp [HuffTree.symbolsLegal, HuffTree.leaves]

theorem HuffTree.symbolsLegal_node_iff {par : Params} {w : Weight} {l r : HuffTree} :
    (HuffTree.node w l r).symbolsLegal par = true ↔ l.symbolsLegal par = true ∧ r.symbolsLegal par = true := by
  simp only [HuffTree.symbolsLegal, HuffTree.leaves, List.all_append, Bool.and_eq_true]

/-- ParseNode undoes the preorder string of a tree with legal symbols that fits the store. -/
theorem parseNode_treeString {par : Params} {t : HuffTree} {used k : Nat} {p : Ports} {more : List Bool}
    (hsym : t.symbolsLegal par = true) (hfits : used + t.size ≤ par.nodeCap) (hdepth : t.depth < k)
    (hrest : p.rest = treeString par t ++ more) :
    parseNode par k used p = .ok t.strip (used + t.size, p.advance (treeBits par t) more) := by
  induction k generalizing t used p more with
  | zero => exact absurd hdepth (Nat.not_lt_zero _)
  | succ k ih =>
    cases t with
    | leaf s w => exact parseNode_leaf k (HuffTree.symbolsLegal_leaf_iff.1 hsym) hfits hrest
    | node w l r =>
      obtain ⟨hlsym, hrsym⟩ := HuffTree.symbolsLegal_node_iff.1 hsym
      simp only [HuffTree.size] at hfits
      simp only [HuffTree.depth] at hdepth
      rw [treeString, List.cons_append, List.append_assoc] at hrest
      have hl := ih (used := used + 1) (p := p.advance 1 (treeString par l ++ (treeString par r ++ more))) hlsym
        (by omega) (by omega) (Ports.advance_rest ..)
      have hr := ih (used := used + 1 + l.size) (p := p.advance (1 + treeBits par l) (treeString par r ++ more)) hrsym
        (by omega) (by omega) (Ports.advance_rest ..)
      rw [Ports.advance_advance] at hl hr
      rw [parseNode_node (by omega) hrest hl hr, HuffTree.strip, HuffTree.size, treeBits, ← Nat.add_assoc used,
        ← Nat.add_assoc used]

/-- Settles O37: ParseNode undoes the preorder string, and reading the string advances the ports by tree_bits. -/
theorem treePayloadRoundTrip : Obligations.TreePayloadRoundTrip :=
  fun _ _ _ _ _ _ _ hsym hfits hdepth hrest => parseNode_treeString hsym hfits hdepth hrest

end Sys2Proof.Machine
end

section
/-!
PROOFS. The encoder: what MEASURE counts and leaves, what COMPRESS writes and leaves (R241 to R246).
-/

namespace Sys2Proof.Machine

/-! ### The counts of a supply (R241) -/

/-- FREQ after counting a list of symbols from an all-zero FREQ. -/
def countsOf (syms : List Nat) : Memory := syms.foldl countSymbol []

theorem countsOf_wf {n : Nat} {syms : List Nat} (h : ∀ x ∈ syms, x < n) : Memory.wf n (countsOf syms) = true :=
  countSymbol_wf n syms [] h (Memory.wf_nil n)

/-- An entry is the symbol's count where the count fits 32 bits. -/
theorem toNat_freqGet_countsOf {syms : List Nat} {x : Nat} (h : syms.count x < 2 ^ 32) :
    (freqGet (countsOf syms) x).toNat = syms.count x := by
  rw [countsOf, countSymbol_get, freqGet_nil]
  simpa using Nat.mod_eq_of_lt h

/-- CountInput reads the whole of a supply whose counts fit. -/
theorem countInput_supply {par : Params} {b : List Byte} {p : Ports} (hw : 0 < par.w) (hp : p.rest = supplyBits b)
    (hc : ∀ u, (inputSymbols par b).count u < 2 ^ 32) :
    countInput par (p.rest.length + 1) 0 [] p =
      .ok (inputSymbols par b).length (countsOf (inputSymbols par b), p.advance (8 * b.length) []) := by
  have hfits : ∀ u, (freqGet [] u).toNat + (unitsOf par.w p.rest).count u < 2 ^ 32 := fun u => by
    rw [hp, freqGet_nil]
    simpa [inputSymbols] using hc u
  rw [countInput_ok par hw _ 0 [] p (Nat.lt_succ_self _) hfits, hp, supplyBits_length, Nat.zero_add]
  rfl

/-- CountInput stops at the 2^32-th copy of a symbol, with that copy read and not counted. -/
theorem countInput_full {par : Params} {b : List Byte} {p : Ports} (hw : 0 < par.w) (hp : p.rest = supplyBits b)
    {pre post : List Nat} {u : Nat} (hin : inputSymbols par b = pre ++ u :: post)
    (hc : ∀ v, pre.count v < 2 ^ 32) (hfull : pre.count u = 2 ^ 32 - 1) :
    countInput par (p.rest.length + 1) 0 [] p = .raise .countOverflow
      (countsOf pre, p.advance ((pre.length + 1) * par.w) (p.rest.drop ((pre.length + 1) * par.w))) :=
  countInput_overflow par hw _ 0 [] p pre post u (Nat.lt_succ_self _) (by rw [hp]; exact hin)
    (fun v => by simpa using hc v) (by simpa using hfull)

/-! ### MEASURE (R244) -/

theorem measureStart_rest {s : State} {b : List Byte} {bs : List (List Byte)} (hs : s.supplies = b :: bs) :
    (measureStart s).ports.rest = supplyBits b := by
  rw [measureStart_ports s b bs hs]

theorem exec_measure_of_counted {s : State} {b : List Byte} {bs : List (List Byte)} (hs : s.supplies = b :: bs)
    (f : HdrFmt) {n : Nat} {m : Memory} {q : Ports} {r : HuffTree} {st : NodeStore}
    (hcount : countInput s.par ((measureStart s).ports.rest.length + 1) 0 [] (measureStart s).ports = .ok n (m, q))
    (hr : buildTree (loadFreq s.par m) = some (r, st)) :
    exec (.measure f) s = .next (complete (measureFinish f n r st { measureStart s with freq := m, ports := q })) := by
  simp only [exec, execMeasure, hs, measureRun, hcount, hr]

theorem exec_measure_of_raise {s : State} {b : List Byte} {bs : List (List Byte)} (hs : s.supplies = b :: bs)
    (f : HdrFmt) {e : ErrCode} {m : Memory} {q : Ports}
    (hcount : countInput s.par ((measureStart s).ports.rest.length + 1) 0 [] (measureStart s).ports
      = .raise e (m, q)) :
    exec (.measure f) s = .next (raiseError e (.measure f) { measureStart s with freq := m, ports := q }) := by
  simp only [exec, execMeasure, hs, measureRun, hcount]

/-- The ports of MEASURE once it has read n bits. -/
theorem measureStart_advance {s : State} {b : List Byte} {bs : List (List Byte)} (hs : s.supplies = b :: bs) (n : Nat)
    (more : List Bool) : (measureStart s).ports.advance n more =
      { s.ports with rest := more, inPos := n, inBits := BitVec.ofNat 64 n } := by
  simp [measureStart_ports s b bs hs, Ports.advance]

/-- Settles O42: CountInput reads the whole supply where the counts fit, else up to the symbol that does not. -/
theorem measureCommand : Obligations.MeasureCommand := by
  refine ⟨rfl, rfl, fun f s b bs hl hs hc => ?_, fun f s b bs pre post u hl hs hin hc hfull => ?_⟩
  · obtain ⟨hw, -⟩ := Params.legal_spec hl
    obtain ⟨r, hr⟩ := buildTree_loadFreq s.par (countsOf (inputSymbols s.par b))
    rw [buildTree_loadFreq_store s.par _ hr] at hr
    refine ⟨_, r, countsOf_wf fun x => inputSymbols_lt, fun u _ => toNat_freqGet_countsOf (hc u), hr, ?_⟩
    rw [exec_measure_of_counted hs f (countInput_supply hw (measureStart_rest hs) hc) hr,
      measureStart_advance hs, measureStart_ports s b bs hs]
    rfl
  · obtain ⟨hw, -⟩ := Params.legal_spec hl
    have hpre : ∀ x ∈ pre, x < s.par.alphSize := fun x hx =>
      inputSymbols_lt (by rw [hin]; exact List.mem_append_left _ hx)
    refine ⟨countsOf pre, countsOf_wf hpre, fun v _ => toNat_freqGet_countsOf (hc v), ?_⟩
    rw [exec_measure_of_raise hs f (countInput_full hw (measureStart_rest hs) hin hc hfull),
      measureStart_advance hs, measureStart_ports s b bs hs]
    rfl

/-! ### COMPRESS (R245, R246) -/

/-- Writing does not move the read position. -/
theorem writeCode_advance (c : List Bool) (p : Ports) (n : Nat) (more : List Bool) :
    writeCode c (p.advance n more) = (writeCode c p).advance n more := by
  obtain ⟨-, hpos, hbits⟩ := writeCode_in c p
  rw [Ports.advance, writeCode_setIn, Ports.advance, hpos, hbits]

/-- EmitStream on a supply whose symbols all have codes: the whole stream is written and the whole supply read. -/
theorem emitStream_ok {s : State} {b : List Byte} {t : HuffTree} {p : Ports} (hw : 0 < s.par.w)
    (hr : s.root = some t) (hp : p.rest = supplyBits b) (hc : ∀ u ∈ inputSymbols s.par b, codeGet s.ct u ≠ none) :
    emitStream s p = .ok () (writeCode (streamString s.par s.hdrFmt s.freq t s.ct (inputSymbols s.par b))
      (p.advance (8 * b.length) [])) := by
  have hrest : (writeHeader s p).rest = supplyBits b := by
    rw [writeHeader_eq s t hr, (writeCode_in _ p).1, hp]
  have hemit := emitSymbols_ok s.par hw s.ct (p.rest.length + 1) (writeHeader s p) (by rw [hrest, hp]; omega)
    (by rw [hrest]; exact hc)
  rw [hrest, supplyBits_length, ← Ports.advance, writeHeader_eq s t hr, ← writeCode_advance] at hemit
  simp only [emitStream, writeHeader_eq s t hr, hemit, streamString, writeCode_append, inputSymbols]

/-- EmitStream stops at the first symbol without a code, with that symbol read and the codes before it written. -/
theorem emitStream_noCode {s : State} {b : List Byte} {t : HuffTree} {p : Ports} (hw : 0 < s.par.w)
    (hr : s.root = some t) (hp : p.rest = supplyBits b) {pre post : List Nat} {u : Nat}
    (hin : inputSymbols s.par b = pre ++ u :: post) (hc : ∀ v ∈ pre, codeGet s.ct v ≠ none)
    (hu : codeGet s.ct u = none) :
    emitStream s p = .raise .noCode (writeCode (headerString s.par s.hdrFmt s.freq t ++ codesString s.ct pre)
      (p.advance ((pre.length + 1) * s.par.w) (p.rest.drop ((pre.length + 1) * s.par.w)))) := by
  have hrest : (writeHeader s p).rest = p.rest := by rw [writeHeader_eq s t hr, (writeCode_in _ p).1]
  have hemit := emitSymbols_noCode s.par hw s.ct (p.rest.length + 1) (writeHeader s p) (by rw [hrest]; omega)
    pre post u (by rw [hrest, hp]; exact hin) hc hu
  rw [hrest, ← Ports.advance, writeHeader_eq s t hr, ← writeCode_advance, ← writeCode_append] at hemit
  simp only [emitStream, writeHeader_eq s t hr, hemit]

/-- The ports COMPRESS leaves once it has written `c` and read n bits. -/
def compressClosed (s : State) (c : List Bool) (n : Nat) : Ports :=
  { rest := [], inPos := 0, inBits := BitVec.ofNat 64 n, outPend := [], bitsWritten := BitVec.ofNat 64 c.length,
    log := s.ports.log ++ (packBytes c).map .byte ++ [.closeOut, .closeIn] }

theorem compressClosed_nil (s : State) : compressClosed s [] 0 =
    { rest := [], inPos := 0, inBits := 0, outPend := [], bitsWritten := 0,
      log := s.ports.log ++ [.closeOut, .closeIn] } := by
  simp [compressClosed, packBytes]

theorem closeSequence_compress {s : State} (hp : s.ports.outPend = []) (force : Bool) (c : List Bool) (n : Nat)
    (more : List Bool) :
    closeSequence (.compress force) (writeCode c ((compressStart s).ports.advance n more)) = compressClosed s c n := by
  have hpend : ((compressStart s).ports.advance n more).outPend = [] := hp
  rw [closeSequence_writeCode _ (.inl ⟨force, rfl⟩) c _ hpend, compressStart_eq]
  simp [Ports.advance, compressClosed]

/-- A COMPRESS that reads and writes nothing. -/
theorem closeSequence_compressStart {s : State} (hp : s.ports.outPend = []) (force : Bool) :
    closeSequence (.compress force) (compressStart s).ports = compressClosed s [] 0 := by
  rw [← closeSequence_compress hp force [] 0 (compressStart s).ports.rest]
  simp [Ports.advance]

theorem exec_compress_of_unmeasured {s : State} (hm : s.measured = false) (force : Bool) :
    exec (.compress force) s = .next (raiseError .preconditionViolation (.compress force) (compressStart s)) := by
  rw [exec, execCompress, if_pos hm]

theorem exec_compress_of_noSavings {s : State} (hm : s.measured = true) (hsav : ¬ 0 < s.savings.toInt) :
    exec (.compress false) s = .next (complete (setResults 0 0
      { compressStart s with ports := closeSequence (.compress false) (compressStart s).ports })) := by
  have hskip : writesStream false s = false := by simp [writesStream, hsav]
  rw [exec, execCompress, if_neg (by simp [hm]), if_pos hskip]

theorem exec_compress_presented {s : State} {force : Bool} {b : List Byte} {bs : List (List Byte)}
    (hm : s.measured = true) (hw : 0 < s.savings.toInt ∨ force = true) (hs : s.supplies = b :: bs) :
    exec (.compress force) s = .next (compressRun force s) := by
  simp only [exec, execCompress, hm, writesStream_iff.2 hw, hs, Bool.true_eq_false, if_false]

theorem compressStart_rest {s : State} {b : List Byte} {bs : List (List Byte)} (hs : s.supplies = b :: bs) :
    (compressStart s).ports.rest = supplyBits b := by
  rw [compressStart_eq, hs]
  rfl

/-- COMPRESS that has written all of its stream `c` and read n bits. -/
theorem compressRun_of_ok {s : State} (hp : s.ports.outPend = []) (force : Bool) {c more : List Bool} {n : Nat}
    (h : emitStream (compressStart s) (compressStart s).ports =
      .ok () (writeCode c ((compressStart s).ports.advance n more))) :
    compressRun force s = complete (setResults (BitVec.ofNat 64 c.length) 0
      { s with supplies := s.supplies.tail, ports := compressClosed s c n }) := by
  have hwritten : (writeCode c ((compressStart s).ports.advance n more)).bitsWritten = BitVec.ofNat 64 c.length :=
    (writeCode_bitsWritten c _).trans (BitVec.zero_add _)
  simp only [compressRun, h, closeSequence_compress hp, hwritten]
  rfl

/-- COMPRESS that has written `c` and read n bits when an error is raised. -/
theorem compressRun_of_raise {s : State} (hp : s.ports.outPend = []) (force : Bool) {c more : List Bool} {n : Nat}
    {e : ErrCode} (h : emitStream (compressStart s) (compressStart s).ports =
      .raise e (writeCode c ((compressStart s).ports.advance n more))) :
    compressRun force s =
      { s with
        supplies := s.supplies.tail, ports := compressClosed s c n, err := some e, errOp := 0x31#8,
        engine := .idle, done := true } := by
  simp only [compressRun, h, raiseError, closeSequence_compress hp]
  rfl

/-- Settles O43: by MEASURED, by the write decision, then by whether every symbol has a code. -/
theorem compressCommand : Obligations.CompressCommand := by
  refine ⟨rfl, rfl, fun force s hp hm => ?_, fun s hp hm hsav => ?_,
    fun force s b bs t hl hp hm hw hr hs hc => ?_, fun force s b bs t pre post u hl hp hm hw hr hs hin hc hu => ?_⟩
  · rw [exec_compress_of_unmeasured hm, raiseError, closeSequence_compressStart hp, compressClosed_nil]
    rfl
  · rw [exec_compress_of_noSavings hm hsav, closeSequence_compressStart hp, compressClosed_nil]
    rfl
  · obtain ⟨hwidth, -⟩ := Params.legal_spec hl
    have hemit := emitStream_ok (s := compressStart s) hwidth hr (compressStart_rest hs) hc
    rw [exec_compress_presented hm hw hs, compressRun_of_ok hp force hemit, hs]
    rfl
  · obtain ⟨hwidth, -⟩ := Params.legal_spec hl
    have hemit := emitStream_noCode (s := compressStart s) hwidth hr (compressStart_rest hs) hin hc hu
    rw [exec_compress_presented hm hw hs, compressRun_of_raise hp force hemit, hs]
    rfl

end Sys2Proof.Machine
end

section
/-!
PROOFS. The accounting: COMPRESS of the supply that MEASURE counted writes exactly the accounted bits, and what that is
for one symbol many times (R242, R248, R249).
-/

namespace Sys2Proof.Machine

/-! ### The length of a stream (R242, R246) -/

theorem codesString_length (ct : CodeTable) (syms : List Nat) :
    (codesString ct syms).length = (syms.map (codeLen ct)).sum := by
  rw [codesString, List.length_flatMap]
  rfl

/-- The tag is counted in `hdrBits`, the magic number is not. -/
theorem headerString_length (par : Params) (f : HdrFmt) (m : Memory) (t : HuffTree) :
    (headerString par f m t).length = 32 + hdrBits par f t := by
  cases f with
  | counts => simp only [headerString, hdrBits, List.length_append, bitsMsb_length, countsString_length]; omega
  | tree => simp only [headerString, hdrBits, List.length_append, bitsMsb_length, treeString_length]; omega

/-- Summing over the symbols of a list is summing over the alphabet, each symbol as often as it occurs. -/
theorem sum_range_count_mul {n : Nat} {syms : List Nat} (h : ∀ x ∈ syms, x < n) (g : Nat → Nat) :
    ((List.range n).map (fun x => syms.count x * g x)).sum = (syms.map g).sum := by
  have hsubset : syms.toFinset ⊆ Finset.range n := fun x hx => Finset.mem_range.2 (h x (List.mem_toFinset.1 hx))
  calc ((List.range n).map (fun x => syms.count x * g x)).sum
      = ∑ x ∈ Finset.range n, syms.count x * g x := rfl
    _ = ∑ x ∈ syms.toFinset, syms.count x * g x :=
        (Finset.sum_subset hsubset fun x _ hx => by
          rw [List.count_eq_zero.2 fun hmem => hx (List.mem_toFinset.2 hmem), Nat.zero_mul]).symm
    _ = (syms.map g).sum := (Finset.sum_list_map_count syms g).symm

/-- R242 accounts one code for each symbol that FREQ has counted. -/
theorem accountedBits_of_counts {par : Params} {m : Memory} {syms : List Nat} (hlt : ∀ x ∈ syms, x < par.alphSize)
    (hfreq : ∀ x, x < par.alphSize → (freqGet m x).toNat = syms.count x) (f : HdrFmt) (t : HuffTree) (ct : CodeTable) :
    accountedBits par f m t ct = 32 + hdrBits par f t + (syms.map (codeLen ct)).sum + codeLen ct par.eos := by
  have hcounts : (List.range par.alphSize).map (fun x => (freqGet m x).toNat * codeLen ct x) =
      (List.range par.alphSize).map (fun x => syms.count x * codeLen ct x) :=
    List.map_congr_left fun x hx => by rw [hfreq x (List.mem_range.1 hx)]
  rw [accountedBits, hcounts, sum_range_count_mul hlt]

/-- A stream is as long as R242 accounts, where FREQ has counted its symbols. -/
theorem streamString_length {par : Params} {m : Memory} {syms : List Nat} (hlt : ∀ x ∈ syms, x < par.alphSize)
    (hfreq : ∀ x, x < par.alphSize → (freqGet m x).toNat = syms.count x) (f : HdrFmt) (t : HuffTree) (ct : CodeTable) :
    (streamString par f m t ct syms).length = accountedBits par f m t ct := by
  rw [accountedBits_of_counts hlt hfreq, streamString, List.length_append, List.length_append, headerString_length,
    codesString_length]
  rfl

theorem codeLen_deriveCodes_le (t : HuffTree) (x : Nat) : codeLen (deriveCodes t) x ≤ t.depth := by
  cases h : codeGet (deriveCodes t) x with
  | none => simp [codeLen, codeBits, h]
  | some c =>
    obtain ⟨-, hlen⟩ := codeGet_mem h
    simpa [codeLen, codeBits, h] using hlen

theorem hdrBits_le {par : Params} (hl : par.legal = true) {t : HuffTree} (hfits : t.size ≤ par.nodeCap) (f : HdrFmt) :
    hdrBits par f t ≤ 2 ^ 14 := by
  obtain ⟨-, halph⟩ := Params.alphSize_bounds hl
  cases f with
  | counts => simp only [hdrBits]; omega
  | tree =>
    obtain ⟨-, hw, -⟩ := Params.legal_spec hl
    have hcap := Params.nodeCap_le hl
    have hleaves := t.size_add_one
    have hbits : t.leafCount * (1 + par.vw) ≤ 257 * 10 := Nat.mul_le_mul (by omega) (by simp only [Params.vw]; omega)
    rw [hdrBits, treeBits_eq]
    omega

/-- The accounted bits of a tree that fits the node store fit ACCT_BITS (R242). -/
theorem accountedBits_lt {par : Params} (hl : par.legal = true) {t : HuffTree} (hfits : t.size ≤ par.nodeCap)
    (f : HdrFmt) (m : Memory) : accountedBits par f m t (deriveCodes t) < 2 ^ 64 := by
  obtain ⟨-, halph⟩ := Params.alphSize_bounds hl
  have hlen : ∀ x, codeLen (deriveCodes t) x ≤ 256 := fun x =>
    (codeLen_deriveCodes_le t x).trans ((HuffTree.depth_le_maxCode hfits).trans halph)
  have hsum : ((List.range par.alphSize).map (fun x => (freqGet m x).toNat * codeLen (deriveCodes t) x)).sum ≤
      256 * (2 ^ 32 * 256) := by
    calc _ ≤ ((List.range par.alphSize).map _).length • (2 ^ 32 * 256) :=
          List.sum_le_card_nsmul _ _ (by
            intro y hy
            obtain ⟨x, -, rfl⟩ := List.mem_map.1 hy
            exact Nat.mul_le_mul (freqGet m x).isLt.le (hlen x))
      _ ≤ 256 * (2 ^ 32 * 256) := by
          rw [List.length_map, List.length_range]
          exact Nat.mul_le_mul_right _ halph
  have hhdr := hdrBits_le hl hfits f
  have heos := hlen par.eos
  rw [accountedBits]
  omega

/-! ### What COMPRESS of the measured supply writes (R248) -/

/-- Every symbol that FREQ has counted has a code in the table of FREQ's tree. -/
theorem codeGet_of_counts {par : Params} (hl : par.legal = true) {m : Memory} {r : HuffTree} {st : NodeStore}
    (hr : buildTree (loadFreq par m) = some (r, st)) {syms : List Nat} (hlt : ∀ x ∈ syms, x < par.alphSize)
    (hfreq : ∀ x, x < par.alphSize → (freqGet m x).toNat = syms.count x) :
    ∀ x ∈ syms, codeGet (deriveCodes r) x ≠ none := by
  intro x hx
  have hpos : 0 < (freqGet m x).toNat := by
    rw [hfreq x (hlt x hx)]
    exact List.count_pos_iff.2 hx
  obtain ⟨c, hc⟩ := codeGet_isSome (mem_leaves_of_freq hl hr (hlt x hx) fun h => by simp [h] at hpos)
  rw [hc]
  exact Option.some_ne_none c

/-- Settles O44: every symbol of the supply was counted, so it has a code, and the stream is as long as accounted. -/
theorem writtenEqualsAccounted : Obligations.WrittenEqualsAccounted := by
  intro f s b bs hl hp hs hc
  obtain ⟨-, -, hmeasure, -⟩ := measureCommand
  obtain ⟨m, r, -, hfreq, hr, hexec⟩ := hmeasure f s b (b :: bs) hl hs hc
  obtain ⟨-, -, -, -, hcompress, -⟩ := compressCommand
  have hlen := streamString_length (fun x => inputSymbols_lt) hfreq f r (deriveCodes r)
  have hcodes := codeGet_of_counts hl hr (fun x => inputSymbols_lt) hfreq
  obtain ⟨hfits, -⟩ := buildTree_loadFreq_size hr
  refine ⟨_, _, packBytes (streamString s.par f m r (deriveCodes r) (inputSymbols s.par b)), hexec,
    hcompress true _ b bs r hl hp rfl (.inr rfl) rfl rfl hcodes, congrArg (BitVec.ofNat 64) hlen, ?_, ?_, rfl, rfl, ?_⟩
  · exact congrArg (fun n => (BitVec.ofNat 64 n).extractLsb' 0 32) hlen
  · exact congrArg (fun n => (BitVec.ofNat 64 n).extractLsb' 32 32) hlen
  · rw [packBytes_length, hlen, BitVec.toNat_ofNat, Nat.mod_eq_of_lt (accountedBits_lt hl hfits f m)]

/-! ### One symbol many times (R249) -/

theorem Params.alphSize_of_w8 {par : Params} (hw : par.w = 8) : par.alphSize = 256 :=
  congrArg (2 ^ ·) hw

/-- FREQ with one nonzero entry gives two leaves. -/
theorem freqLeaves_of_single {par : Params} {m : Memory} {a : Nat} (ha : a < par.alphSize)
    (h : ∀ x, x < par.alphSize → (freqGet m x ≠ 0 ↔ x = a)) :
    freqLeaves par m =
      [.leaf (BitVec.ofNat 16 a) ((freqGet m a).zeroExtend 64), .leaf (BitVec.ofNat 16 par.eos) 1] := by
  have hone : (List.range par.alphSize).filter (fun x => decide (freqGet m x ≠ 0)) = [a] := by
    calc _ = (List.range par.alphSize).filter (fun x => decide (x = a)) :=
          List.filter_congr fun x hx => decide_eq_decide.2 (h x (List.mem_range.1 hx))
      _ = List.replicate ((List.range par.alphSize).count a) a := List.filter_eq a
      _ = [a] := by rw [List.count_eq_one_of_mem List.nodup_range (List.mem_range.2 ha)]; rfl
  rw [freqLeaves_eq, hone]
  rfl

/-- A lighter node goes before the one queued (R131). -/
theorem enqueue_singleton_of_lt {n x : HuffTree} (h : n.wt < x.wt) : enqueue n [x] = [n, x] := by
  simp [enqueue, enqueuePos, h]

/-- BuildTree on two nodes is one merge. -/
theorem buildTree_pair {st : NodeStore} {a b : HuffTree} (h : st.queue = [a, b]) :
    buildTree st = some (.node (a.wt + b.wt) a b, { queue := [], used := st.used + 1 }) := by
  rw [buildTree_merge (merge_eq_some.2 ⟨a, b, [], h, rfl, rfl⟩)]
  exact buildTree_singleton rfl

/-- The tree of n copies of one symbol and EOS. -/
def skewedTree (a : Byte) (n : Nat) : HuffTree :=
  .node (BitVec.ofNat 64 (n + 1)) (.leaf 256 1) (.leaf (a.zeroExtend 16) (BitVec.ofNat 64 n))

/-- FREQ with n copies of one symbol, n at least 2, loads two leaves: EOS is the lighter one. -/
theorem loadFreq_skewed {par : Params} {m : Memory} {a : Byte} {n : Nat} (hw : par.w = 8) (h2 : 2 ≤ n)
    (hn : n < 2 ^ 32)
    (hfreq : ∀ x, x < par.alphSize → (freqGet m x).toNat = (List.replicate n a.toNat).count x) :
    loadFreq par m = { queue := [.leaf 256 1, .leaf (a.zeroExtend 16) (BitVec.ofNat 64 n)], used := 2 } := by
  have halph := Params.alphSize_of_w8 hw
  have ha : a.toNat < par.alphSize := halph ▸ a.isLt
  have hn64 : (BitVec.ofNat 64 n).toNat = n := by rw [BitVec.toNat_ofNat, Nat.mod_eq_of_lt (by omega)]
  have hcount : (freqGet m a.toNat).zeroExtend 64 = BitVec.ofNat 64 n := BitVec.eq_of_toNat_eq <| by
    rw [toNat_zeroExtend_freqGet, hfreq _ ha, List.count_replicate_self, hn64]
  have hsingle : ∀ x, x < par.alphSize → (freqGet m x ≠ 0 ↔ x = a.toNat) := fun x hx => by
    have hne : n ≠ 0 := by omega
    rw [ne_eq, ← BitVec.toNat_inj, hfreq x hx, List.count_replicate]
    by_cases hxa : a.toNat = x
    · simp [hxa, hne]
    · simp [hxa, Ne.symm hxa]
  have hlighter : (1 : Weight) < BitVec.ofNat 64 n := by
    rw [BitVec.lt_def, hn64]
    exact h2
  rw [loadFreq, freqLeaves_of_single ha hsingle, hcount, Params.eos, halph, BitVec.ofNat_toNat]
  exact congrArg (NodeStore.mk · 2) (enqueue_singleton_of_lt hlighter)

theorem buildTree_loadFreq_skewed {par : Params} {m : Memory} {a : Byte} {n : Nat} (hw : par.w = 8) (h2 : 2 ≤ n)
    (hn : n < 2 ^ 32)
    (hfreq : ∀ x, x < par.alphSize → (freqGet m x).toNat = (List.replicate n a.toNat).count x) :
    buildTree (loadFreq par m) = some (skewedTree a n, { queue := [], used := 3 }) := by
  have hsum : (1 : Weight) + BitVec.ofNat 64 n = BitVec.ofNat 64 (n + 1) := by
    rw [Nat.add_comm, BitVec.ofNat_add]
    rfl
  rw [loadFreq_skewed hw h2 hn hfreq, buildTree_pair rfl, skewedTree, ← hsum]
  rfl

theorem codeGet_skewedTree (a : Byte) (n : Nat) :
    codeGet (deriveCodes (skewedTree a n)) a.toNat = some [true]
      ∧ codeGet (deriveCodes (skewedTree a n)) 256 = some [false] := by
  have hsym : (a.zeroExtend 16).toNat = a.toNat := BitVec.toNat_setWidth_of_le (by decide)
  simp only [deriveCodes, skewedTree, walkCodes, codeGet_set, hsym]
  exact ⟨if_pos trivial, (if_neg a.isLt.ne').trans (if_pos rfl)⟩

/-- Format TREE accounts 32 bits each for the magic number, the tag and the length field, 21 for the tree, one for each
copy and one for EOS. -/
theorem accountedBits_skewedTree {par : Params} {m : Memory} {a : Byte} {n : Nat} (hw : par.w = 8)
    (hfreq : ∀ x, x < par.alphSize → (freqGet m x).toNat = (List.replicate n a.toNat).count x) :
    accountedBits par .tree m (skewedTree a n) (deriveCodes (skewedTree a n)) = n + 118 := by
  have halph := Params.alphSize_of_w8 hw
  obtain ⟨hcode, heos⟩ := codeGet_skewedTree a n
  have hlen : codeLen (deriveCodes (skewedTree a n)) a.toNat = 1 := by rw [codeLen, codeBits, hcode]; rfl
  have hlenEos : codeLen (deriveCodes (skewedTree a n)) 256 = 1 := by rw [codeLen, codeBits, heos]; rfl
  have hlt : ∀ x ∈ List.replicate n a.toNat, x < par.alphSize := fun x hx => by
    rw [List.eq_of_mem_replicate hx, halph]
    exact a.isLt
  rw [accountedBits_of_counts hlt hfreq, Params.eos, halph, List.map_replicate, List.sum_replicate, hlen, hlenEos]
  simp only [hdrBits, skewedTree, treeBits, Params.vw, hw, smul_eq_mul]
  omega

/-- Settles O45: the tree of two leaves, its codes of one bit and the sum of R242, then the write decision of R245. -/
theorem skewedInput : Obligations.SkewedInput := by
  intro s a n bs hl hw hp h2 hn hs
  have hin : inputSymbols s.par (List.replicate n a) = List.replicate n a.toNat := by
    rw [inputSymbols_w8 hw, List.map_replicate]
  have hfits : ∀ u, (inputSymbols s.par (List.replicate n a)).count u < 2 ^ 32 := fun u => by
    rw [hin]
    exact List.count_le_length.trans_lt (by rwa [List.length_replicate])
  obtain ⟨-, -, hmeasure, -⟩ := measureCommand
  obtain ⟨m, r, -, hfreq, hr, hexec⟩ := hmeasure .tree s _ _ hl hs hfits
  obtain rfl : r = skewedTree a n := by
    rw [hin] at hfreq
    exact (Prod.mk.inj (Option.some.inj (hr.symm.trans (buildTree_loadFreq_skewed hw h2 hn hfreq)))).1
  have hacct := accountedBits_skewedTree hw (hin ▸ hfreq)
  obtain ⟨hcode, heos⟩ := codeGet_skewedTree a n
  have hcodes := codeGet_of_counts hl hr (fun x => inputSymbols_lt) hfreq
  have hlen := streamString_length (fun x => inputSymbols_lt) hfreq .tree (skewedTree a n)
    (deriveCodes (skewedTree a n))
  have horig : (inputSymbols s.par (List.replicate n a)).length * s.par.w = 8 * n := by
    rw [hin, List.length_replicate, hw, Nat.mul_comm]
  rw [horig, hacct] at hexec
  have hsav : (BitVec.ofInt 64 (((8 * n : Nat) : Int) - ((n + 118 : Nat) : Int))).toInt = 7 * (n : Int) - 118 := by
    rw [BitVec.toInt_ofInt_eq_self (by decide) (by omega) (by omega)]
    omega
  have horig64 : (BitVec.ofNat 64 (8 * n)).toNat = 8 * n := by rw [BitVec.toNat_ofNat, Nat.mod_eq_of_lt (by omega)]
  have hacct64 : (BitVec.ofNat 64 (n + 118)).toNat = n + 118 := by
    rw [BitVec.toNat_ofNat, Nat.mod_eq_of_lt (by omega)]
  obtain ⟨-, -, -, hskip, hwrite, -⟩ := compressCommand
  by_cases hpays : 17 ≤ n
  · refine ⟨_, _, packBytes (streamString s.par .tree m (skewedTree a n) (deriveCodes (skewedTree a n))
        (inputSymbols s.par (List.replicate n a))), hexec, rfl, hcode, heos, horig64, hacct64, hsav,
      hwrite false _ _ bs (skewedTree a n) hl hp rfl (.inl (lt_of_lt_of_eq (by omega) hsav.symm)) rfl rfl hcodes, rfl,
      ?_, ?_⟩
    · rw [ne_eq, ← List.length_eq_zero_iff, packBytes_length, hlen, hacct]
      omega
    · exact fun _ => by rw [packBytes_length, hlen, hacct]
  · exact ⟨_, _, [], hexec, rfl, hcode, heos, horig64, hacct64, hsav,
      hskip _ hp rfl (not_lt.2 (hsav.trans_le (by omega))), by simp, by simp [hpays], fun h => absurd h hpays⟩

end Sys2Proof.Machine
end

section
/-!
PROOFS. The decoder behind its header tag: where DECOMPRESS stands once it has read some bits of its supply, how it ends
there, the errors of a wrong header, and what every path leaves alone (R270, R271, R272, R321, R325).
-/

namespace Sys2Proof.Machine

/-! ### Reads as advances of the ports (R76) -/

/-- A read of n bits, long or short, advances the ports by the bits it finds. -/
theorem readBits_snd (n : Nat) (p : Ports) :
    (readBits n p).2 = p.advance (min n p.rest.length) (p.rest.drop n) := by
  rw [readBits, List.length_take]
  split
  case isTrue h => rw [h]; rfl
  case isFalse h =>
    have hshort : p.rest.length < n := by omega
    rw [min_eq_right hshort.le, List.drop_of_length_le hshort.le]
    rfl

/-- A read of 32 bits gives a word exactly when the supply begins with that word's bits. -/
theorem readBits_word_iff {v : Word} {p : Ports} :
    (readBits 32 p).1 = some v.toNat ↔ p.rest.take 32 = bitsMsb 32 v.toNat := by
  rw [readBits]
  split
  case isTrue h => rw [Option.some_inj, bitsToNat_eq_iff v.isLt h]
  case isFalse h => exact iff_of_false (Option.some_ne_none _).symm fun hv => h (by rw [hv, bitsMsb_length])

/-- A read that finds its n bits, as an advance of the ports. -/
theorem readBits_long {n : Nat} {a more : List Bool} {p : Ports} (h : p.rest = a ++ more) (ha : a.length = n) :
    readBits n p = (some (bitsToNat a), p.advance n more) := readBits_append h ha

/-- A short read, as an advance of the ports over all that is left. -/
theorem readBits_all {n : Nat} {p : Ports} (h : p.rest.length < n) :
    readBits n p = (none, p.advance p.rest.length []) := readBits_short h

/-! ### DECOMPRESS behind a part of its supply (R270) -/

/-- The state of DECOMPRESS once it has read n bits of its supply and `more` is unread: the supply taken, the session
fresh, nothing sent. -/
def decompressBehind (s : State) (n : Nat) (more : List Bool) : State :=
  { s with
    supplies := s.supplies.tail, measured := false, root := none, ct := [], ctValid := false,
    nodes := { queue := [], used := 0 }, treeLen := 0, tlenMismatch := false,
    ports := { s.ports with rest := more, inPos := n, inBits := BitVec.ofNat 64 n, bitsWritten := 0 } }

theorem decompressStart_behind {s : State} {b : List Byte} {bs : List (List Byte)} (hs : s.supplies = b :: bs) :
    decompressStart s = decompressBehind s 0 (supplyBits b) := by
  rw [decompressStart_eq s b bs hs, decompressBehind, hs]
  rfl

@[simp] theorem decompressBehind_rest (s : State) (n : Nat) (more : List Bool) :
    (decompressBehind s n more).ports.rest = more := rfl

/-- Reading on from behind n bits. -/
@[simp] theorem decompressBehind_advance (s : State) (n k : Nat) (mid more : List Bool) :
    (decompressBehind s n mid).ports.advance k more = (decompressBehind s (n + k) more).ports := by
  rw [Ports.advance, decompressBehind, ← BitVec.ofNat_add]
  rfl

/-- The read position is the only thing a read changes. -/
theorem decompressBehind_moved (s : State) (n k : Nat) (mid more : List Bool) :
    { decompressBehind s n mid with ports := (decompressBehind s k more).ports } = decompressBehind s k more := rfl

/-- An error raised before anything is sent. -/
theorem raiseError_decompress {s : State} (hp : s.ports.outPend = []) (e : ErrCode) (used : Nat) (len : Word) (n : Nat)
    (more : List Bool) :
    raiseError e .decompress
      { decompressBehind s n more with treeLen := len, nodes := { queue := [], used := used } } =
    decompressFailed e used len n [] s := by
  have hclose := closeSequence_writeCode .decompress (.inr rfl) [] (decompressBehind s n more).ports hp
  rw [raiseError, ← writeCode_nil (decompressBehind s n more).ports, hclose]
  rfl

/-! ### A wrong header (R271, R272) -/

theorem exec_decompress_presented {s : State} {b : List Byte} {bs : List (List Byte)} (hs : s.supplies = b :: bs) :
    exec .decompress s = .next (decompressRun s) := by
  simp only [exec, execDecompress, hs]

/-- A supply that does not begin with MAGIC. -/
theorem decompressWork_of_not_magic {s : State} {b : List Byte} {bs : List (List Byte)} (hs : s.supplies = b :: bs)
    (h : (supplyBits b).take 32 ≠ bitsMsb 32 s.par.magic.toNat) :
    decompressWork s = .raise .notRecognizedFormat
      (decompressBehind s (min 32 (8 * b.length)) ((supplyBits b).drop 32)) := by
  have hmagic : (readBits 32 (decompressBehind s 0 (supplyBits b)).ports).1 ≠ some s.par.magic.toNat :=
    fun hread => h (readBits_word_iff.1 hread)
  simp only [decompressWork, decompressStart_behind hs, if_pos hmagic, readBits_snd, decompressBehind_rest,
    decompressBehind_advance, decompressBehind_moved, supplyBits_length, Nat.zero_add]

theorem decodeTag_eq_none {par : Params} {t : Option Nat} (hc : t ≠ some par.tagCounts.toNat)
    (ht : t ≠ some par.tagTree.toNat) : decodeTag par t = none := by
  rw [decodeTag, if_neg hc, if_neg ht]

/-- A supply that begins with MAGIC and no known tag behind it. -/
theorem decompressWork_of_not_tag {s : State} {b : List Byte} {bs : List (List Byte)} (hs : s.supplies = b :: bs)
    (hmagic : (supplyBits b).take 32 = bitsMsb 32 s.par.magic.toNat)
    (htag : ((supplyBits b).drop 32).take 32 ∉ [bitsMsb 32 s.par.tagCounts.toNat, bitsMsb 32 s.par.tagTree.toNat]) :
    decompressWork s = .raise .unsupportedHeaderFormat
      (decompressBehind s (min 64 (8 * b.length)) (((supplyBits b).drop 32).drop 32)) := by
  have hread : (readBits 32 (decompressBehind s 0 (supplyBits b)).ports).1 = some s.par.magic.toNat :=
    readBits_word_iff.2 hmagic
  have hnone : decodeTag s.par
      (readBits 32 (decompressBehind s (min 32 (8 * b.length)) ((supplyBits b).drop 32)).ports).1 = none :=
    decodeTag_eq_none (fun h => htag (List.mem_cons.2 (.inl (readBits_word_iff.1 h))))
      (fun h => htag (List.mem_cons_of_mem _ (List.mem_singleton.2 (readBits_word_iff.1 h))))
  have hbits : min 32 (8 * b.length) + min 32 (8 * b.length - 32) = min 64 (8 * b.length) := by omega
  simp only [decompressWork, decompressStart_behind hs, hread, ne_eq, not_true_eq_false, if_false, readBits_snd,
    decompressBehind_rest, decompressBehind_advance, supplyBits_length, Nat.zero_add, hnone, decompressBehind_moved,
    List.length_drop, hbits]

/-- Settles O48: by what the two reads of 32 bits give. -/
theorem decompressHeaderErrors : Obligations.DecompressHeaderErrors := by
  intro s b bs hp hs
  have hfailed (e : ErrCode) (n : Nat) (more : List Bool) :
      decompressEnd (.raise e (decompressBehind s n more)) = decompressFailed e 0 0 n [] s :=
    raiseError_decompress hp e 0 0 n more
  refine ⟨fun h => ?_, fun hmagic htag => ?_⟩
  · rw [exec_decompress_presented hs, decompressRun, decompressWork_of_not_magic hs h, hfailed, decompressFailed, hs]
    simp [packBytes]
  · rw [exec_decompress_presented hs, decompressRun, decompressWork_of_not_tag hs hmagic htag, hfailed,
      decompressFailed, hs]
    simp [packBytes]

/-! ### What every path leaves alone (R270) -/

/-- Settles O49: what DECOMPRESS has changed up to its end, then the fields its end writes (R321, R323). -/
theorem decompressFrame : Obligations.DecompressFrame := by
  intro s t b bs hs h
  obtain ⟨-, hwaits⟩ | ⟨-, rfl⟩ := exec_decompress_cases h
  · exact absurd (hs.symm.trans hwaits) (List.cons_ne_nil b bs)
  obtain ⟨u, hu, hend⟩ := decompressRun_cases s
  have hfreq := hu.freq
  rw [decompressStart_behind hs] at hfreq
  have hframe := hu.frame
  rw [decompressStart_eq s b bs hs] at hframe
  generalize u.freq = freq, u.ports = ports, u.nodes = nodes, u.treeLen = len, u.tlenMismatch = mismatch,
    u.root = root at hframe hfreq
  subst hframe
  obtain ⟨e, -, hend⟩ | hend := hend <;>
    exact hend ▸ ⟨rfl, rfl, rfl, rfl, rfl, rfl, rfl, rfl, rfl, rfl, rfl, rfl, rfl, rfl, rfl, rfl, hfreq⟩

end Sys2Proof.Machine
end

section
/-!
PROOFS. DECOMPRESS of a stream with MAGIC and a known tag: how it ends by what its header and the bits behind the header
are, and the streams with a COUNTS header (R212, R213, R270 to R275).
-/

namespace Sys2Proof.Machine

/-! ### From the tag to the end of the command (R270, R273) -/

/-- The header errs: DECOMPRESS ends there. -/
theorem exec_decompress_of_raise {s : State} {b : List Byte} {bs : List (List Byte)} {f : HdrFmt} {more : List Bool}
    {e : ErrCode} {u : State} (hl : s.par.legal = true) (hs : s.supplies = b :: bs)
    (hb : supplyBits b = bitsMsb 32 s.par.magic.toNat ++ (bitsMsb 32 (fmtTag s.par f).toNat ++ more))
    (h : parseHeader f (decompressBehind s 64 more) = .raise e u) :
    exec .decompress s = .next (raiseError e .decompress u) := by
  rw [decompressBehind, hs, List.tail_cons] at h
  rw [exec_decompress_header s b bs hs f hl more hb, h]

/-- DECOMPRESS behind its header: FREQ is `m`, `used` nodes are parsed, TREE_LEN and TLEN_MISMATCH are set. -/
def decompressParsed (s : State) (n : Nat) (more : List Bool) (m : Memory) (used : Nat) (len : Word)
    (mismatch : Bool) : State :=
  { decompressBehind s n more with
    freq := m, nodes := { queue := [], used := used }, treeLen := len, tlenMismatch := mismatch }

section
variable {s : State} {b : List Byte} {bs : List (List Byte)} {f : HdrFmt} {header more : List Bool} {r : HuffTree}
  {m : Memory} {n used : Nat} {len : Word} {mismatch : Bool} {paths : List (List Bool)} {syms : List Nat}

/-- The header parses: the symbols follow. -/
theorem exec_decompress_of_parsed (hl : s.par.legal = true) (hs : s.supplies = b :: bs)
    (hb : supplyBits b = bitsMsb 32 s.par.magic.toNat ++ (bitsMsb 32 (fmtTag s.par f).toNat ++ header))
    (h : parseHeader f (decompressBehind s 64 header) = .ok r (decompressParsed s n more m used len mismatch)) :
    exec .decompress s =
      .next (decompressEnd (decompressBody r (decompressParsed s n more m used len mismatch))) := by
  rw [decompressBehind, hs, List.tail_cons] at h
  rw [exec_decompress_header s b bs hs f hl header hb, h]

/-- Behind the header, paths to the leaves of some symbols and then to an EOS leaf: DECOMPRESS completes. -/
theorem exec_decompress_of_symbols (hl : s.par.legal = true) (hp : s.ports.outPend = []) (hs : s.supplies = b :: bs)
    (hb : supplyBits b = bitsMsb 32 s.par.magic.toNat ++ (bitsMsb 32 (fmtTag s.par f).toNat ++ header))
    {last : List Bool} (h : parseHeader f (decompressBehind s 64 header) =
      .ok r (decompressParsed s n (paths.flatten ++ last ++ more) m used len mismatch))
    (hsyms : ∀ x ∈ syms, x ≠ s.par.eos) (hpaths : paths.map r.follow = syms.map some)
    (hlast : r.follow last = some s.par.eos) :
    exec .decompress s = .next { s with
      supplies := bs, measured := false, freq := m, root := some r, ct := [], ctValid := false,
      nodes := { queue := [], used := used }, treeLen := len, tlenMismatch := mismatch,
      ports := {
        rest := [], inPos := 0, inBits := BitVec.ofNat 64 (n + (paths.flatten.length + last.length)), outPend := [],
        bitsWritten := BitVec.ofNat 64 (syms.length * s.par.w),
        log := s.ports.log ++ (packBytes (unitsString s.par syms)).map .byte ++ [.closeOut, .closeIn] },
      result0 := (BitVec.ofNat 64 (syms.length * s.par.w)).extractLsb' 0 32,
      result1 := (BitVec.ofNat 64 (syms.length * s.par.w)).extractLsb' 32 32,
      result2 := 0, engine := .idle, done := true } := by
  rw [exec_decompress_of_parsed hl hs hb h,
    decompressBody_eq (decompressParsed s n _ m used len mismatch) r paths syms last more hp hsyms hpaths hlast rfl rfl,
    BitVec.ofNat_add n]
  simp only [decompressParsed, decompressBehind, hs, List.tail_cons]

/-- Behind the header, paths to the leaves of some symbols and then a supply that ends inside the tree. -/
theorem exec_decompress_of_walk (hl : s.par.legal = true) (hp : s.ports.outPend = []) (hs : s.supplies = b :: bs)
    (hb : supplyBits b = bitsMsb 32 s.par.magic.toNat ++ (bitsMsb 32 (fmtTag s.par f).toNat ++ header))
    {part : List Bool} (h : parseHeader f (decompressBehind s 64 header) =
      .ok r (decompressParsed s n (paths.flatten ++ part) m used len mismatch))
    (hsyms : ∀ x ∈ syms, x ≠ s.par.eos) (hpaths : paths.map r.follow = syms.map some)
    (hpart : r.leadsInside part = true) (hread : n + (paths.flatten.length + part.length) = 8 * b.length) :
    exec .decompress s = .next {
      decompressFailed .truncatedStream used len (8 * b.length) (unitsString s.par syms) s with
      freq := m, root := some r, tlenMismatch := mismatch } := by
  rw [exec_decompress_of_parsed hl hs hb h,
    decompressBody_inside (decompressParsed s n _ m used len mismatch) r paths syms part hp hsyms hpaths hpart rfl rfl,
    ← hread, decompressFailed, BitVec.ofNat_add n]
  rfl

end

/-! ### A COUNTS header (R213) -/

/-- The whole header: FREQ is its counts, the tree is theirs. -/
theorem parseHeader_counts {s : State} {n : Nat} {m : Memory} {t : HuffTree} {used : Nat} (more : List Bool)
    (hm : Memory.wf s.par.alphSize m = true)
    (hr : buildTree (loadFreq s.par m) = some (t, { queue := [], used := used })) :
    parseHeader .counts (decompressBehind s n (countsString s.par m ++ more)) =
      .ok t (decompressParsed s (n + 32 * s.par.alphSize) more m used 0 false) := by
  obtain ⟨-, hparse⟩ := countsPayloadRoundTrip s.par m (decompressBehind s n (countsString s.par m ++ more)).ports more
    hm rfl
  rw [← Ports.advance, decompressBehind_advance] at hparse
  have hpar : (decompressBehind s n (countsString s.par m ++ more)).par = s.par := rfl
  simp only [parseHeader, parseCountsHeader, hpar, hparse, hr]
  rfl

/-- A supply that ends inside the count behind the first k. -/
theorem parseHeader_counts_short {s : State} {n k : Nat} {m : Memory} {short : List Bool}
    (hm : Memory.wf k m = true) (hk : k < s.par.alphSize) (hshort : short.length < 32) :
    parseHeader .counts
      (decompressBehind s n ((List.range k).flatMap (fun x => bitsMsb 32 (freqGet m x).toNat) ++ short)) =
      .raise .truncatedStream { decompressBehind s (n + (32 * k + short.length)) [] with freq := m } := by
  obtain ⟨d, hd⟩ := Nat.exists_eq_add_of_lt hk
  obtain ⟨ys, hsyms⟩ : ∃ ys, List.range s.par.alphSize = List.range k ++ k :: ys :=
    ⟨_, by rw [hd, Nat.add_assoc, List.range_add, List.range_succ_eq_map]; rfl⟩
  have hparse := parseCounts_short (List.range k) ys (freqGet m) []
    (decompressBehind s n ((List.range k).flatMap (fun x => bitsMsb 32 (freqGet m x).toNat) ++ short)).ports k short
    hshort rfl
  rw [← hsyms, foldl_freqSet_self k m hm, List.length_range, ← Ports.advance, decompressBehind_advance] at hparse
  have hpar : (decompressBehind s n ((List.range k).flatMap
      (fun x => bitsMsb 32 (freqGet m x).toNat) ++ short)).par = s.par := rfl
  simp only [parseHeader, parseCountsHeader, hpar, hparse]
  rfl

/-- Settles O47: the header whole or cut short, then the symbols up to EOS or to the end of the supply. -/
theorem decompressCountsStream : Obligations.DecompressCountsStream := by
  refine ⟨?_, ?_, ?_⟩
  · intro s b bs m t st paths syms last more hl hp hs hm hr hsyms hpaths hlast hb
    obtain rfl := buildTree_loadFreq_store s.par m hr
    rw [List.append_assoc, List.append_assoc, List.append_assoc, List.append_assoc, ← List.append_assoc paths.flatten]
      at hb
    rw [exec_decompress_of_symbols (f := .counts) hl hp hs hb (parseHeader_counts _ hm hr) hsyms hpaths hlast,
      ← Nat.add_assoc]
  · intro s b bs m k short hl hp hs hm hk hshort hb
    have hread : 64 + (32 * k + short.length) = 8 * b.length := by
      rw [← supplyBits_length b, hb]
      simp only [List.length_append, bitsMsb_length, List.length_flatMap, List.map_const', List.sum_replicate,
        List.length_range, smul_eq_mul]
      omega
    rw [List.append_assoc, List.append_assoc] at hb
    rw [exec_decompress_of_raise (f := .counts) hl hs hb (parseHeader_counts_short hm hk hshort), hread,
      ← raiseError_decompress hp .truncatedStream 0 0 (8 * b.length) []]
    rfl
  · intro s b bs m t st paths syms part hl hp hs hm hr hsyms hpaths hpart hb
    obtain rfl := buildTree_loadFreq_store s.par m hr
    have hread : 64 + 32 * s.par.alphSize + (paths.flatten.length + part.length) = 8 * b.length := by
      rw [← supplyBits_length b, hb]
      simp only [List.length_append, bitsMsb_length, countsString_length]
      omega
    rw [List.append_assoc, List.append_assoc, List.append_assoc] at hb
    rw [exec_decompress_of_walk (f := .counts) hl hp hs hb (parseHeader_counts _ hm hr) hsyms hpaths hpart hread]
    rfl

end Sys2Proof.Machine
end

section
/-!
PROOFS. DECOMPRESS of a stream with a TREE header: the length field, where ParseNode raises inside a tree, and the tree
parsed whole (R214, R215, R273).
-/

namespace Sys2Proof.Machine

/-! ### ParseNode at one node (R215) -/

/-- The supply ends before the node's first bit or inside its leaf value. -/
theorem parseNode_truncated {par : Params} {used : Nat} {p : Ports} (k : Nat)
    (h : p.rest = [] ∨ ∃ short, p.rest = true :: short ∧ short.length < par.vw) :
    parseNode par (k + 1) used p = .raise .truncatedStream (used, p.advance p.rest.length []) := by
  obtain hnil | ⟨short, hrest, hshort⟩ := h
  · have hbit := readBits_all (n := 1) (p := p) (by simp [hnil])
    simp only [parseNode, hbit]
  · have hbit : readBits 1 p = (some 1, p.advance 1 short) := readBit_cons hrest
    have hvalue := readBits_all (n := par.vw) (p := p.advance 1 short) hshort
    simp only [parseNode, hbit, hvalue, Nat.one_ne_zero, if_false, Ports.advance_advance, Ports.advance_rest, hrest,
      List.length_cons, Nat.add_comm 1]

/-- A leaf whose value is above EOS or for which the store has no node. -/
theorem parseNode_badLeaf {par : Params} {used v : Nat} {p : Ports} {more : List Bool} (k : Nat)
    (hrest : p.rest = true :: (bitsMsb par.vw v ++ more)) (hv : v < 2 ^ par.vw)
    (hbad : par.eos < v ∨ used = par.nodeCap) :
    parseNode par (k + 1) used p = .raise .malformedTree (used, p.advance (1 + par.vw) more) := by
  have hbit : readBits 1 p = (some 1, p.advance 1 (bitsMsb par.vw v ++ more)) := readBit_cons hrest
  have hvalue := readBits_long (p := p.advance 1 (bitsMsb par.vw v ++ more)) rfl (bitsMsb_length par.vw v)
  rw [bitsToNat_bitsMsb_of_lt hv, Ports.advance_advance] at hvalue
  simp only [parseNode, hbit, hvalue, Nat.one_ne_zero, if_false]
  by_cases habove : par.eos < v
  · rw [if_pos habove]
  · rw [if_neg habove, if_pos (hbad.resolve_left habove)]

/-- An internal node for which the store has no node. -/
theorem parseNode_fullNode {par : Params} {used : Nat} {p : Ports} {more : List Bool} (k : Nat)
    (hrest : p.rest = false :: more) (hfull : used = par.nodeCap) :
    parseNode par (k + 1) used p = .raise .malformedTree (used, p.advance 1 more) := by
  have hbit : readBits 1 p = (some 0, p.advance 1 more) := readBit_cons hrest
  simp only [parseNode, hbit, if_true, if_pos hfull]

/-! ### ParseNode at a place inside the tree (R215) -/

/-- An internal node whose left child raises. -/
theorem parseNode_of_left_raise {par : Params} {k used : Nat} {p : Ports} {bits : List Bool} {e : ErrCode}
    {last : Nat × Ports} (hroom : used ≠ par.nodeCap) (hrest : p.rest = false :: bits)
    (h : parseNode par k (used + 1) (p.advance 1 bits) = .raise e last) :
    parseNode par (k + 1) used p = .raise e last := by
  have hbit : readBits 1 p = (some 0, p.advance 1 bits) := readBit_cons hrest
  simp only [parseNode, hbit, if_true, if_neg hroom, h]

/-- An internal node whose left child parses and whose right child raises. -/
theorem parseNode_of_right_raise {par : Params} {k used used' : Nat} {p q : Ports} {bits : List Bool} {l : HuffTree}
    {e : ErrCode} {last : Nat × Ports} (hroom : used ≠ par.nodeCap) (hrest : p.rest = false :: bits)
    (hl : parseNode par k (used + 1) (p.advance 1 bits) = .ok l (used', q))
    (hr : parseNode par k used' q = .raise e last) :
    parseNode par (k + 1) used p = .raise e last := by
  have hbit : readBits 1 p = (some 0, p.advance 1 bits) := readBit_cons hrest
  simp only [parseNode, hbit, if_true, if_neg hroom, hl, hr]

theorem HuffTree.depth_lt_size (t : HuffTree) : t.depth < t.size :=
  t.depth_lt_leafCount.trans_le t.leafCount_le_size

section
variable (par : Params) (l : HuffTree) (c : ParsePlace)

@[simp] theorem ParsePlace.bits_left : ParsePlace.bits par (none :: c) = false :: c.bits par := rfl

@[simp] theorem ParsePlace.bits_right :
    ParsePlace.bits par (some l :: c) = false :: (treeString par l ++ c.bits par) := rfl

@[simp] theorem ParsePlace.nodes_left : ParsePlace.nodes (none :: c) = 1 + c.nodes := rfl

@[simp] theorem ParsePlace.nodes_right : ParsePlace.nodes (some l :: c) = 1 + l.size + c.nodes := rfl

@[simp] theorem ParsePlace.legal_left : ParsePlace.legal par (none :: c) = c.legal par := rfl

@[simp] theorem ParsePlace.legal_right :
    ParsePlace.legal par (some l :: c) = (l.symbolsLegal par && c.legal par) := rfl

end

theorem ParsePlace.length_le_nodes (c : ParsePlace) : c.length ≤ c.nodes := by
  induction c with
  | nil => exact Nat.le_refl 0
  | cons x c ih =>
    cases x with
    | none => rw [ParsePlace.nodes_left, List.length_cons]; omega
    | some l => rw [ParsePlace.nodes_right, List.length_cons]; omega

theorem Ports.advance_zero (p : Ports) : p.advance 0 p.rest = p := by
  simp [Ports.advance]

/-- ParseNode raises what it raises at a place it reaches. The fuel is more than the nodes the store has left. -/
theorem parseNode_of_place_raise {par : Params} {k used : Nat} {p : Ports} {place : ParsePlace} {tail : List Bool}
    {e : ErrCode} {last : Nat × Ports} (hlegal : place.legal par = true) (hfits : used + place.nodes ≤ par.nodeCap)
    (hfuel : par.nodeCap < k + place.length + used) (hrest : p.rest = place.bits par ++ tail)
    (h : parseNode par k (used + place.nodes) (p.advance (place.bits par).length tail) = .raise e last) :
    parseNode par (k + place.length) used p = .raise e last := by
  induction place generalizing used p with
  | nil =>
    have hstay : p.advance 0 tail = p := (congrArg (p.advance 0) hrest.symm).trans p.advance_zero
    exact hstay ▸ h
  | cons x place ih =>
    rw [List.length_cons] at hfuel
    cases x with
    | none =>
      rw [ParsePlace.legal_left] at hlegal
      rw [ParsePlace.nodes_left] at hfits h
      rw [ParsePlace.bits_left] at hrest h
      refine parseNode_of_left_raise (by omega) hrest (ih hlegal (by omega) (by omega) rfl ?_)
      rwa [Ports.advance_advance, Nat.add_assoc, Nat.add_comm 1 (List.length _)]
    | some l =>
      rw [ParsePlace.legal_right, Bool.and_eq_true] at hlegal
      obtain ⟨hl, hlegal⟩ := hlegal
      rw [ParsePlace.nodes_right] at hfits h
      rw [ParsePlace.bits_right] at hrest h
      rw [List.cons_append, List.append_assoc] at hrest
      have hdepth := l.depth_lt_size
      have hleft := parseNode_treeString (k := k + place.length) (used := used + 1)
        (p := p.advance 1 (treeString par l ++ (ParsePlace.bits par place ++ tail))) hl (by omega) (by omega) rfl
      refine parseNode_of_right_raise (by omega) hrest hleft (ih hlegal (by omega) (by omega) rfl ?_)
      rw [List.length_cons, List.length_append, treeString_length] at h
      rwa [Ports.advance_advance, Ports.advance_advance, Nat.add_assoc used, Nat.add_assoc used,
        Nat.add_comm 1 (_ + List.length _)]

/-! ### The TREE header (R215) -/

/-- The supply ends inside the length field. -/
theorem parseHeader_tree_short {s : State} {n : Nat} {short : List Bool} (h : short.length < 32) :
    parseHeader .tree (decompressBehind s n short) =
      .raise .truncatedStream (decompressBehind s (n + short.length) []) := by
  have hfield := readBits_all (n := 32) (p := (decompressBehind s n short).ports) h
  rw [decompressBehind_rest, decompressBehind_advance] at hfield
  simp only [parseHeader, parseTreeHeader, hfield]
  rfl

/-- The length field is read. -/
theorem readBits_field {s : State} {n field : Nat} (hfield : field < 2 ^ 32) (more : List Bool) :
    readBits 32 (decompressBehind s n (bitsMsb 32 field ++ more)).ports =
      (some field, (decompressBehind s (n + 32) more).ports) := by
  rw [readBits_long (decompressBehind_rest ..) (bitsMsb_length ..), bitsToNat_bitsMsb_of_lt hfield,
    decompressBehind_advance]

/-- ParseNode raises behind the length field. -/
theorem parseHeader_tree_raise {s : State} {n field used k : Nat} {e : ErrCode} {bits more : List Bool}
    (hfield : field < 2 ^ 32) (h : parseNode s.par (s.par.nodeCap + 1) 0 (decompressBehind s (n + 32) bits).ports =
      .raise e (used, (decompressBehind s k more).ports)) :
    parseHeader .tree (decompressBehind s n (bitsMsb 32 field ++ bits)) =
      .raise e { decompressBehind s k more with
        treeLen := BitVec.ofNat 32 field, nodes := { queue := [], used := used } } := by
  have hpar : (decompressBehind s n (bitsMsb 32 field ++ bits)).par = s.par := rfl
  have hused : (decompressBehind s n (bitsMsb 32 field ++ bits)).nodes.used = 0 := rfl
  simp only [parseHeader, parseTreeHeader, readBits_field hfield, hpar, hused, h]
  rfl

theorem treeBits_lt {par : Params} (hl : par.legal = true) {t : HuffTree} (hfits : t.size ≤ par.nodeCap) :
    treeBits par t < 2 ^ 14 := by
  have h := hdrBits_le hl hfits .tree
  rw [hdrBits] at h
  omega

/-- The length field is compared with the bits of the tree, both far below 2^64. -/
theorem lengthMismatch_eq {field bits n : Nat} (hfield : field < 2 ^ 32) (hbits : bits < 2 ^ 14) :
    lengthMismatch field (BitVec.ofNat 64 n) (BitVec.ofNat 64 (n + bits)) = decide (field ≠ bits) := by
  have hdiff : BitVec.ofNat 64 (n + bits) - BitVec.ofNat 64 n = BitVec.ofNat 64 bits := by
    rw [BitVec.ofNat_add, BitVec.add_comm, BitVec.add_sub_cancel]
  rw [lengthMismatch, hdiff]
  refine decide_eq_decide.2 (not_congr ⟨fun h => ?_, fun h => by rw [h]⟩)
  have h := congrArg BitVec.toNat h
  simp only [BitVec.toNat_ofNat] at h
  omega

/-- A whole tree is parsed; a root that is a leaf other than EOS is MALFORMED_TREE even so. -/
theorem parseHeader_tree {s : State} {n field : Nat} {t : HuffTree} (more : List Bool) (hl : s.par.legal = true)
    (hfield : field < 2 ^ 32) (hsym : t.symbolsLegal s.par = true) (hfits : t.size ≤ s.par.nodeCap) :
    parseHeader .tree (decompressBehind s n (bitsMsb 32 field ++ (treeString s.par t ++ more))) =
      (if t.isLeaf && !t.isEosLeaf s.par then Run.raise .malformedTree else Run.ok t.strip)
        (decompressParsed s (n + 32 + treeBits s.par t) more s.freq t.size (BitVec.ofNat 32 field)
          (decide (field ≠ treeBits s.par t))) := by
  have hdepth := t.depth_lt_size
  have hparse := parseNode_treeString (k := s.par.nodeCap + 1) (used := 0)
    (p := (decompressBehind s (n + 32) (treeString s.par t ++ more)).ports) hsym (by omega) (by omega) rfl
  rw [decompressBehind_advance, Nat.zero_add] at hparse
  have hpar (x : List Bool) : (decompressBehind s n x).par = s.par := rfl
  have hused (x : List Bool) : (decompressBehind s n x).nodes.used = 0 := rfl
  simp only [parseHeader, parseTreeHeader, readBits_field hfield, hpar, hused, hparse, HuffTree.isLeaf_strip,
    HuffTree.isEosLeaf_strip]
  have hmismatch := lengthMismatch_eq (n := n + 32) hfield (treeBits_lt hl hfits)
  rw [decompressParsed, ← hmismatch]
  cases t.isLeaf && !t.isEosLeaf s.par with
  | true => rfl
  | false => rfl

/-! ### DECOMPRESS of a TREE stream (R215, R273) -/

/-- DECOMPRESS of a supply on which ParseNode raises at a place that the store has nodes for. -/
theorem exec_decompress_of_place_raise {s : State} {b : List Byte} {bs : List (List Byte)} {field d : Nat}
    {place : ParsePlace} {tail more : List Bool} {e : ErrCode} (hl : s.par.legal = true) (hp : s.ports.outPend = [])
    (hs : s.supplies = b :: bs) (hfield : field < 2 ^ 32) (hlegal : place.legal s.par = true)
    (hfits : place.nodes ≤ s.par.nodeCap)
    (hb : supplyBits b = bitsMsb 32 s.par.magic.toNat ++ (bitsMsb 32 s.par.tagTree.toNat ++
      (bitsMsb 32 field ++ (place.bits s.par ++ tail))))
    (h : ∀ k p, p.rest = tail →
      parseNode s.par (k + 1) place.nodes p = .raise e (place.nodes, p.advance d more)) :
    exec .decompress s = .next (decompressFailed e place.nodes (BitVec.ofNat 32 field)
      (96 + (place.bits s.par).length + d) [] s) := by
  have hlen := place.length_le_nodes
  have hnode : parseNode s.par (s.par.nodeCap + 1) 0 (decompressBehind s 96 (place.bits s.par ++ tail)).ports =
      .raise e (place.nodes, (decompressBehind s (96 + (place.bits s.par).length + d) more).ports) := by
    have hfuel : s.par.nodeCap + 1 = s.par.nodeCap - place.length + 1 + place.length := by omega
    rw [hfuel]
    refine parseNode_of_place_raise hlegal (by omega) (by omega) rfl ?_
    rw [Nat.zero_add, decompressBehind_advance, h _ _ rfl, decompressBehind_advance]
  rw [exec_decompress_of_raise (f := .tree) hl hs hb (parseHeader_tree_raise hfield hnode), raiseError_decompress hp]

theorem Params.nodeCap_pos (par : Params) : 1 ≤ par.nodeCap := by
  rw [Params.nodeCap, Params.qcap]
  omega

/-- A path that leads to EOS leads there from a root R215 accepts. -/
theorem HuffTree.root_of_follow_eos {par : Params} {t : HuffTree} {path : List Bool}
    (h : t.follow path = some par.eos) : (t.isLeaf && !t.isEosLeaf par) = false := by
  cases t with
  | node w l r => rfl
  | leaf x w =>
    cases path with
    | nil => simpa [HuffTree.follow, HuffTree.isLeaf, HuffTree.isEosLeaf] using h
    | cons c path => simp [HuffTree.follow] at h

/-- A walk that needs a bit starts at an internal root. -/
theorem HuffTree.root_of_leadsInside {par : Params} {t : HuffTree} {path : List Bool}
    (h : t.leadsInside path = true) : (t.isLeaf && !t.isEosLeaf par) = false := by
  cases t with
  | node w l r => rfl
  | leaf x w => simp [HuffTree.leadsInside] at h

theorem HuffTree.map_follow_strip (t : HuffTree) (paths : List (List Bool)) :
    paths.map t.strip.follow = paths.map t.follow :=
  List.map_congr_left fun path _ => t.follow_strip path

/-- Settles O46: the header whole or cut short, where ParseNode raises, then the symbols up to EOS or to the end. -/
theorem decompressTreeStream : Obligations.DecompressTreeStream := by
  refine ⟨?_, ?_, ?_, ?_, ?_⟩
  · intro s b bs t field paths syms last more hl hp hs hsym hfits hfield hsyms hpaths hlast hb
    have hparse := parseHeader_tree (n := 64) (paths.flatten ++ last ++ more) hl hfield hsym hfits
    rw [HuffTree.root_of_follow_eos hlast, if_neg Bool.false_ne_true] at hparse
    rw [← t.map_follow_strip] at hpaths
    rw [← t.follow_strip] at hlast
    rw [List.append_assoc, List.append_assoc, List.append_assoc, List.append_assoc, List.append_assoc,
      ← List.append_assoc paths.flatten] at hb
    rw [exec_decompress_of_symbols (f := .tree) hl hp hs hb hparse hsyms hpaths hlast, ← Nat.add_assoc]
  · intro s b bs short hl hp hs hshort hb
    have hread : 64 + short.length = 8 * b.length := by
      rw [← supplyBits_length b, hb]
      simp only [List.length_append, bitsMsb_length]
    rw [List.append_assoc] at hb
    rw [exec_decompress_of_raise (f := .tree) hl hs hb (parseHeader_tree_short hshort), hread,
      ← raiseError_decompress hp .truncatedStream 0 0 (8 * b.length) []]
    rfl
  · intro s b bs field place tail hl hp hs hfield hlegal hfits hb
    have hread : 96 + (place.bits s.par).length + tail.length = 8 * b.length := by
      rw [← supplyBits_length b, hb]
      simp only [List.length_append, bitsMsb_length]
    rw [List.append_assoc, List.append_assoc, List.append_assoc] at hb
    refine ⟨fun h => ?_, fun v more h habove hv => ?_, fun v more h hv hfull => ?_, fun more h hfull => ?_⟩
    · rw [← hread]
      refine exec_decompress_of_place_raise (more := []) hl hp hs hfield hlegal hfits hb fun k p hrest => ?_
      rw [← hrest] at h ⊢
      exact parseNode_truncated k h
    · rw [Nat.add_assoc _ 1]
      exact exec_decompress_of_place_raise hl hp hs hfield hlegal hfits hb fun k p hrest =>
        parseNode_badLeaf k (hrest.trans h) hv (.inl habove)
    · rw [Nat.add_assoc _ 1]
      exact exec_decompress_of_place_raise hl hp hs hfield hlegal hfits hb fun k p hrest =>
        parseNode_badLeaf k (hrest.trans h) (Params.lt_two_pow_vw hv) (.inr hfull)
    · exact exec_decompress_of_place_raise hl hp hs hfield hlegal hfits hb fun k p hrest =>
        parseNode_fullNode k (hrest.trans h) hfull
  · intro s b bs field v more hl hp hs hfield hv hb
    obtain ⟨-, halph⟩ := Params.alphSize_bounds hl
    obtain ⟨x, rfl⟩ : ∃ x : Symbol, x.toNat = v :=
      ⟨BitVec.ofNat 16 v, Nat.mod_eq_of_lt (hv.trans (halph.trans_lt (by decide)))⟩
    have hparse := parseHeader_tree (n := 64) (t := .leaf x 0) more hl hfield
      (HuffTree.symbolsLegal_leaf_iff.2 hv.le) (Params.nodeCap_pos s.par)
    have hroot : ((HuffTree.leaf x 0).isLeaf && !(HuffTree.leaf x 0).isEosLeaf s.par) = true := by
      simp [HuffTree.isLeaf, HuffTree.isEosLeaf, hv.ne]
    rw [if_pos hroot] at hparse
    rw [List.append_assoc, List.append_assoc, List.append_assoc] at hb
    rw [exec_decompress_of_raise (f := .tree) hl hs hb hparse, show 97 + s.par.vw = 64 + 32 + (1 + s.par.vw) by omega,
      ← raiseError_decompress hp .malformedTree 1 (BitVec.ofNat 32 field) (64 + 32 + (1 + s.par.vw)) more]
    rfl
  · intro s b bs t field paths syms part hl hp hs hsym hfits hfield hsyms hpaths hpart hb
    have hread : 96 + treeBits s.par t + (paths.flatten.length + part.length) = 8 * b.length := by
      rw [← supplyBits_length b, hb]
      simp only [List.length_append, bitsMsb_length, treeString_length]
      omega
    have hparse := parseHeader_tree (n := 64) (paths.flatten ++ part) hl hfield hsym hfits
    rw [HuffTree.root_of_leadsInside hpart, if_neg Bool.false_ne_true] at hparse
    rw [← t.map_follow_strip] at hpaths
    rw [← t.leadsInside_strip] at hpart
    rw [List.append_assoc, List.append_assoc, List.append_assoc, List.append_assoc] at hb
    rw [exec_decompress_of_walk (f := .tree) hl hp hs hb hparse hsyms hpaths hpart hread]
    rfl

end Sys2Proof.Machine
end

section
/-!
PROOFS. The round trip: DECOMPRESS of a stream that holds a header, the codes of some symbols and the EOS code sends these
symbols, and the stream that COMPRESS writes after MEASURE is one (R277).
-/

namespace Sys2Proof.Machine

/-- The code of every symbol that has one leads back to it (R190). -/
theorem follow_codeBits {t : HuffTree} {x : Nat} (h : x ∈ t.leaves.map (fun e => e.1.toNat)) :
    t.follow (codeBits (deriveCodes t) x) = some x := by
  obtain ⟨c, hc⟩ := codeGet_isSome h
  rw [codeBits, hc]
  exact (codeGet_mem hc).1

/-- DECOMPRESS of a whole stream of FREQ `m` and its tree, in either format, whatever follows the stream. -/
theorem exec_decompress_streamString {par : Params} {s : State} {b : List Byte} {bs : List (List Byte)} {m : Memory}
    {r : HuffTree} {st : NodeStore} {syms : List Nat} {f : HdrFmt} {more : List Bool} (hpar : s.par = par)
    (hl : par.legal = true) (hp : s.ports.outPend = []) (hs : s.supplies = b :: bs)
    (hm : Memory.wf par.alphSize m = true) (hr : buildTree (loadFreq par m) = some (r, st))
    (hsyms : ∀ x ∈ syms, x < par.alphSize) (hcodes : ∀ x ∈ syms, codeGet (deriveCodes r) x ≠ none)
    (hb : supplyBits b = streamString par f m r (deriveCodes r) syms ++ more) :
    ∃ t, exec .decompress s = .next t ∧ t.err = s.err
      ∧ t.ports.log = s.ports.log ++ (packBytes (unitsString par syms)).map .byte ++ [.closeOut, .closeIn]
      ∧ t.ports.bitsWritten = BitVec.ofNat 64 (syms.length * par.w)
      ∧ t.ports.inBits = BitVec.ofNat 64 (streamString par f m r (deriveCodes r) syms).length := by
  subst hpar
  have hnotEos : ∀ x ∈ syms, x ≠ s.par.eos := fun x hx => (hsyms x hx).ne
  have hpaths := codes_follow r syms fun x hx => Option.ne_none_iff_exists'.1 (hcodes x hx)
  have hlast := follow_codeBits (mem_leaves_eos hl hr)
  have hlen : (streamString s.par f m r (deriveCodes r) syms).length =
      32 + hdrBits s.par f r + (syms.map (codeBits (deriveCodes r))).flatten.length
        + (codeBits (deriveCodes r) s.par.eos).length := by
    rw [streamString, List.length_append, List.length_append, headerString_length]
    rfl
  cases f with
  | counts =>
    obtain ⟨hcounts, -⟩ := decompressCountsStream
    refine ⟨_, hcounts s b bs m r st _ syms _ more hl hp hs hm hr hnotEos hpaths hlast hb, rfl, rfl, rfl,
      congrArg (BitVec.ofNat 64) ?_⟩
    rw [hlen, hdrBits, ← Nat.add_assoc]
  | tree =>
    obtain ⟨hfits, -⟩ := buildTree_loadFreq_size hr
    obtain ⟨htree, -⟩ := decompressTreeStream
    rw [streamString, headerString, ← List.append_assoc (_ ++ _) (bitsMsb 32 _)] at hb
    refine ⟨_, htree s b bs r (treeBits s.par r) _ syms _ more hl hp hs (buildTree_loadFreq_symbols hl hr) hfits
      ((treeBits_lt hl hfits).trans (by decide)) hnotEos hpaths hlast hb, rfl, rfl, rfl,
      congrArg (BitVec.ofNat 64) ?_⟩
    rw [hlen, hdrBits, ← Nat.add_assoc]

/-- MEASURE, then COMPRESS FORCE of the same supply: the whole stream of the supply's symbols is sent (R244, R246). -/
theorem exec_measure_compress {f : HdrFmt} {s : State} {b : List Byte} {bs : List (List Byte)}
    (hl : s.par.legal = true) (hp : s.ports.outPend = []) (hs : s.supplies = b :: b :: bs)
    (hc : ∀ u, (inputSymbols s.par b).count u < 2 ^ 32) :
    ∃ m r st s1 s2, Memory.wf s.par.alphSize m = true ∧ buildTree (loadFreq s.par m) = some (r, st)
      ∧ (∀ x ∈ inputSymbols s.par b, codeGet (deriveCodes r) x ≠ none)
      ∧ exec (.measure f) s = .next s1 ∧ exec (.compress true) s1 = .next s2
      ∧ s1.origBits = BitVec.ofNat 64 ((inputSymbols s.par b).length * s.par.w)
      ∧ s1.acctBits = BitVec.ofNat 64 (streamString s.par f m r (deriveCodes r) (inputSymbols s.par b)).length
      ∧ s2.par = s.par ∧ s2.err = s.err ∧ s2.ports.outPend = []
      ∧ s2.ports.log = s1.ports.log
        ++ (packBytes (streamString s.par f m r (deriveCodes r) (inputSymbols s.par b))).map .byte
        ++ [.closeOut, .closeIn] := by
  obtain ⟨-, -, hmeasure, -⟩ := measureCommand
  obtain ⟨m, r, hm, hfreq, hr, hexec⟩ := hmeasure f s b (b :: bs) hl hs hc
  obtain ⟨-, -, -, -, hcompress, -⟩ := compressCommand
  have hcodes := codeGet_of_counts hl hr (fun x => inputSymbols_lt) hfreq
  have hlen := streamString_length (fun x => inputSymbols_lt) hfreq f r (deriveCodes r)
  exact ⟨m, r, _, _, _, hm, hr, hcodes, hexec, hcompress true _ b bs r hl hp rfl (.inr rfl) rfl rfl hcodes, rfl,
    congrArg (BitVec.ofNat 64) hlen.symm, rfl, rfl, rfl, rfl⟩

/-- Settles O50: what COMPRESS sends is a whole stream of the supply's symbols, followed by the zeros of its last
byte. -/
theorem roundTrip : Obligations.RoundTrip := by
  intro f s b bs hl hp herr hs hc
  obtain ⟨m, r, st, s1, s2, hm, hr, hcodes, hmeasure, hcompress, horig, hacct, hpar, herr2, hpend, hlog⟩ :=
    exec_measure_compress (f := f) hl hp hs hc
  obtain ⟨s3, hdecompress, herr3, hlog3, hbits, hread⟩ :=
    exec_decompress_streamString (s := { s2 with supplies := _ :: bs }) hpar hl hpend rfl hm hr
      (fun _ => inputSymbols_lt) hcodes (supplyBits_packBytes _)
  exact ⟨s1, s2, s3, _, _, hmeasure, hcompress, hlog, hdecompress, herr3.trans (herr2.trans herr), hlog3, rfl,
    fun hw => packBytes_units s.par hw b, hbits.trans horig.symm, hread.trans hacct.symm⟩

end Sys2Proof.Machine
end

section
/-!
PROOFS. The control commands: their words are accepted whenever BUSY = 0, an error pending or not, and each has one
effect (R300 to R302, R322, R323).
-/

namespace Sys2Proof.Machine

/-! ### Acceptance (R322, R323) -/

/-- A word that decodes is accepted where no error is pending, and a control word in any case. -/
theorem presentCommand_accepted {v : Word} {i : Instr} {s : State} (hdec : decode v = .ok i)
    (h : s.err = none ∨ controlWord v = true) : presentCommand v s = accept i s := by
  have hnot : (s.err.isSome && !controlWord v) = false := by
    obtain h | h := h <;> simp [h]
  simp [presentCommand, hnot, hdec]

/-- The word of a control command is accepted in every state with BUSY = 0, whatever error is pending. -/
theorem memWrite_controlWord {i : Instr} {s : State} (hctl : controlWord (encode i) = true) (hb : busy s = false) :
    memWrite 0x010#12 (encode i) s = accept i s := by
  rw [memWrite_cmd s _ hb, presentCommand_accepted (decode_encode i) (.inr hctl)]

/-! ### The words with OP = 0x00 (R102, R103) -/

theorem eq_nop_of_opcode {i : Instr} (h : i.opcode = 0x00#8) : i = .nop := by
  cases i with
  | nop => rfl
  | _ => simp [Instr.opcode] at h

/-- The one word with OP = 0x00 that decodes is NOP's: a command's word holds its opcode. -/
theorem eq_encode_nop_of_decode {v : Word} {i : Instr} (hop : cmdOp v = 0x00#8) (h : decode v = .ok i) :
    v = encode .nop := by
  have henc : encode i = v := encode_of_decode h
  have hi : i = .nop := eq_nop_of_opcode (by rw [← cmdOp_encode, henc, hop])
  rw [← henc, hi]

/-! ### The commands (R300 to R302) -/

/-- Settles O17: a word with OP = 0x00 that decodes would be NOP's own. -/
theorem nopCommand : Obligations.NopCommand := by
  refine ⟨rfl, fun _ => rfl, fun s hb => memWrite_controlWord (i := .nop) rfl hb, fun v hop hne => ?_⟩
  cases hdec : decode v with
  | error e => exact ⟨e, rfl⟩
  | ok i => exact absurd (eq_encode_nop_of_decode hop hdec) hne

/-- Settles O18: R301 has no condition, and its word is a control word. -/
theorem sessionResetCommand : Obligations.SessionResetCommand :=
  ⟨rfl, fun _ => rfl, fun _ hb => memWrite_controlWord (i := .sessionReset) rfl hb⟩

/-- Settles O19: R302 has no condition, and its word is a control word. -/
theorem clearErrorCommand : Obligations.ClearErrorCommand :=
  ⟨rfl, fun _ => rfl, fun _ hb => memWrite_controlWord (i := .clearError) rfl hb⟩

end Sys2Proof.Machine
end

section
/-!
PROOFS. How a command word is presented and run: acceptance, the error latch and the interrupt line, and the errors a
command can end with (R321 to R326).
-/

namespace Sys2Proof.Machine

/-! ### Presenting a word (R322, R323) -/

/-- The control words as a list. -/
theorem controlWord_iff_mem {v : Word} :
    controlWord v = true ↔ v ∈ [0x00000000#32, 0x01000000#32, 0x02000000#32] := by
  simp [controlWord_iff]

theorem memWrite_accepted {v : Word} {i : Instr} {s : State} (hb : busy s = false) (hdec : decode v = .ok i)
    (hpass : s.err = none ∨ controlWord v = true) : memWrite 0x010#12 v s = accept i s := by
  rw [memWrite_cmd s v hb, presentCommand_accepted hdec hpass]

theorem memWrite_illFormed {v : Word} {e : IllFormed} {s : State} (hb : busy s = false) (hdec : decode v = .error e)
    (herr : s.err = none) : memWrite 0x010#12 v s = raiseIllegal v s := by
  rw [memWrite_cmd s v hb, presentCommand_illFormed hdec herr]

theorem memWrite_latched {v : Word} {c : ErrCode} {s : State} (hb : busy s = false) (herr : s.err = some c)
    (hv : v ∉ [0x00000000#32, 0x01000000#32, 0x02000000#32]) : memWrite 0x010#12 v s = drop s := by
  have hctl : controlWord v = false := by rwa [← Bool.not_eq_true, controlWord_iff_mem]
  rw [memWrite_cmd s v hb, presentCommand_dropped hctl herr]

/-- Settles O7: the write is at CMD's bus address, the latch lets the word pass, and the engine's turn runs it. -/
theorem pendingCommandRuns : Obligations.PendingCommandRuns := by
  intro s v i es hb hdec hpass hscript
  have haccept : memWrite 0x010#12 v { s with script := .engine :: es } = accept i { s with script := .engine :: es } :=
    memWrite_accepted hb hdec (hpass.imp_right controlWord_iff_mem.2)
  refine ⟨?_, rfl⟩
  rw [step_of_script hscript]
  exact congrArg Host.Outcome.next ((hostWrite_in 0x010#12 v { s with script := .engine :: es }).trans haccept)

/-! ### While an error is pending (R322) -/

/-- CMD is the one register of word index 4 (R32, R70). -/
theorem index_of_regAt_cmd {par : Params} {a : Offset} (h : regAt par a = .cmd) : a.toNat / 4 = 4 := by
  unfold regAt at h
  generalize a.toNat / 4 = j at h
  unfold regOfIndex at h
  split at h
  -- CMD's own index, the ranges behind CT_INFO, then the single registers.
  case h_5 => rfl
  case h_28 => split_ifs at h
  all_goals cases h

/-- A write to another register neither looks at ERRCODE nor changes it. -/
theorem memWrite_setErr {a : Offset} {s : State} (ha : regAt s.par a ≠ .cmd) (v : Word) (e : Option ErrCode) :
    memWrite a v { s with err := e } = { memWrite a v s with err := e } := by
  have hreg : writeReg (regAt s.par a) v { s with err := e } = { writeReg (regAt s.par a) v s with err := e } := by
    cases hr : regAt s.par a with
    | cmd => exact absurd hr ha
    | _ => rfl
  cases hb : busy s with
  | true => rw [memWrite_busy a v hb]; exact memWrite_busy a v hb
  | false => rw [memWrite_idle a v hb, ← hreg]; exact memWrite_idle a v hb

/-- Settles O8: the control words, every other word, then the registers that are not CMD. -/
theorem errorLatch : Obligations.ErrorLatch := by
  intro s e v hb herr
  refine ⟨?_, ?_, ?_, fun hv => memWrite_latched hb herr hv, fun a ha => ?_⟩
  · rintro rfl; exact memWrite_controlWord (i := .nop) rfl hb
  · rintro rfl; exact memWrite_controlWord (i := .sessionReset) rfl hb
  · rintro rfl; exact memWrite_controlWord (i := .clearError) rfl hb
  · have hs : s = { ({ s with err := none } : State) with err := some e } := by rw [← herr]
    exact (congrArg (memWrite a v) hs).trans
      (memWrite_setErr (s := { s with err := none }) (mt index_of_regAt_cmd ha) v (some e))

/-- Settles O14: the level by definition, then what each write leaves of DONE and IRQ_EN. -/
theorem interruptLine : Obligations.InterruptLine := by
  refine ⟨fun s => rfl, fun s n => by simp [irqLineLevel], fun s v hb => ?_, fun s v i hb herr hdec => ?_,
    fun s v e hb herr hdec => ?_, fun s v c hb herr hv => ?_⟩
  · rw [memWrite_idle _ v hb]; rfl
  · rw [memWrite_accepted hb hdec (.inl herr)]; rfl
  · rw [memWrite_illFormed hb hdec herr]; rfl
  · rw [memWrite_latched hb herr hv]; rfl

/-! ### How a command ends, and with which errors (R321, R323 to R325) -/

/-- Every command has a next state (R332). -/
theorem exec_next (i : Instr) (s : State) : ∃ t, exec i s = .next t := by
  cases i with
  | nop | sessionReset | clearError | qClear | qLoadFreq => exact ⟨_, rfl⟩
  | qEnqLeaf sym => simp only [exec, execQEnqLeaf]; split_ifs <;> exact ⟨_, rfl⟩
  | qPeek => simp only [exec, execQPeek]; split <;> exact ⟨_, rfl⟩
  | qDequeue => simp only [exec, execQDequeue]; split <;> exact ⟨_, rfl⟩
  | qMerge =>
    simp only [exec, execQMerge]
    split
    · exact ⟨_, rfl⟩
    · split_ifs <;> exact ⟨_, rfl⟩
  | treeBuild =>
    simp only [exec, execTreeBuild]
    split
    · exact ⟨_, rfl⟩
    · split_ifs <;> exact ⟨_, rfl⟩
  | ctDerive => simp only [exec, execCtDerive]; split <;> exact ⟨_, rfl⟩
  | measure f => simp only [exec, execMeasure]; split <;> exact ⟨_, rfl⟩
  | compress force =>
    simp only [exec, execCompress]
    split_ifs
    · exact ⟨_, rfl⟩
    · exact ⟨_, rfl⟩
    · split <;> exact ⟨_, rfl⟩
  | decompress => simp only [exec, execDecompress]; split <;> exact ⟨_, rfl⟩

/-- `Ended` with what R72, R324 and R325 add to it: only a stream command waits, and only for a supply; an error is one
of the command's row; a command that uses no port raises before any effect. -/
inductive EndedByRule (i : Instr) (s : State) : State → Prop where
  | waits (hi : i.isStream = true) (hsup : s.supplies = []) : EndedByRule i s s
  | raised (e : ErrCode) (u : State) (he : e ∈ errorsOf i) (hu : i.isStream = false → u = s) :
      EndedByRule i s (raiseError e i u)
  | completed (u : State) (herr : u.err = s.err ∨ u.err = none) : EndedByRule i s (complete u)

/-- Every command ends by these rules. -/
theorem exec_endedByRule {i : Instr} {s t : State} (h : exec i s = .next t) : EndedByRule i s t := by
  have hplain (e : ErrCode) (he : e ∈ errorsOf i) : EndedByRule i s (raiseError e i s) := .raised e s he fun _ => rfl
  cases i with
  | nop | qClear | qLoadFreq => cases h; exact .completed _ (.inl rfl)
  | sessionReset | clearError => cases h; exact .completed _ (.inr rfl)
  | qEnqLeaf sym =>
    obtain ⟨-, rfl⟩ | ⟨-, -, -, rfl⟩ | ⟨-, -, -, -, rfl⟩ := exec_qEnqLeaf_cases h
    · exact hplain _ (by simp [errorsOf])
    · exact hplain _ (by simp [errorsOf])
    · exact .completed _ (.inl rfl)
  | qPeek =>
    obtain ⟨-, rfl⟩ | ⟨n, q, -, rfl⟩ := exec_qPeek_cases h
    · exact hplain _ (by simp [errorsOf])
    · exact .completed _ (.inl rfl)
  | qDequeue =>
    obtain ⟨-, rfl⟩ | ⟨n, st, -, rfl⟩ := exec_qDequeue_cases h
    · exact hplain _ (by simp [errorsOf])
    · exact .completed _ (.inl rfl)
  | qMerge =>
    obtain ⟨-, rfl⟩ | ⟨n, st, -, ⟨-, rfl⟩ | ⟨-, rfl⟩⟩ := exec_qMerge_cases h
    · exact hplain _ (by simp [errorsOf])
    · exact hplain _ (by simp [errorsOf])
    · exact .completed _ (.inl rfl)
  | treeBuild =>
    obtain ⟨-, rfl⟩ | ⟨r, st, -, ⟨-, rfl⟩ | ⟨-, rfl⟩⟩ := exec_treeBuild_cases h
    · exact hplain _ (by simp [errorsOf])
    · exact hplain _ (by simp [errorsOf])
    · exact .completed _ (.inl rfl)
  | ctDerive =>
    obtain ⟨-, rfl⟩ | ⟨r, -, rfl⟩ := exec_ctDerive_cases h
    · exact hplain _ (by simp [errorsOf])
    · exact .completed _ (.inl rfl)
  | measure f =>
    obtain ⟨rfl, hsup⟩ | ⟨-, rfl⟩ := exec_measure_cases h
    · exact .waits rfl hsup
    · obtain ⟨m, q, -, -, h' | ⟨r, st, -, h'⟩⟩ := measureRun_cases f s
      · rw [h']; exact .raised _ _ (by simp [errorsOf]) (nomatch ·)
      · rw [h']; exact .completed _ (.inl rfl)
  | compress force =>
    obtain ⟨rfl, hsup, -⟩ | ⟨-, rfl⟩ | rfl | ⟨-, rfl⟩ := exec_compress_cases h
    · exact .waits rfl hsup
    · exact .raised _ _ (by simp [errorsOf]) (nomatch ·)
    · exact .completed _ (.inl rfl)
    · obtain ⟨q, -, h' | h'⟩ := compressRun_cases force s
      · rw [h']; exact .raised _ _ (by simp [errorsOf]) (nomatch ·)
      · rw [h']; exact .completed _ (.inl rfl)
  | decompress =>
    obtain ⟨rfl, hsup⟩ | ⟨-, rfl⟩ := exec_decompress_cases h
    · exact .waits rfl hsup
    · obtain ⟨u, hu, ⟨e, he, h'⟩ | h'⟩ := decompressRun_cases s
      · rw [h']; exact .raised e u he (nomatch ·)
      · rw [h']; exact .completed _ (.inl hu.control.1)

/-- An error where there was none was raised by the command. -/
theorem raised_of_err {i : Instr} {s t : State} {e : ErrCode} (hs : s.err = none) (h : exec i s = .next t)
    (he : t.err = some e) : ∃ u, e ∈ errorsOf i ∧ (i.isStream = false → u = s) ∧ t = raiseError e i u := by
  cases exec_endedByRule h with
  | waits => simp [hs] at he
  | raised e' u he' hu =>
    obtain rfl : e' = e := by simpa using he
    exact ⟨u, he', hu, rfl⟩
  | completed u herr =>
    rw [complete_err] at he
    obtain herr | herr := herr <;> simp [herr, hs] at he

/-- Settles O6: by whether the latch drops the word and whether it decodes; the engine's turn with no event left; how a
command ends. -/
theorem presentedCommand : Obligations.PresentedCommand := by
  refine ⟨fun s v hb => ?_, fun s i hi hscript => ?_, fun i s => ?_⟩
  · split_ifs with hlatch
    · obtain ⟨hne, hv⟩ := hlatch
      obtain ⟨c, hc⟩ := Option.ne_none_iff_exists'.1 hne
      exact memWrite_latched hb hc (by simpa using hv)
    · have hpass : s.err = none ∨ controlWord v = true := by rw [controlWord_iff]; tauto
      cases hdec : decode v with
      | error e =>
        have herr : s.err = none := hpass.resolve_right (by simp [controlWord_of_decode_error hdec])
        exact (memWrite_illFormed hb hdec herr).trans (raiseIllegal_of_not_busy v hb)
      | ok i => exact memWrite_accepted hb hdec hpass
  · simp only [step, hscript, engineStep, hi]
  · obtain ⟨t, h⟩ := exec_next i s
    cases exec_endedByRule h with
    | waits hi hsup => exact .inl ⟨h, hi, hsup⟩
    | raised e u => exact .inr ⟨_, h, rfl, rfl⟩
    | completed u => exact .inr ⟨_, h, rfl, rfl⟩

/-- Settles O51: the error was raised, and a raise sets the other three fields (R321). -/
theorem commandsRaiseOnlyTheirErrors : Obligations.CommandsRaiseOnlyTheirErrors := by
  intro i s t e hs h he
  obtain ⟨u, hmem, -, rfl⟩ := raised_of_err hs h he
  exact ⟨hmem, rfl, rfl, rfl⟩

/-- Settles O53: the error was raised before any effect, and the command has no port to close. -/
theorem plainErrorsArePrecise : Obligations.PlainErrorsArePrecise := by
  intro i s t e hi hs h he
  obtain ⟨u, -, hu, rfl⟩ := raised_of_err hs h he
  rw [hu hi, raiseError, closeSequence_plain hi]

end Sys2Proof.Machine
end

section
/-!
PROOFS. The agents' steps: host accesses, supplies and polls while a command is pending, and hardware reset in the
middle of one (R71, R107, R350, R351, R359).
-/

namespace Sys2Proof.Machine

/-! ### Host steps while BUSY = 1 (R71, R107) -/

/-- A step touched nothing of the block but DROPPED, which it did not clear, and took nothing back from the agents. -/
def AgentsOnly (s t : State) : Prop :=
  t = { s with dropped := t.dropped, reads := t.reads, draws := t.draws, supplies := t.supplies }
    ∧ (s.dropped = true → t.dropped = true) ∧ s.reads <+: t.reads ∧ s.supplies <+: t.supplies

theorem AgentsOnly.refl (s : State) : AgentsOnly s s := ⟨rfl, id, List.prefix_refl _, List.prefix_refl _⟩

theorem AgentsOnly.memRead (a : Offset) (s : State) : AgentsOnly s (memRead a s) := by
  have hread (w : Word) (n : Nat) : AgentsOnly s { s with reads := s.reads ++ [w], draws := n } :=
    ⟨rfl, id, List.prefix_append _ _, List.prefix_refl _⟩
  unfold Machine.memRead
  split
  · exact hread _ _
  · exact hread _ _

theorem AgentsOnly.hostRead (addr : Nat) (s : State) : AgentsOnly s (hostRead addr s) := by
  unfold Machine.hostRead
  split
  · exact .memRead _ s
  · exact .refl s

theorem AgentsOnly.hostWrite (addr : Nat) (v : Word) {s : State} (hb : busy s = true) :
    AgentsOnly s (hostWrite addr v s) := by
  unfold Machine.hostWrite
  split
  · rw [memWrite_busy _ v hb]
    exact ⟨rfl, fun _ => rfl, List.prefix_refl _, List.prefix_refl _⟩
  · exact .refl s

theorem AgentsOnly.presentSupply (bs : List Byte) (s : State) : AgentsOnly s (presentSupply bs s) :=
  ⟨rfl, id, List.prefix_refl _, List.prefix_append _ _⟩

/-- A poll of WAIT reads STATUS, and comes again behind an engine turn while BUSY = 1 (R107). -/
theorem waitPoll_eq (s : State) : waitPoll s = { s with
    script := if busy s = true then .engine :: .wait :: s.script else s.script,
    reads := s.reads ++ [statusWord s] } := by
  have hread : memRead 0x00C#12 s = { s with reads := s.reads ++ [statusWord s] } := by
    simp [memRead, regAt, regOfIndex, stableReg, regValue]
  unfold waitPoll
  split_ifs <;> rw [hread]

/-- Settles O9, one kind of event each. -/
theorem busyHostStepsTouchNothing : Obligations.BusyHostStepsTouchNothing := by
  refine ⟨fun s t e es hb hscript he h => ?_, fun s es hscript => ?_⟩
  · have hbusy : busy { s with script := es } = true := hb
    suffices hsuff : AgentsOnly { s with script := es } t from hsuff
    rw [step_of_script hscript] at h
    obtain ⟨a, rfl⟩ | ⟨a, v, rfl⟩ | ⟨bs, rfl⟩ := he
    · cases h; exact .hostRead a _
    · cases h; exact .hostWrite a v hbusy
    · cases h; exact .presentSupply bs _
  · rw [step_of_script hscript, eventStep, waitPoll_eq]
    rfl

/-! ### What a pending command has sent when RST comes (R351) -/

/-- A command that has written nothing yet leaves no bytes. -/
theorem pendingOut_of_ports {s : State} (h : outBeforeClose s = s.ports) : pendingOut s = [] := by
  rw [pendingOut, h, List.drop_length]

/-- Bytes are sent by DECOMPRESS and by a COMPRESS that writes its stream, by no other command. -/
theorem sends_of_pendingOut_ne_nil {s : State} (h : pendingOut s ≠ []) :
    s.engine = .busy .decompress
      ∨ ∃ force, s.engine = .busy (.compress force) ∧ s.measured = true ∧ writesStream force s = true := by
  have hne : outBeforeClose s ≠ s.ports := mt pendingOut_of_ports h
  unfold outBeforeClose at hne
  split at hne
  case h_1 force heng =>
    refine .inr ⟨force, heng, ?_⟩
    by_contra hskip
    refine hne ?_
    rw [compressOut, if_neg (by simpa using hskip)]
  case h_2 heng => exact .inl heng
  all_goals exact absurd rfl hne

theorem outBeforeClose_measure {s : State} {f : HdrFmt} (h : s.engine = .busy (.measure f)) :
    outBeforeClose s = s.ports := by
  rw [outBeforeClose, h]

theorem outBeforeClose_compress {s : State} {force : Bool} (h : s.engine = .busy (.compress force)) :
    outBeforeClose s = compressOut force s := by
  rw [outBeforeClose, h]

theorem outBeforeClose_decompress {s : State} (h : s.engine = .busy .decompress) :
    outBeforeClose s = decompressOut s := by
  rw [outBeforeClose, h]

/-- A COMPRESS with its supply ends with the close sequence of what RST would have found written. -/
theorem exec_compress_ports {force : Bool} {s t : State} (hsup : s.supplies ≠ [])
    (h : exec (.compress force) s = .next t) :
    ∃ q, Wrote (uncounted s.ports) q ∧ q.log = (compressOut force s).log ∧ t.ports = closeIn (closeOut (flush q)) := by
  obtain ⟨b, bs, hb⟩ := List.exists_cons_of_ne_nil hsup
  have hstart : Wrote (uncounted s.ports) (compressStart s).ports := (compressStart_out s).wrote
  simp only [exec, execCompress, hb] at h
  split_ifs at h with hm hw
  · cases h
    exact ⟨_, hstart, by simp [compressOut, hm, compressStart_eq], rfl⟩
  · cases h
    exact ⟨_, hstart, by simp [compressOut, hw, compressStart_eq], rfl⟩
  · cases h
    have hwrites : (s.measured && writesStream force s) = true := by simp [hm, hw]
    refine ⟨_, compressOut_wrote hwrites, rfl, ?_⟩
    simp only [compressRun, compressOut, hwrites, hb, if_true]
    cases emitStream (compressStart s) (compressStart s).ports <;> rfl

/-- A DECOMPRESS with its supply ends with the close sequence of what RST would have found written. -/
theorem exec_decompress_ports {s t : State} (hsup : s.supplies ≠ []) (h : exec .decompress s = .next t) :
    ∃ q, Wrote (uncounted s.ports) q ∧ q.log = (decompressOut s).log ∧ t.ports = closeIn (closeOut (flush q)) := by
  refine ⟨_, decompressOut_wrote hsup, rfl, ?_⟩
  obtain ⟨b, bs, hb⟩ := List.exists_cons_of_ne_nil hsup
  obtain ⟨-, hnil⟩ | ⟨-, rfl⟩ := exec_decompress_cases h
  · exact absurd hnil hsup
  · simp only [decompressRun, decompressOut, hb]
    cases decompressWork s <;> rfl

/-- MEASURE sends nothing (R351). -/
theorem exec_measure_log {f : HdrFmt} {s t : State} (hsup : s.supplies ≠ []) (h : exec (.measure f) s = .next t) :
    t.ports.log = s.ports.log ++ [.closeIn] := by
  obtain ⟨-, hnil⟩ | ⟨-, rfl⟩ := exec_measure_cases h
  · exact absurd hnil hsup
  · obtain ⟨m, q, ⟨-, -, hlog⟩, -, hends⟩ := measureRun_cases f s
    have hclosed : (closeIn q).log = s.ports.log ++ [.closeIn] := congrArg (· ++ [PortEvent.closeIn]) hlog
    obtain h | ⟨r, st, -, h⟩ := hends <;> (rw [h]; exact hclosed)

/-- The first n of the whole bytes of a written string. -/
theorem take_wholeBytes (n : Nat) (c : List Bool) :
    (wholeBytes c).take n = (packBytes c).take (min n (c.length / 8)) := by
  rw [wholeBytes_take, List.take_take]

theorem map_byte_injective : Function.Injective (List.map PortEvent.byte) :=
  List.map_injective_iff.2 fun _ _ => PortEvent.byte.inj

/-- The close sequence sends the flushed string; what RST would have found sent are its whole bytes. -/
theorem Wrote.closed {p q : Ports} {bytes : List Byte} (h : Wrote (uncounted p) q) (hp : p.outPend = [])
    (hq : q.log = p.log ++ bytes.map .byte) : ∃ bits,
      (closeIn (closeOut (flush q))).log = p.log ++ (packBytes bits).map .byte ++ [.closeOut, .closeIn]
      ∧ (closeIn (closeOut (flush q))).bitsWritten = BitVec.ofNat 64 bits.length
      ∧ bytes = wholeBytes bits := by
  obtain ⟨bits, hwhole, hflush, hcount⟩ := h.whole hp
  refine ⟨bits, ?_, ?_, map_byte_injective (List.append_cancel_left (hq.symm.trans hwhole))⟩
  · simp [closeIn, closeOut, hflush, uncounted]
  · simp [closeIn, closeOut, flush_bitsWritten, hcount, uncounted]

/-- What a COMPRESS or DECOMPRESS with its supply would have sent, against what RST finds sent (R351). -/
theorem exec_sends {i : Instr} {s t : State} {bytes : List Byte} (heng : s.engine = .busy i)
    (hi : (∃ force, i = .compress force) ∨ i = .decompress) (hp : s.ports.outPend = []) (hsup : s.supplies ≠ [])
    (h : exec i s = .next t) (hsent : (outBeforeClose s).log = s.ports.log ++ bytes.map .byte) : ∃ bits,
      t.ports.log = s.ports.log ++ (packBytes bits).map .byte ++ [.closeOut, .closeIn]
      ∧ t.ports.bitsWritten = BitVec.ofNat 64 bits.length ∧ bytes = wholeBytes bits := by
  obtain ⟨q, hq, hlog, ht⟩ : ∃ q, Wrote (uncounted s.ports) q ∧ q.log = (outBeforeClose s).log
      ∧ t.ports = closeIn (closeOut (flush q)) := by
    obtain ⟨force, rfl⟩ | rfl := hi
    · rw [outBeforeClose_compress heng]; exact exec_compress_ports hsup h
    · rw [outBeforeClose_decompress heng]; exact exec_decompress_ports hsup h
  rw [ht]
  exact hq.closed hp (hlog.trans hsent)

/-- While DECOMPRESS waits for its supply it has written nothing (R271). -/
theorem outBeforeClose_decompress_waiting {s : State} (heng : s.engine = .busy .decompress) (hsup : s.supplies = []) :
    outBeforeClose s = s.ports := by
  rw [outBeforeClose_decompress heng, decompressOut, hsup]

/-- While COMPRESS waits for its supply the header is all it has written (R246). -/
theorem outBeforeClose_compress_waiting {force : Bool} {s : State} {r : HuffTree}
    (heng : s.engine = .busy (.compress force)) (hp : s.ports.outPend = []) (hsup : s.supplies = [])
    (hm : s.measured = true) (hw : writesStream force s = true) (hr : s.root = some r) :
    (outBeforeClose s).log = s.ports.log ++ (wholeBytes (headerString s.par s.hdrFmt s.freq r)).map .byte := by
  have hpend : (compressStart s).ports.outPend = [] := hp
  rw [outBeforeClose_compress heng]
  simp only [compressOut, hm, hw, hsup, Bool.and_true, if_true]
  rw [writeHeader_eq (compressStart s) r hr, writeCode_eq _ _ (by simp [hpend]), hpend]
  rfl

/-- Settles O16: the reset state, then what had been sent, by whether the command sends and has its supply. -/
theorem hardwareReset : Obligations.HardwareReset := by
  intro s sent es hscript
  obtain ⟨bytes, hout, hlog⟩ := pendingOut_bytes { s with script := es }
  have hnone (h : outBeforeClose { s with script := es } = s.ports) : bytes = [] := by
    rw [pendingOut_of_ports h] at hout
    exact List.map_eq_nil_iff.1 hout.symm
  refine ⟨bytes.take sent, if streamPending s then s.supplies.tail else s.supplies, ?_, ?_, ?_, fun hne => ?_,
    fun hp i t heng hi hsup h => ?_, fun hsup heng => ?_, fun hp hsup force r heng hm hw hr => ?_⟩
  · rw [step_of_script hscript, eventStep, hardReset, hout, ← List.map_take]
    rfl
  · unfold streamPending
    cases s.engine <;> rfl
  · rw [hout, List.map_take]
  · have hsent : pendingOut { s with script := es } ≠ [] := by
      intro hnil
      obtain rfl : bytes = [] := List.map_eq_nil_iff.1 (hout.symm.trans hnil)
      exact hne List.take_nil
    simp only [← writesStream_iff]
    exact sends_of_pendingOut_ne_nil (s := { s with script := es }) hsent
  · cases i with
    | measure f =>
      obtain rfl : bytes = [] := hnone (outBeforeClose_measure heng)
      have hclose := exec_measure_log (s := { s with script := es }) hsup h
      exact ⟨[], by simpa [packBytes] using hclose, rfl, by simp [packBytes]⟩
    | compress force =>
      obtain ⟨bits, hsends, hcount, rfl⟩ :=
        exec_sends (s := { s with script := es }) heng (.inl ⟨force, rfl⟩) hp hsup h hlog
      exact ⟨bits, hsends, hcount, take_wholeBytes sent bits⟩
    | decompress =>
      obtain ⟨bits, hsends, hcount, rfl⟩ :=
        exec_sends (s := { s with script := es }) heng (.inr rfl) hp hsup h hlog
      exact ⟨bits, hsends, hcount, take_wholeBytes sent bits⟩
    | _ => cases hi
  · obtain rfl : bytes = [] := hnone (outBeforeClose_decompress_waiting (s := { s with script := es }) heng hsup)
    exact List.take_nil
  · have hheader := outBeforeClose_compress_waiting (s := { s with script := es }) heng hp hsup hm
      (writesStream_iff.2 hw) hr
    obtain rfl := map_byte_injective (List.append_cancel_left (hlog.symm.trans hheader))
    exact take_wholeBytes sent _

end Sys2Proof.Machine
end
